-- ==== Sys2Proof/Word.lean ====
section
/-! DEFINITION. The words the core moves: bytes, 32-bit header fields, slot numbers, pixel values and the
64-slot colour cache (spec/00_scope.md R9, R12; spec/10_state.md R30). -/

namespace Sys2Proof

/-- `u8`: one byte of a byte sequence, or one channel of a pixel (R9, R12, R68). -/
abbrev Byte := BitVec 8

/-- `u32`: a fixed 32-bit header field (R6, R68). -/
abbrev Word := BitVec 32

/-- A cache slot number, 6 bits, 0..63 (R30, R100). -/
abbrev Slot := BitVec 6

/-- A pixel value `Px(r, g, b, a)`; equality is equality of all four channels (R12, R139). -/
structure Px where
  r : Byte
  g : Byte
  b : Byte
  a : Byte
deriving DecidableEq, Repr

/-- `Px(0, 0, 0, 0)`, the reset value of every cache slot (R30). -/
def Px.zero : Px := ⟨0, 0, 0, 0⟩

/-- `Px(0, 0, 0, 255)`, the value of `PREV` at the start of every coding unit (R35, R131). -/
def Px.start : Px := ⟨0, 0, 0, 255⟩

/-- The colour cache: exactly 64 slots, each one pixel value (R30). -/
abbrev Cache := Vector Px 64

/-- The reset cache, every slot `Px(0, 0, 0, 0)` (R30, R343). -/
def Cache.zero : Cache := Vector.replicate 64 Px.zero

end Sys2Proof
end

