-- ==== Sys2Proof/Config.lean ====
section
/-! DEFINITION. The parameters of the core: the fixed ones of spec/00_scope.md R6, and MAX_PIXELS, which the
spec leaves OPEN (R7; spec/92_eei_decisions.md D16). The other open parameter, HASH, has a default value in the
spec (R133): the machine takes it as `State.hashParam`, and its value is computed in Machine/Operands.lean. -/

namespace Sys2Proof.Config

/-- MAX_PIXELS: the largest W×H the core accepts.  The spec gives no value, so the constant has no body.  It is
the value the parameter has in `State.reset` (log entry 2). -/
opaque maxPixels : Nat

/-- RUN_MAX: the largest run of one RUN opcode (R6). -/
def runMax : Nat := 62

/-- Length of the single-image header (R6, R110). -/
def imageHeaderBytes : Nat := 14

/-- Length of the terminator (R6, R111). -/
def terminatorBytes : Nat := 8

/-- Length of the fixed part of the container header (R6, R234). -/
def containerFixedBytes : Nat := 25

/-- BLOB_MAX: the largest container blob in bytes (R7, R255). -/
def blobMax : Nat := 2 ^ 32 - 1

end Sys2Proof.Config
end

