-- ==== Sys2Proof/Syntax.lean ====
section
/-! DEFINITION. The instruction set: the six opcodes and the five framing tokens of spec/opcode_table.json, one
constructor per row (spec/00_scope.md R2; spec/30_encoding.md R115). -/

namespace Sys2Proof

/-- One constructor per row of the opcode table.  Biased operands are held with the bias removed (R101 to R103):
the deltas of DIFF and LUMA are integers and the run length of RUN is a number of pixels. -/
inductive Instr where
  /-- `INDEX k`: the pixel of cache slot k (R92, R170). -/
  | index (k : Slot)
  /-- `DIFF dr, dg, db`: each delta in -2..1 (R93, R172). -/
  | diff (dr dg db : Int)
  /-- `LUMA dg, drg, dbg`: dg in -32..31, the two differences in -8..7 (R94, R174). -/
  | luma (dg drg dbg : Int)
  /-- `RUN n`: n in 1..62 pixels (R95, R176). -/
  | run (n : Nat)
  /-- `RGB r, g, b` (R96, R178). -/
  | rgb (r g b : Byte)
  /-- `RGBA r, g, b, a` (R97, R180). -/
  | rgba (r g b a : Byte)
  /-- `.frame intra`, tag byte 0x00 (R112). -/
  | frameIntra
  /-- `.frame pred`, tag byte 0x01 (R112). -/
  | framePred
  /-- `.qoif w, h, ch, cs`, the single-image header (R110). -/
  | qoif (w h : Word) (ch cs : Byte)
  /-- `.end`, the terminator of a single image (R111). -/
  | terminator
  /-- The container header: headerSize, width, height, frameRate, channels, frameCount, frameOffsets (R113, R230). -/
  | qov1 (hs w h fr : Word) (ch : Byte) (n : Word) (offs : List Word)
deriving DecidableEq, Repr

end Sys2Proof
end

