-- ==== Sys2Proof/WellFormed.lean ====
section
/-! DEFINITION. Which instructions the encoding can spell: the operand ranges of spec/30_encoding.md R115, R110 and
spec/43_container.md R230, R234. -/

namespace Sys2Proof

/-- `lo <= v <= hi` on integers. -/
def inRange (lo hi v : Int) : Bool := decide (lo ≤ v) && decide (v ≤ hi)

/-- CH ∈ {3, 4} (R6, R110). -/
def channelsLegal (ch : Byte) : Bool := ch == 3 || ch == 4

/-- CS ∈ {0, 1} (R6, R110). -/
def colorspaceLegal (cs : Byte) : Bool := cs == 0 || cs == 1

/-- The operand ranges of each instruction. -/
def Instr.wellFormed : Instr → Bool
  | .index _ => true
  | .diff dr dg db => inRange (-2) 1 dr && inRange (-2) 1 dg && inRange (-2) 1 db
  | .luma dg drg dbg => inRange (-32) 31 dg && inRange (-8) 7 drg && inRange (-8) 7 dbg
  | .run n => decide (1 ≤ n) && decide (n ≤ Config.runMax)
  | .rgb _ _ _ => true
  | .rgba _ _ _ _ => true
  | .frameIntra => true
  | .framePred => true
  | .qoif _ _ ch cs => channelsLegal ch && colorspaceLegal cs
  | .terminator => true
  | .qov1 hs _ _ _ ch n offs =>
    channelsLegal ch && decide (hs.toNat = Config.containerFixedBytes + 4 * n.toNat) && decide (offs.length = n.toNat)

end Sys2Proof
end

