-- ==== Sys2Proof/Decode.lean ====
section
/-! DEFINITION. Decoding and encoding of every opcode and framing token (spec/30_encoding.md R90 to R113;
spec/43_container.md R230; byte order spec/20_memory.md R61 to R63).  Which token a byte begins depends on where it
stands (R112, R114, R150): inside an opcode region every byte begins an opcode, at the start of a frame stands a
tag, and the two headers and the terminator stand at places of their own. -/

namespace Sys2Proof

/-- The place of a token in a stream. -/
inductive Place where
  /-- an opcode region (R150) -/
  | opcode
  /-- the first byte of a video frame (R201) -/
  | tag
  /-- the start of a single-image byte sequence (R71) -/
  | image
  /-- the start of a container blob (R230) -/
  | container
  /-- the last 8 bytes of a single image (R71) -/
  | terminator
deriving DecidableEq, Repr

/-- Why no instruction can be read. -/
inductive DecodeError where
  /-- too few bytes for the opcode (R151) -/
  | truncatedOpcode
  /-- a frame of no bytes (R210) -/
  | emptyFrame
  /-- a tag byte other than 0x00 and 0x01 (R112, R215) -/
  | badTag
  /-- too few bytes for the fixed header; how many there are (R161, R260) -/
  | truncatedHeader (n : Nat)
  /-- the magic is another (R161, R260, R261) -/
  | badMagic
  /-- fewer than headerSize bytes in phase 2; how many there are (R260) -/
  | truncatedTable (n : Nat)
  /-- the 8 bytes are not `00`×7 `01` (R111); no command of the core reads them (R154) -/
  | notTerminator
deriving DecidableEq, Repr

/-- "qoif" (R63; PRESUMED, log entry 12). -/
def magicQoif : List Byte := [0x71, 0x6F, 0x69, 0x66]

/-- "qov1" (R63, R231; PRESUMED, log entry 12). -/
def magicQov1 : List Byte := [0x71, 0x6F, 0x76, 0x31]

/-- The terminator token (R111). -/
def terminatorBytes : List Byte := [0, 0, 0, 0, 0, 0, 0, 1]

/-- `be32(v)`: the four bytes of v, most significant first (R61, R62, R160). -/
def be32 (v : Word) : List Byte :=
  [v.extractLsb' 24 8, v.extractLsb' 16 8, v.extractLsb' 8 8, v.extractLsb' 0 8]

/-- The 32-bit value whose big-endian bytes are b0 b1 b2 b3 (R61). -/
def ofBe32 (b0 b1 b2 b3 : Byte) : Word := b0 ++ b1 ++ b2 ++ b3

/-- The big-endian 32-bit field at position p of a byte sequence (R61). -/
def u32At (bs : List Byte) (p : Nat) : Word :=
  ofBe32 (bs.getD p 0) (bs.getD (p + 1) 0) (bs.getD (p + 2) 0) (bs.getD (p + 3) 0)

/-- The unsigned value of `width` bits of b from bit `lo` up, with `bias` removed (R101 to R103). -/
def unbias (b : Byte) (lo width : Nat) (bias : Int) : Int := ((b.extractLsb' lo width).toNat : Int) - bias

/-- `v + bias` as a byte whose upper bits are 0 for an operand in range (R105, R106). -/
def rebias (v bias : Int) : Byte := BitVec.ofInt 8 (v + bias)

/-- One opcode, selected from its first byte in the order of R98: the two 8-bit tags before the 2-bit tags.  The
bytes given are those left in the opcode region. -/
def decodeOpcode : List Byte → Except DecodeError Instr
  | [] => .error .truncatedOpcode
  | b0 :: rest =>
    if b0 = 0xFE then
      match rest with
      | r :: g :: b :: _ => .ok (.rgb r g b)
      | _ => .error .truncatedOpcode
    else if b0 = 0xFF then
      match rest with
      | r :: g :: b :: a :: _ => .ok (.rgba r g b a)
      | _ => .error .truncatedOpcode
    else if b0.extractLsb' 6 2 = 0 then .ok (.index (b0.extractLsb' 0 6))
    else if b0.extractLsb' 6 2 = 1 then .ok (.diff (unbias b0 4 2 2) (unbias b0 2 2 2) (unbias b0 0 2 2))
    else if b0.extractLsb' 6 2 = 2 then
      match rest with
      | b1 :: _ => .ok (.luma (unbias b0 0 6 32) (unbias b1 4 4 8) (unbias b1 0 4 8))
      | _ => .error .truncatedOpcode
    else .ok (.run ((b0.extractLsb' 0 6).toNat + 1))

/-- The tag byte of a frame (R112, R215). -/
def decodeTag : List Byte → Except DecodeError Instr
  | [] => .error .emptyFrame
  | t :: _ => if t = 0 then .ok .frameIntra else if t = 1 then .ok .framePred else .error .badTag

/-- The single-image header: the length and the magic are needed to read it; its fields are checked by the token's
meaning (R110, R161). -/
def decodeImageHeader (bs : List Byte) : Except DecodeError Instr :=
  if bs.length < Config.imageHeaderBytes then .error (.truncatedHeader bs.length)
  else if bs.take 4 ≠ magicQoif then .error .badMagic
  else .ok (.qoif (u32At bs 4) (u32At bs 8) (bs.getD 12 0) (bs.getD 13 0))

/-- The frame-offset table of a container header of `hs` bytes (R230): as many whole entries as headerSize leaves. -/
def offsetTable (bs : List Byte) (hs : Nat) : List Word :=
  (List.range ((hs - Config.containerFixedBytes) / 4)).map fun k => u32At bs (Config.containerFixedBytes + 4 * k)

/-- The container header from the bytes of the two reads (R260, R356): magic and headerSize from the first, every
other field from the second.  A headerSize below 25 ends the reading after phase 1: the instruction then holds
headerSize alone, the other fields 0, and its meaning raises BAD_HEADER_SIZE (DESIGN CHOICE, log entry 15). -/
def decodeContainerHeader (b1 b2 : List Byte) : Except DecodeError Instr :=
  if b1.length < 8 then .error (.truncatedHeader b1.length)
  else if b1.take 4 ≠ magicQov1 then .error .badMagic
  else
    let hs := u32At b1 4
    if hs.toNat < Config.containerFixedBytes then .ok (.qov1 hs 0 0 0 0 0 [])
    else if b2.length < hs.toNat then .error (.truncatedTable b2.length)
    else .ok (.qov1 hs (u32At b2 8) (u32At b2 12) (u32At b2 16) (b2.getD 20 0) (u32At b2 21) (offsetTable b2 hs.toNat))

/-- The terminator token (R111).  No command of the core reads it (R154). -/
def decodeTerminator (bs : List Byte) : Except DecodeError Instr :=
  if bs.take Config.terminatorBytes = terminatorBytes then .ok .terminator else .error .notTerminator

/-- The decoder: total on any bytes at any place. -/
def decodeAt : Place → List Byte → Except DecodeError Instr
  | .opcode, bs => decodeOpcode bs
  | .tag, bs => decodeTag bs
  | .image, bs => decodeImageHeader bs
  | .container, bs => decodeContainerHeader bs bs
  | .terminator, bs => decodeTerminator bs

/-- Where each instruction stands. -/
def Instr.place : Instr → Place
  | .index _ => .opcode
  | .diff _ _ _ => .opcode
  | .luma _ _ _ => .opcode
  | .run _ => .opcode
  | .rgb _ _ _ => .opcode
  | .rgba _ _ _ _ => .opcode
  | .frameIntra => .tag
  | .framePred => .tag
  | .qoif _ _ _ _ => .image
  | .terminator => .terminator
  | .qov1 _ _ _ _ _ _ _ => .container

/-- The length in bytes (R90, R110 to R112, R234). -/
def Instr.size : Instr → Nat
  | .index _ => 1
  | .diff _ _ _ => 1
  | .luma _ _ _ => 2
  | .run _ => 1
  | .rgb _ _ _ => 4
  | .rgba _ _ _ _ => 5
  | .frameIntra => 1
  | .framePred => 1
  | .qoif _ _ _ _ => Config.imageHeaderBytes
  | .terminator => Config.terminatorBytes
  | .qov1 _ _ _ _ _ _ offs => Config.containerFixedBytes + 4 * offs.length

/-- The bytes of an instruction, written from R105 to R107 (opcodes), R110 to R112 and R230 (framing tokens).  The
positions of DIFF's and LUMA's fields are PRESUMED (log entry 11). -/
def encode : Instr → List Byte
  | .index k => [k.setWidth 8]
  | .diff dr dg db => [0x40 ||| (rebias dr 2 <<< 4) ||| (rebias dg 2 <<< 2) ||| rebias db 2]
  | .luma dg drg dbg => [0x80 ||| rebias dg 32, (rebias drg 8 <<< 4) ||| rebias dbg 8]
  | .run n => [0xC0 ||| rebias n (-1)]
  | .rgb r g b => [0xFE, r, g, b]
  | .rgba r g b a => [0xFF, r, g, b, a]
  | .frameIntra => [0x00]
  | .framePred => [0x01]
  | .qoif w h ch cs => magicQoif ++ be32 w ++ be32 h ++ [ch, cs]
  | .terminator => terminatorBytes
  | .qov1 hs w h fr ch n offs =>
    magicQov1 ++ be32 hs ++ be32 w ++ be32 h ++ be32 fr ++ [ch] ++ be32 n ++ offs.flatMap be32

/-- The bytes of a word as the opcode table numbers it (log entry 7).  Bit 0 is the least significant bit of the
first byte and later bytes count on from it; but the table prints a header's magic and the terminator as one number
whose first byte is the most significant (its `match` 0x716F6966 for "qoif"), so those three numbers are laid out
first byte first.  Every byte above `nbits` is 0, and at least 25 bytes are given, the longest instruction of fixed
length. -/
def tableBytes (nbits w : Nat) : List Byte :=
  let v := w % 2 ^ nbits
  let le := (List.range (max Config.containerFixedBytes ((nbits + 7) / 8))).map fun k => BitVec.ofNat 8 (v / 2 ^ (8 * k))
  if v % 2 ^ 32 = 0x716F6966 then magicQoif ++ le.drop 4
  else if v % 2 ^ 32 = 0x716F7631 then magicQov1 ++ le.drop 4
  else if nbits = 64 ∧ v = 1 then terminatorBytes ++ le.drop 8
  else le

/-- The place a word of the opcode table is read at: the row with the most mask bits that the word fits (log
entry 7), as R98 tests the 8-bit tags before the 2-bit tags.  A one-byte word 0x00 or 0x01 is a frame tag (mask
0xFF), every other byte an opcode. -/
def tablePlace (nbits w : Nat) : Place :=
  let bs := tableBytes nbits w
  if bs.take 4 = magicQoif then .image
  else if bs.take 4 = magicQov1 then .container
  else if nbits = 64 ∧ bs.take 8 = terminatorBytes then .terminator
  else if nbits ≤ 8 ∧ (bs.take 1 = [0x00] ∨ bs.take 1 = [0x01]) then .tag
  else .opcode

/-- The instruction the decoder reads from a word of the opcode table. -/
def decodeTableWord (nbits w : Nat) : Option Instr :=
  match decodeAt (tablePlace nbits w) (tableBytes nbits w) with
  | .ok i => some i
  | .error _ => none

end Sys2Proof
end

