-- ==== Sys2Proof/Machine/State.lean ====
section
/-! DEFINITION. The state of the core: any number of encoder instances (spec/10_state.md R22) and decoder instances
(R26), which share nothing (R20, R333), the working registers of the command in progress (R35), the host's side of the
transaction interface (R11, R335), and the parameters of the model (spec/00_scope.md R7). -/

namespace Sys2Proof.Machine

/-- A byte-addressed space of the core (R60): a list of (position, byte).  A position that is not listed does not
exist in the sequence and has no value (R81; log entry 6). -/
abbrev Memory := List Host.Cell

/-- The canonical form: positions strictly rising. -/
abbrev Memory.wf (m : Memory) : Prop := List.Pairwise (fun x y : Host.Cell => x.1 < y.1) m

/-- The memory holding a byte sequence at positions a, a + 1, … (R60). -/
def Memory.ofBytesAt : Nat → List Byte → Memory
  | _, [] => []
  | a, b :: bs => (a, b) :: Memory.ofBytesAt (a + 1) bs

/-- KIND of a coding unit or frame: INTRA or PRED, Intra or Predictive (R35, R42, R200). -/
inductive FrameKind where
  | intra
  | predictive
deriving DecidableEq, Repr

/-- A ByteRangeSource (R330): the byte sequence S it reads from and the length LEN it reports.  The two agree for a
source that keeps the host's duties (R332). -/
structure Source where
  bytes : List Byte
  len : Nat
deriving DecidableEq, Repr

/-- The three error classes (R300). -/
inductive ErrorClass where
  | formatError
  | sequenceError
  | sizeMismatch
deriving DecidableEq, Repr

/-- The fourteen error codes, by name (R301). -/
inductive ErrorCode where
  | badMagic
  | truncatedHeader
  | badChannels
  | badColorspace
  | badHeaderSize
  | truncatedOffsetTable
  | badOffsets
  | truncatedStream
  | badFrameTag
  | noReference
  | notOpen
  | bufferLength
  | tooLarge
  | badConfig
deriving DecidableEq, Repr

/-- An error result: the code, which fixes the class, and the information recorded (R301). -/
structure ErrorRec where
  code : ErrorCode
  info : Option Nat
deriving DecidableEq, Repr

/-- What a command returns to the host (R334, R335). -/
inductive Result where
  /-- ENC_BEGIN, DEC_RESTART -/
  | ok
  /-- ENCODE_IMAGE -/
  | image (bytes : List Byte)
  /-- DECODE_IMAGE -/
  | decodedImage (w h : Word) (ch cs : Byte) (pixels : List Byte)
  /-- ENC_FRAME -/
  | frame (bytes : List Byte)
  /-- ENC_FLUSH -/
  | blob (bytes : List Byte)
  /-- DEC_OPEN -/
  | opened (w h : Word) (ch : Byte) (fr : Word) (n : Word)
  /-- DEC_NEXT -/
  | pixels (bytes : List Byte)
  /-- DEC_NEXT when exhausted -/
  | endOfStream
  /-- DEC_FRAME: the new state S' = (CACHE, REF) and the pixels -/
  | decodedFrame (cache : Cache) (ref : List Byte) (pixels : List Byte)
  /-- any command: the error result in place of its results (R310) -/
  | error (e : ErrorRec)
deriving DecidableEq, Repr

/-- The nine commands of the core (R335).  A session command names the instance it addresses (R20): encoder `e`,
decoder `d`, counted from 0 in the order of creation (log entry 3).  The three pure commands use no instance (R163,
R279).  `other` is any command outside that set, which the model refuses (spec/93_implementation_defined.md V5). -/
inductive Command where
  | encodeImage (w h : Word) (ch cs : Byte) (pixels : List Byte)
  | decodeImage (bytes : List Byte)
  | encBegin (e : Nat) (w h : Word) (ch : Byte) (fr : Word)
  | encFrame (e : Nat) (kind : FrameKind) (pixels : List Byte)
  | encFlush (e : Nat)
  | decOpen (d : Nat) (src : Source)
  | decNext (d : Nat)
  | decRestart (d : Nat)
  | decFrame (cache : Cache) (ref : Option (List Byte)) (w h : Word) (ch : Byte) (frame : List Byte)
  | other (code : Nat)
deriving DecidableEq, Repr

/-- What the host does between commands: it issues one, it creates an instance, which is the reset event of that
instance (R340), or it discards one (R256; DESIGN CHOICE, log entry 16). -/
inductive HostAction where
  | issue (c : Command)
  | newEncoder
  | newDecoder
  | discardEncoder (e : Nat)
  | discardDecoder (d : Nat)
deriving DecidableEq, Repr

/-- Which command decodes the frame: DEC_NEXT of decoder d (its session) or DEC_FRAME (the pure command, R279). -/
inductive FrameCaller where
  | session (d : Nat)
  | perFrame
deriving DecidableEq, Repr

/-- Where the command in progress stands. -/
inductive Phase where
  /-- no command is in progress -/
  | idle
  /-- DECODE_IMAGE, its header token stands next -/
  | imageHeader
  /-- DECODE_IMAGE, the coding unit is being decoded and then its terminator is reached -/
  | imageUnit
  /-- DEC_OPEN of a source by decoder d, the container header stands next -/
  | containerHeader (d : Nat) (src : Source)
  /-- DEC_NEXT or DEC_FRAME, the frame's tag stands next -/
  | frameTag (caller : FrameCaller)
  /-- DEC_NEXT or DEC_FRAME, the frame's coding unit is being decoded -/
  | frameUnit (caller : FrameCaller)
  /-- ENCODE_IMAGE, the coding unit is being encoded -/
  | encImage
  /-- ENC_FRAME of encoder e, the coding unit is being encoded -/
  | encFrame (e : Nat)
deriving DecidableEq, Repr

/-- The working registers of one command (R21, R35 to R42), with the arguments of that command they work on. -/
structure Work where
  phase : Phase
  /-- KIND (R42) -/
  kind : FrameKind
  /-- PREV (R36) -/
  prev : Px
  /-- RUN (R37) -/
  run : Nat
  /-- I (R38) -/
  i : Nat
  /-- PTR (R41) -/
  ptr : Nat
  /-- END (R35, R150) -/
  endp : Nat
  /-- WCACHE (R40) -/
  wcache : Cache
  /-- OUT (R39): the opcode bytes emitted, or the bytes of the pixels produced, at their positions (R141) -/
  out : Memory
  /-- the input byte sequence of the command, captured at its start (R79): image, frame, container header or pixels -/
  inp : Memory
  /-- the bytes of DEC_OPEN's phase 1 read (R260) -/
  pre : List Byte
  /-- W of the coding unit -/
  w : Word
  /-- H of the coding unit -/
  h : Word
  /-- CH of the coding unit -/
  ch : Byte
  /-- CS of a single image -/
  cs : Byte
  /-- the reference buffer the unit reads, REF of R132 and R209, or NONE -/
  ref : Option Memory
  /-- the position in the blob of the frame's first byte, added to a reported position (R210) -/
  base : Nat
deriving DecidableEq, Repr

/-- ENC.MODE (R23). -/
inductive EncMode where
  | idle
  | opened
deriving DecidableEq, Repr

/-- DEC.MODE (R27). -/
inductive DecMode where
  | closed
  | opened
deriving DecidableEq, Repr

/-- The encoder instance (R22). -/
structure Enc where
  mode : EncMode
  w : Word
  h : Word
  ch : Byte
  fr : Word
  cache : Cache
  ref : Option Memory
  frames : List (List Byte)
deriving DecidableEq, Repr

/-- The decoder instance (R26). -/
structure Dec where
  mode : DecMode
  w : Word
  h : Word
  ch : Byte
  fr : Word
  n : Word
  hs : Word
  off : List Word
  len : Nat
  src : Option Source
  next : Word
  cache : Cache
  ref : Option Memory
deriving DecidableEq, Repr

/-- The host's side: the actions it has queued, oldest first (R74); the results returned to it, oldest first (R334);
and the replies its ByteRangeSource will give to the next reads in place of the bytes of the source, none for a
source that keeps the host's duties (spec/93_implementation_defined.md V3; log entry 5). -/
structure HostSide where
  pending : List HostAction
  results : List Result
  replies : List (List Byte)
deriving DecidableEq, Repr

/-- The parameter HASH : Px → 0..63 (R7, R133; spec/93_implementation_defined.md I1) as plain data: the pixel values at
which it differs from the default formula, each with its slot.  The empty list is the default; there are finitely many
pixel values, so every function is one of these (log entry 10). -/
abbrev HashParam := List (Px × Slot)

/-- The whole machine.  The encoder and decoder instances stand under their numbers, `none` where one has been
discarded (R333, R340; log entry 3).  `maxPixels` and `hashParam` are the parameters MAX_PIXELS and HASH (R7), which
no step changes. -/
structure State where
  encs : List (Option Enc)
  decs : List (Option Dec)
  work : Work
  io : HostSide
  maxPixels : Nat
  hashParam : HashParam
deriving DecidableEq, Repr

/-- Why the machine stops with a fault: a position that does not exist was read.  No state that a run reaches raises
one of these (spec/93_implementation_defined.md V6; log entry 19); each is safe, since the model stops where the spec gives no
value. -/
inductive Fault where
  /-- raised by an opcode or by the encoder that reads REF[i] where no reference pixel i exists (R33, R34); safe -/
  | absentReference
  /-- raised by the encoder that reads Pix(i) where the input buffer has no pixel i (R140); safe -/
  | absentInput
  /-- raised by DEC_NEXT of an open session that holds no offset for its frame (R28); safe -/
  | absentOffset
  /-- raised by DEC_NEXT of an open session that holds no ByteRangeSource (R26); safe -/
  | absentSource
  /-- raised by the last step of ENC_FRAME, DEC_OPEN or DEC_NEXT whose instance does not exist: an instance is discarded
  between commands only (R256, R340); safe -/
  | absentInstance
deriving DecidableEq, Repr

/-- Why the model gives no meaning. -/
inductive Refusal where
  /-- raised by `exec` for an instruction without a meaning; safe -/
  | notModelled (mnemonic : String)
  /-- raised by a meaning whose token does not stand at the place the command in progress has reached: an opcode
  outside the opcode region or after the unit's last pixel, a tag that begins no frame, a header that begins no
  sequence (R150, R153, R201; DESIGN CHOICE, log entry 9); safe -/
  | tokenOutOfPlace
  /-- raised by a command outside the nine of R335 (V5; log entry 20); safe -/
  | unknownCommand
  /-- raised by a command that addresses, or a discard of, an instance that does not exist (R20, R340; DESIGN CHOICE,
  log entry 16); safe -/
  | noSuchInstance
  /-- raised by DEC_FRAME with arguments that are not well formed (R279, V4; log entry 20); safe -/
  | badFrameArguments
deriving DecidableEq, Repr

/-- The encoder instance right after its creation (R22, R340, R341). -/
def Enc.reset : Enc :=
  { mode := .idle, w := 0, h := 0, ch := 0, fr := 0, cache := Cache.zero, ref := none, frames := [] }

/-- The decoder instance right after its creation (R26, R340, R342). -/
def Dec.reset : Dec :=
  { mode := .closed, w := 0, h := 0, ch := 0, fr := 0, n := 0, hs := 0, off := [], len := 0, src := none, next := 0,
    cache := Cache.zero, ref := none }

/-- The working registers while no command is in progress: the start values of R343, and 0 or nothing where R343
gives none (log entry 1). -/
def Work.idle : Work :=
  { phase := .idle, kind := .intra, prev := Px.start, run := 0, i := 0, ptr := 0, endp := 0, wcache := Cache.zero,
    out := [], inp := [], pre := [], w := 0, h := 0, ch := 0, cs := 0, ref := none, base := 0 }

/-- The machine right after reset: one encoder and one decoder just created (log entry 3), no command in progress,
nothing issued, HASH the default (R133). -/
def State.reset : State :=
  { encs := [some Enc.reset], decs := [some Dec.reset], work := Work.idle,
    io := { pending := [], results := [], replies := [] }, maxPixels := Config.maxPixels, hashParam := [] }

end Sys2Proof.Machine
end

