-- ==== Sys2Proof/Machine/Flags.lean ====
section
/-! DEFINITION. The core has no condition codes and no arithmetic flags (spec/10_state.md R43).  Its only state
flags are the modes, whether a reference is resident, and the named states of the sequential decoder (R23, R27, R29,
R43), read here from the state. -/

namespace Sys2Proof.Machine

/-- `ENC.MODE = OPEN` (R23). -/
def Enc.isOpen (e : Enc) : Bool := e.mode == .opened

/-- `DEC.MODE = OPEN` (R27). -/
def Dec.isOpen (d : Dec) : Bool := d.mode == .opened

/-- Fresh: open, and frame 0 is next (R29). -/
def Dec.isFresh (d : Dec) : Bool := d.isOpen && d.next == 0

/-- Positioned: open, and a frame k > 0 is next (R29). -/
def Dec.isPositioned (d : Dec) : Bool := d.isOpen && d.next != 0

/-- exhausted: open, and no frame is left (R29, R275). -/
def Dec.isExhausted (d : Dec) : Bool := d.isOpen && d.next == d.n

/-- The "resident reference" flag: REF ≠ NONE (R43, R207). -/
def resident (ref : Option Memory) : Bool := ref.isSome

end Sys2Proof.Machine
end

