-- ==== Sys2Proof/Machine/Operands.lean ====
section
/-! DEFINITION. The cache index and the channel arithmetic (spec/40_pixel_codec.md R133 to R139), the pixel each
opcode reconstructs from its prediction (R136; spec/41_opcodes.md), and the encoder's choice of opcode (R145).
HASH is a parameter of the machine (R7; spec/93_implementation_defined.md I1): the encoder and the decoder take the
function that `State.hash` reads from the state. -/

namespace Sys2Proof.Machine

/-- The default of HASH, the cache index of a pixel value (R133; PRESUMED, log entry 10). -/
def defaultHash (p : Px) : Slot :=
  BitVec.ofNat 6 (3 * p.r.toNat + 5 * p.g.toNat + 7 * p.b.toNat + 11 * p.a.toNat)

/-- The function a parameter HASH stands for: the first slot listed for the pixel value, else the default. -/
def slotOf : HashParam → Px → Slot
  | [], p => defaultHash p
  | (q, k) :: rest, p => if p = q then k else slotOf rest p

/-- HASH of the machine (R133, R7). -/
def State.hash (s : State) : Px → Slot := slotOf s.hashParam

/-- `sext_8(v)`: the signed reading of the low 8 bits of v (R10). -/
def sext8 (v : Int) : Int := (BitVec.ofInt 8 v).toInt

/-- The channel delta of `cur` from `pred` (R134). -/
def delta (cur pred : Byte) : Int := sext8 ((cur.toNat : Int) - pred.toNat)

/-- A delta added to a prediction channel modulo 256 (R136). -/
def addDelta (ch : Byte) (d : Int) : Byte := BitVec.ofInt 8 ((ch.toNat : Int) + d)

/-- The pixel DIFF reconstructs (R172). -/
def diffPixel (dr dg db : Int) (pred : Px) : Px :=
  ⟨addDelta pred.r dr, addDelta pred.g dg, addDelta pred.b db, pred.a⟩

/-- The pixel LUMA reconstructs (R174). -/
def lumaPixel (dg drg dbg : Int) (pred : Px) : Px :=
  ⟨addDelta pred.r (dg + drg), addDelta pred.g dg, addDelta pred.b (dg + dbg), pred.a⟩

/-- The pixel RGB reconstructs: "alpha unchanged" (R178). -/
def rgbPixel (r g b : Byte) (pred : Px) : Px := ⟨r, g, b, pred.a⟩

/-- The content of cache slot k (R30). -/
def cacheRead (c : Cache) (k : Slot) : Px := c.get k.toFin

/-- `CACHE[k] <- p` (R30). -/
def cacheWrite (c : Cache) (k : Slot) (p : Px) : Cache := c.set k.toNat p k.isLt

/-- Whether DIFF can code the deltas (R145.2). -/
def diffFits (dr dg db : Int) : Bool := inRange (-2) 1 dr && inRange (-2) 1 dg && inRange (-2) 1 db

/-- Whether LUMA can code the deltas (R145.3). -/
def lumaFits (dg drg dbg : Int) : Bool := inRange (-32) 31 dg && inRange (-8) 7 drg && inRange (-8) 7 dbg

/-- The opcode for a pixel unequal to its prediction that missed the cache (R145.2 to R145.5). -/
def selectDelta (pred cur : Px) : Instr :=
  if cur.a = pred.a then
    let dr := delta cur.r pred.r
    let dg := delta cur.g pred.g
    let db := delta cur.b pred.b
    if diffFits dr dg db then .diff dr dg db
    else if lumaFits dg (sext8 (dr - dg)) (sext8 (db - dg)) then .luma dg (sext8 (dr - dg)) (sext8 (db - dg))
    else .rgb cur.r cur.g cur.b
  else .rgba cur.r cur.g cur.b cur.a

/-- The opcode for a pixel unequal to its prediction, in the fixed priority of R145: INDEX first. -/
def selectOpcode (hashOf : Px → Slot) (cache : Cache) (pred cur : Px) : Instr :=
  if cacheRead cache (hashOf cur) = cur then .index (hashOf cur) else selectDelta pred cur

/-- The cache after the encoder coded `cur` by `selectOpcode`: written unless the opcode is INDEX (R146). -/
def cacheAfter (hashOf : Px → Slot) (cache : Cache) (cur : Px) : Cache :=
  if cacheRead cache (hashOf cur) = cur then cache else cacheWrite cache (hashOf cur) cur

/-- The pixel a one-pixel opcode reconstructs from the cache and the prediction, by the decode rules R170 to R180;
none for RUN and the framing tokens. -/
def opcodePixel (cache : Cache) (pred : Px) : Instr → Option Px
  | .index k => some (cacheRead cache k)
  | .diff dr dg db => some (diffPixel dr dg db pred)
  | .luma dg drg dbg => some (lumaPixel dg drg dbg pred)
  | .rgb r g b => some (rgbPixel r g b pred)
  | .rgba r g b a => some ⟨r, g, b, a⟩
  | .run _ => none
  | .frameIntra => none
  | .framePred => none
  | .qoif _ _ _ _ => none
  | .terminator => none
  | .qov1 _ _ _ _ _ _ _ => none

/-- Whether the decoder writes the pixel to the cache after the opcode (R155). -/
def writesCache : Instr → Bool
  | .index _ => false
  | .diff _ _ _ => true
  | .luma _ _ _ => true
  | .run _ => false
  | .rgb _ _ _ => true
  | .rgba _ _ _ _ => true
  | .frameIntra => false
  | .framePred => false
  | .qoif _ _ _ _ => false
  | .terminator => false
  | .qov1 _ _ _ _ _ _ _ => false

end Sys2Proof.Machine
end

