-- ==== Sys2Proof/Machine/Ops.lean ====
section
/-! DEFINITION. The operations the meanings are built from: byte spaces and pixels (spec/20_memory.md;
spec/40_pixel_codec.md R140, R141), the prediction (R132), producing a pixel (R152, R156), emitting an opcode (R10),
the reads of the ByteRangeSource (spec/60_exceptions.md R330), returning a result, and the abort (R310). -/

namespace Sys2Proof.Machine

/-! ### Byte spaces -/

/-- The byte at a position, or none where the sequence has no such position (R81). -/
def Memory.readByte : Memory → Nat → Option Byte
  | [], _ => none
  | (k, b) :: m, a => if k = a then some b else Memory.readByte m a

/-- One byte written at a position, keeping the canonical form. -/
def Memory.writeByte : Memory → Nat → Byte → Memory
  | [], a, b => [(a, b)]
  | (k, c) :: m, a, b =>
    if a < k then (a, b) :: (k, c) :: m
    else if a = k then (a, b) :: m
    else (k, c) :: Memory.writeByte m a b

/-- The bytes written at consecutive positions from a up (MemWrite of R10, one byte at a time). -/
def Memory.writeBytes : Memory → Nat → List Byte → Memory
  | m, _, [] => m
  | m, a, b :: bs => Memory.writeBytes (m.writeByte a b) (a + 1) bs

/-- Up to n bytes from position a on, ending early where the sequence ends (MemRead of R10; R330). -/
def Memory.readBytes (m : Memory) : Nat → Nat → List Byte
  | _, 0 => []
  | a, n + 1 =>
    match m.readByte a with
    | none => []
    | some b => b :: Memory.readBytes m (a + 1) n

/-- The length of the sequence: one past its last position (L of R71, |F| of R210). -/
def Memory.size : Memory → Nat
  | [] => 0
  | [(k, _)] => k + 1
  | _ :: c :: m => Memory.size (c :: m)

/-- A byte sequence as a space addressed from 0 (R60). -/
def Memory.ofBytes (bs : List Byte) : Memory := Memory.ofBytesAt 0 bs

/-- The bytes of a space in the order of their positions. -/
def Memory.toBytes (m : Memory) : List Byte := m.map Prod.snd

/-- `Emit` of each byte in turn: appended at the current end (R10). -/
def Memory.emit (m : Memory) (bs : List Byte) : Memory := m.writeBytes m.size bs

/-! ### Pixels -/

/-- The bytes of a pixel in a buffer of CH channels: alpha only for CH = 4 (R64, R141). -/
def pixelBytes (ch : Byte) (p : Px) : List Byte := if ch = 4 then [p.r, p.g, p.b, p.a] else [p.r, p.g, p.b]

/-- Pixel i written to a buffer of CH channels, at positions i×CH and up (R72, R141). -/
def Memory.writePixel (m : Memory) (ch : Byte) (i : Nat) (p : Px) : Memory :=
  m.writeBytes (i * ch.toNat) (pixelBytes ch p)

/-- Pixel i of a buffer of CH channels: alpha 255 for CH = 3 (Pix(i) of R140, REF[i] of R34). -/
def Memory.readPixel (m : Memory) (ch : Byte) (i : Nat) : Option Px := do
  let r ← m.readByte (i * ch.toNat)
  let g ← m.readByte (i * ch.toNat + 1)
  let b ← m.readByte (i * ch.toNat + 2)
  let a ← if ch = 4 then m.readByte (i * ch.toNat + 3) else some 255
  pure ⟨r, g, b, a⟩

/-- W×H (R130, on integers). -/
def pixelCount (w h : Word) : Nat := w.toNat * h.toNat

/-- W×H×CH, the length of a pixel buffer (R72). -/
def bufferLength (w h : Word) (ch : Byte) : Nat := pixelCount w h * ch.toNat

/-! ### The instances -/

/-- Encoder instance e, or none where it does not exist (R333, R340). -/
def State.encAt (s : State) (e : Nat) : Option Enc := s.encs.getD e none

/-- Decoder instance d, or none where it does not exist (R333, R340). -/
def State.decAt (s : State) (d : Nat) : Option Dec := s.decs.getD d none

/-- Encoder instance e replaced, every other instance as it is (R333). -/
def State.putEnc (s : State) (e : Nat) (x : Option Enc) : State := { s with encs := s.encs.set e x }

/-- Decoder instance d replaced, every other instance as it is (R333). -/
def State.putDec (s : State) (d : Nat) (x : Option Dec) : State := { s with decs := s.decs.set d x }

/-- What is done with encoder instance e, refused where it does not exist (log entry 16). -/
def State.onEnc (s : State) (e : Nat) (f : Enc → Host.Outcome State Fault Refusal) :
    Host.Outcome State Fault Refusal :=
  match s.encAt e with
  | none => .refused .noSuchInstance
  | some enc => f enc

/-- What is done with decoder instance d, refused where it does not exist (log entry 16). -/
def State.onDec (s : State) (d : Nat) (f : Dec → Host.Outcome State Fault Refusal) :
    Host.Outcome State Fault Refusal :=
  match s.decAt d with
  | none => .refused .noSuchInstance
  | some dec => f dec

/-! ### The working registers -/

/-- NPX of the coding unit in progress (R130). -/
def Work.npx (wk : Work) : Nat := pixelCount wk.w wk.h

/-- PRED(I), the prediction of the next pixel (R132); none where REF has no pixel I. -/
def Work.pred (wk : Work) : Option Px :=
  match wk.kind with
  | .intra => some wk.prev
  | .predictive => wk.ref.bind fun r => r.readPixel wk.ch wk.i

/-- `emit1(px)`: px written as pixel I, PREV and I advanced (R156). -/
def Work.emit1 (wk : Work) (px : Px) : Work :=
  { wk with out := wk.out.writePixel wk.ch wk.i px, prev := px, i := wk.i + 1 }

/-- `WCACHE[HASH(px)] <- px` (R146, R155). -/
def Work.remember (wk : Work) (hashOf : Px → Slot) (px : Px) : Work :=
  { wk with wcache := cacheWrite wk.wcache (hashOf px) px }

/-- n pixels of a RUN, each equal to its own prediction (R176, R205); none where a prediction does not exist. -/
def Work.emitRun (wk : Work) : Nat → Option Work
  | 0 => some wk
  | n + 1 => wk.pred.bind fun px => (wk.emit1 px).emitRun n

/-- The bytes of an instruction emitted to OUT (R39, R148). -/
def Work.emit (wk : Work) (i : Instr) : Work := { wk with out := wk.out.emit (encode i) }

/-- Whether the command in progress decodes opcodes and still has a pixel to produce (R150, R152). -/
def Work.walking (wk : Work) : Bool :=
  match wk.phase with
  | .imageUnit => decide (wk.i < wk.npx)
  | .frameUnit _ => decide (wk.i < wk.npx)
  | .idle => false
  | .imageHeader => false
  | .containerHeader _ _ => false
  | .frameTag _ => false
  | .encImage => false
  | .encFrame _ => false

/-- The start of a coding unit: PREV, RUN, I and OUT take their start values, and the rest is as the unit gives it
(R35, R131, R343). -/
def Work.startUnit (wk : Work) (phase : Phase) (kind : FrameKind) (ptr endp : Nat) (cache : Cache)
    (ref : Option Memory) : Work :=
  { wk with phase, kind, ptr, endp, ref, wcache := cache, prev := Px.start, run := 0, i := 0, out := [] }

/-! ### Results and the abort -/

/-- A command returns a result to the host, and its working registers end with it (R21, R40). -/
def State.finish (s : State) (r : Result) : State :=
  { s with work := Work.idle, io := { s.io with results := s.io.results ++ [r] } }

/-- THE ABORT (R310), the only trap of the core: the error result is returned in place of the command's results, the
instance state keeps its value, and the working registers are discarded.  No state is saved and no handler runs,
so there is nothing to return to and no return operation: the host goes on with its next command (R315). -/
def State.abort (s : State) (code : ErrorCode) (info : Option Nat) : State := s.finish (.error ⟨code, info⟩)

/-- The class of an error code (R301). -/
def ErrorCode.errorClass : ErrorCode → ErrorClass
  | .badMagic => .formatError
  | .truncatedHeader => .formatError
  | .badChannels => .formatError
  | .badColorspace => .formatError
  | .badHeaderSize => .formatError
  | .truncatedOffsetTable => .formatError
  | .badOffsets => .formatError
  | .truncatedStream => .formatError
  | .badFrameTag => .formatError
  | .noReference => .sequenceError
  | .notOpen => .sequenceError
  | .bufferLength => .sizeMismatch
  | .tooLarge => .sizeMismatch
  | .badConfig => .sizeMismatch

/-- The number of an error code (R301). -/
def ErrorCode.value : ErrorCode → Byte
  | .badMagic => 0x10
  | .truncatedHeader => 0x11
  | .badChannels => 0x12
  | .badColorspace => 0x13
  | .badHeaderSize => 0x14
  | .truncatedOffsetTable => 0x15
  | .badOffsets => 0x16
  | .truncatedStream => 0x17
  | .badFrameTag => 0x18
  | .noReference => 0x20
  | .notOpen => 0x21
  | .bufferLength => 0x30
  | .tooLarge => 0x31
  | .badConfig => 0x32

/-- The error result as the host sees it: the triple (class, code, information) (R301). -/
def ErrorRec.triple (e : ErrorRec) : ErrorClass × Byte × Option Nat := (e.code.errorClass, e.code.value, e.info)

/-- TRUNCATED_STREAM at the opcode that could not be read: its position PTR, from the start of the blob for a frame
(R151, R210, R301). -/
def State.abortTruncated (s : State) : State := s.abort .truncatedStream (some (s.work.base + s.work.ptr))

/-- One opcode of n bytes that produces one pixel: the bounds check (R151), the pixel, its cache write where the
opcode makes one (R155), and PTR past the opcode (R152).  `px` is the pixel reconstructed, none where the
prediction it needs does not exist. -/
def State.onePixel (s : State) (n : Nat) (writes : Bool) (px : Option Px) : Host.Outcome State Fault Refusal :=
  if s.work.walking then
    if s.work.ptr + n ≤ s.work.endp then
      match px with
      | none => .fault .absentReference
      | some p =>
        let wk := if writes then s.work.remember s.hash p else s.work
        .next { s with work := { wk.emit1 p with ptr := s.work.ptr + n } }
    else .next s.abortTruncated
  else .refused .tokenOutOfPlace

/-! ### The ByteRangeSource -/

/-- `readPrefix(n)` (R330): the first n bytes of the source, or all of it.  A reply the host has queued is taken as
given in place of the source's bytes (V3). -/
def State.readPrefix (s : State) (src : Source) (n : Nat) : List Byte × State :=
  match s.io.replies with
  | [] => (src.bytes.take n, s)
  | r :: rs => (r, { s with io := { s.io with replies := rs } })

/-- `readRange(a, b)` (R330): the bytes of positions a to b - 1, or fewer where the source ends first. -/
def State.readRange (s : State) (src : Source) (a b : Nat) : List Byte × State :=
  match s.io.replies with
  | [] => ((src.bytes.drop a).take (b - a), s)
  | r :: rs => (r, { s with io := { s.io with replies := rs } })

end Sys2Proof.Machine
end

