-- ==== Sys2Proof/Machine/Framing.lean ====
section
/-! DEFINITION. What the decoder does at each framing token: the single-image header and terminator
(spec/40_pixel_codec.md R161, R154), the frame tag (spec/42_frame_predictor.md R210), the container header
(spec/43_container.md R260 to R263), and the end of a frame, which has no token (R211, R274). -/

namespace Sys2Proof.Machine

/-- `.qoif w, h, ch, cs`: the checks of R161 that follow the magic, then the coding unit starts at position 14 with
the terminator outside its region (R150, R161). -/
def execQoif (w h : Word) (ch cs : Byte) (s : State) : Host.Outcome State Fault Refusal :=
  match s.work.phase with
  | .imageHeader =>
    if channelsLegal ch = false then .next (s.abort .badChannels (some 12))
    else if colorspaceLegal cs = false then .next (s.abort .badColorspace (some 13))
    else if s.work.inp.size < Config.imageHeaderBytes + Config.terminatorBytes then
      .next (s.abort .truncatedStream (some s.work.inp.size))
    else if pixelCount w h > s.maxPixels then .next (s.abort .tooLarge none)
    else .next { s with work := { s.work with w, h, ch, cs }.startUnit .imageUnit .intra Config.imageHeaderBytes
                          (s.work.inp.size - Config.terminatorBytes) Cache.zero none }
  | .idle | .imageUnit | .containerHeader _ _ | .frameTag _ | .frameUnit _ | .encImage | .encFrame _ =>
    .refused .tokenOutOfPlace

/-- `.end`: the terminator of a single image.  Reached with every pixel produced, the command returns its image
(R153, R161); reached at the end of the region with pixels missing, it raises TRUNCATED_STREAM (R151; log entry 18). -/
def execTerminator (s : State) : Host.Outcome State Fault Refusal :=
  match s.work.phase with
  | .imageUnit =>
    if s.work.npx ≤ s.work.i then
      .next (s.finish (.decodedImage s.work.w s.work.h s.work.ch s.work.cs s.work.out.toBytes))
    else if s.work.endp ≤ s.work.ptr then .next s.abortTruncated
    else .refused .tokenOutOfPlace
  | .idle | .imageHeader | .containerHeader _ _ | .frameTag _ | .frameUnit _ | .encImage | .encFrame _ =>
    .refused .tokenOutOfPlace

/-- `.frame intra`: the unit starts from a reset cache and reads no reference (R202, R210). -/
def execFrameIntra (s : State) : Host.Outcome State Fault Refusal :=
  match s.work.phase with
  | .frameTag caller =>
    .next { s with work := s.work.startUnit (.frameUnit caller) .intra 1 s.work.inp.size Cache.zero none }
  | .idle | .imageHeader | .imageUnit | .containerHeader _ _ | .frameUnit _ | .encImage | .encFrame _ =>
    .refused .tokenOutOfPlace

/-- The frame index NO_REFERENCE records for a decoded frame: DEC.NEXT for DEC_NEXT, none for DEC_FRAME (R301). -/
def State.frameIndex (s : State) : FrameCaller → Option Nat
  | .session d => (s.decAt d).map fun dec => dec.next.toNat
  | .perFrame => none

/-- `.frame pred`: the unit starts from the carried cache and reads the reference (R203, R204, R210); without a
resident reference it raises NO_REFERENCE (R207). -/
def execFramePred (s : State) : Host.Outcome State Fault Refusal :=
  match s.work.phase with
  | .frameTag caller =>
    if resident s.work.ref then
      .next { s with work := s.work.startUnit (.frameUnit caller) .predictive 1 s.work.inp.size s.work.wcache
                        s.work.ref }
    else .next (s.abort .noReference (s.frameIndex caller))
  | .idle | .imageHeader | .imageUnit | .containerHeader _ _ | .frameUnit _ | .encImage | .encFrame _ =>
    .refused .tokenOutOfPlace

/-- The lowest bad offset (R262).  `k` is the number of the first offset of the list and `low` the least value it
may have: HS for offset 0, one more than the offset before for the others. -/
def firstBadOffset (len : Nat) : Nat → Nat → List Word → Option Nat
  | _, _, [] => none
  | k, low, o :: rest =>
    if o.toNat < low ∨ (rest = [] ∧ len ≤ o.toNat) then some k
    else firstBadOffset len (k + 1) (o.toNat + 1) rest

/-- `.qov1`: the checks of R260 in their order, then the commit of R263. -/
def execQov1 (hs w h fr : Word) (ch : Byte) (n : Word) (offs : List Word) (s : State) :
    Host.Outcome State Fault Refusal :=
  match s.work.phase with
  | .containerHeader d src =>
    if hs.toNat < Config.containerFixedBytes then .next (s.abort .badHeaderSize (some 4))
    else if channelsLegal ch = false then .next (s.abort .badChannels (some 20))
    else if hs.toNat ≠ Config.containerFixedBytes + 4 * n.toNat then .next (s.abort .badHeaderSize (some 4))
    else
      match firstBadOffset src.len 0 hs.toNat offs with
      | some k => .next (s.abort .badOffsets (some (Config.containerFixedBytes + 4 * k)))
      | none =>
        if pixelCount w h > s.maxPixels then .next (s.abort .tooLarge none)
        else
          match s.decAt d with
          | none => .fault .absentInstance
          | some _ =>
            let dec : Dec := { mode := .opened, w, h, ch, fr, n, hs, off := offs, len := src.len, src := some src,
                               next := 0, cache := Cache.zero, ref := none }
            .next ((s.putDec d (some dec)).finish (.opened w h ch fr n))
  | .idle | .imageHeader | .imageUnit | .frameTag _ | .frameUnit _ | .encImage | .encFrame _ =>
    .refused .tokenOutOfPlace

/-- The end of a decoded frame, which no token marks (R153, R214): DEC_NEXT commits the final cache, the decoded
buffer as the new reference and the next frame (R211, R274); DEC_FRAME returns them and writes no instance state
(R279). -/
def commitFrame (caller : FrameCaller) (s : State) : Host.Outcome State Fault Refusal :=
  match caller with
  | .session d =>
    match s.decAt d with
    | none => .fault .absentInstance
    | some dec =>
      let dec' := { dec with cache := s.work.wcache, ref := some s.work.out, next := dec.next + 1 }
      .next ((s.putDec d (some dec')).finish (.pixels s.work.out.toBytes))
  | .perFrame => .next (s.finish (.decodedFrame s.work.wcache s.work.out.toBytes s.work.out.toBytes))

end Sys2Proof.Machine
end

