-- ==== Sys2Proof/Machine/Opcodes.lean ====
section
/-! DEFINITION. The decode rules of the six opcodes (spec/41_opcodes.md R170, R172, R174, R176, R178, R180, R182). -/

namespace Sys2Proof.Machine

/-- INDEX k: the pixel of slot k, whatever the prediction; the cache is not written (R170). -/
def execIndex (k : Slot) (s : State) : Host.Outcome State Fault Refusal :=
  s.onePixel 1 false (some (cacheRead s.work.wcache k))

/-- DIFF dr dg db: each colour channel of the prediction moved by its delta modulo 256 (R172). -/
def execDiff (dr dg db : Int) (s : State) : Host.Outcome State Fault Refusal :=
  s.onePixel 1 true (s.work.pred.map (diffPixel dr dg db))

/-- LUMA dg drg dbg: all colour channels moved by dg, red and blue by drg and dbg more (R174). -/
def execLuma (dg drg dbg : Int) (s : State) : Host.Outcome State Fault Refusal :=
  s.onePixel 2 true (s.work.pred.map (lumaPixel dg drg dbg))

/-- RUN n: n pixels equal to their predictions, or as many as the unit has left (R176, R182). -/
def execRun (n : Nat) (s : State) : Host.Outcome State Fault Refusal :=
  if s.work.walking then
    if s.work.ptr + 1 ≤ s.work.endp then
      match s.work.emitRun (min n (s.work.npx - s.work.i)) with
      | none => .fault .absentReference
      | some wk => .next { s with work := { wk with ptr := s.work.ptr + 1 } }
    else .next s.abortTruncated
  else .refused .tokenOutOfPlace

/-- RGB r g b: the literal colour with the prediction's alpha (R178). -/
def execRgb (r g b : Byte) (s : State) : Host.Outcome State Fault Refusal :=
  s.onePixel 4 true (s.work.pred.map (rgbPixel r g b))

/-- RGBA r g b a: the literal pixel, in a 3-channel unit too (R180). -/
def execRgba (r g b a : Byte) (s : State) : Host.Outcome State Fault Refusal :=
  s.onePixel 5 true (some ⟨r, g, b, a⟩)

end Sys2Proof.Machine
end

