-- ==== Sys2Proof/Machine/Dispatch.lean ====
section
/-! DEFINITION. One arm per instruction of the opcode table. -/

namespace Sys2Proof.Machine

/-- The meaning of an instruction in a state: what the decoder does at that token. -/
def exec (i : Instr) (s : State) : Host.Outcome State Fault Refusal :=
  match i with
  | .index k => Sys2Proof.Machine.execIndex k s
  | .diff dr dg db => Sys2Proof.Machine.execDiff dr dg db s
  | .luma dg drg dbg => Sys2Proof.Machine.execLuma dg drg dbg s
  | .run n => Sys2Proof.Machine.execRun n s
  | .rgb r g b => Sys2Proof.Machine.execRgb r g b s
  | .rgba r g b a => Sys2Proof.Machine.execRgba r g b a s
  | .frameIntra => Sys2Proof.Machine.execFrameIntra s
  | .framePred => Sys2Proof.Machine.execFramePred s
  | .qoif w h ch cs => Sys2Proof.Machine.execQoif w h ch cs s
  | .terminator => Sys2Proof.Machine.execTerminator s
  | .qov1 hs w h fr ch n offs => Sys2Proof.Machine.execQov1 hs w h fr ch n offs s

end Sys2Proof.Machine
end

