-- ==== Sys2Proof/Machine/Encoder.lean ====
section
/-! DEFINITION. The encoder's walk, one pixel at a time (spec/40_pixel_codec.md R142 to R148, and the encode rules of
spec/41_opcodes.md), and the end of an encoding command (R160; spec/43_container.md R251, R253). -/

namespace Sys2Proof.Machine

/-- A pending run of RUN pixels emitted as one RUN opcode (R143, R144). -/
def Work.flushRun (wk : Work) : Work := { wk.emit (.run wk.run) with run := 0 }

/-- A pixel equal to its prediction: it joins the run, which is flushed at 62 pixels and at the unit's last pixel
(R142, R143). -/
def Work.absorb (wk : Work) : Work :=
  let wk' := { wk with run := wk.run + 1 }
  if wk.run + 1 = Config.runMax ∨ wk.i + 1 = wk.npx then wk'.flushRun else wk'

/-- A pixel unequal to its prediction: the pending run is flushed, then the opcode of R145 is emitted and the cache
written unless it is INDEX (R144 to R146). -/
def Work.codePixel (wk : Work) (hashOf : Px → Slot) (pred cur : Px) : Work :=
  let wk' := if 0 < wk.run then wk.flushRun else wk
  { wk'.emit (selectOpcode hashOf wk.wcache pred cur) with wcache := cacheAfter hashOf wk.wcache cur }

/-- One pixel of the encoder's walk (R142 to R147). -/
def Work.encodePixel (wk : Work) (hashOf : Px → Slot) (pred cur : Px) : Work :=
  let wk' := if cur = pred then wk.absorb else wk.codePixel hashOf pred cur
  { wk' with prev := cur, i := wk.i + 1 }

/-- The encoder codes pixel I of the input buffer (R140, R148). -/
def encodeStep (s : State) : Host.Outcome State Fault Refusal :=
  match s.work.inp.readPixel s.work.ch s.work.i with
  | none => .fault .absentInput
  | some cur =>
    match s.work.pred with
    | none => .fault .absentReference
    | some pr => .next { s with work := s.work.encodePixel s.hash pr cur }

/-- The end of ENCODE_IMAGE: header, opcode stream, terminator (R160). -/
def finishImage (s : State) : Host.Outcome State Fault Refusal :=
  .next (s.finish (.image (encode (.qoif s.work.w s.work.h s.work.ch s.work.cs) ++ s.work.out.toBytes
    ++ encode .terminator)))

/-- The frame of a finished coding unit: its tag and its opcode payload (R201, R209). -/
def Work.frameBytes (wk : Work) : List Byte :=
  (match wk.kind with
   | .intra => encode .frameIntra
   | .predictive => encode .framePred) ++ wk.out.toBytes

/-- The length of the blob ENC_FLUSH would build from these frames (R251, R253). -/
def blobLength (frames : List (List Byte)) : Nat :=
  Config.containerFixedBytes + 4 * frames.length + (frames.map List.length).sum

/-- The end of ENC_FRAME of encoder e: the size check of R255, then the commit of R211 and R251. -/
def finishFrame (e : Nat) (s : State) : Host.Outcome State Fault Refusal :=
  match s.encAt e with
  | none => .fault .absentInstance
  | some enc =>
    let frames := enc.frames ++ [s.work.frameBytes]
    if blobLength frames > Config.blobMax then .next (s.abort .tooLarge none)
    else
      let enc' := { enc with cache := s.work.wcache, ref := some s.work.inp, frames }
      .next ((s.putEnc e (some enc')).finish (.frame s.work.frameBytes))

/-- The offsets of frames that follow one another from position `o` on (R253). -/
def frameOffsets : Nat → List (List Byte) → List Word
  | _, [] => []
  | o, f :: fs => BitVec.ofNat 32 o :: frameOffsets (o + f.length) fs

/-- The header size of a container of n frames (R234). -/
def headerSize (n : Nat) : Nat := Config.containerFixedBytes + 4 * n

/-- The container header token of the encoder's session (R230, R253). -/
def Enc.header (e : Enc) : Instr :=
  .qov1 (BitVec.ofNat 32 (headerSize e.frames.length)) e.w e.h e.fr e.ch (BitVec.ofNat 32 e.frames.length)
    (frameOffsets (headerSize e.frames.length) e.frames)

/-- The blob: the header, then the frames in append order (R253). -/
def Enc.blob (e : Enc) : List Byte := encode e.header ++ e.frames.flatten

end Sys2Proof.Machine
end

