-- ==== Sys2Proof/Machine/Commands.lean ====
section
/-! DEFINITION. The start of each host command: its checks in the order of spec/60_exceptions.md R313, then its
effect, or the working registers from which the walk goes on (spec/40_pixel_codec.md R160, R161;
spec/43_container.md R250 to R252, R260; spec/44_sequential_decoder.md R271, R276, R279). -/

namespace Sys2Proof.Machine

/-- ENCODE_IMAGE (R160). -/
def issueEncodeImage (w h : Word) (ch cs : Byte) (pixels : List Byte) (s : State) :
    Host.Outcome State Fault Refusal :=
  if channelsLegal ch = false ∨ colorspaceLegal cs = false then .next (s.abort .badConfig none)
  else if pixels.length ≠ bufferLength w h ch then .next (s.abort .bufferLength (some pixels.length))
  else if pixelCount w h > s.maxPixels then .next (s.abort .tooLarge none)
  else .next { s with work := { Work.idle with phase := .encImage, w, h, ch, cs, inp := Memory.ofBytes pixels } }

/-- DECODE_IMAGE (R161): the header token stands next. -/
def issueDecodeImage (bytes : List Byte) (s : State) : Host.Outcome State Fault Refusal :=
  .next { s with work := { Work.idle with phase := .imageHeader, inp := Memory.ofBytes bytes } }

/-- ENC_BEGIN (R250). -/
def issueEncBegin (e : Nat) (w h : Word) (ch : Byte) (fr : Word) (s : State) : Host.Outcome State Fault Refusal :=
  s.onEnc e fun _ =>
    if channelsLegal ch = false then .next (s.abort .badConfig none)
    else if pixelCount w h > s.maxPixels then .next (s.abort .tooLarge none)
    else
      let enc : Enc := { mode := .opened, w, h, ch, fr, cache := Cache.zero, ref := none, frames := [] }
      .next ((s.putEnc e (some enc)).finish .ok)

/-- ENC_FRAME (R251): the checks, then the coding unit of the frame's kind (R202, R203, R209). -/
def issueEncFrame (e : Nat) (kind : FrameKind) (pixels : List Byte) (s : State) : Host.Outcome State Fault Refusal :=
  s.onEnc e fun enc =>
    if enc.isOpen = false then .next (s.abort .notOpen none)
    else if pixels.length ≠ bufferLength enc.w enc.h enc.ch then .next (s.abort .bufferLength (some pixels.length))
    else if kind = .predictive ∧ resident enc.ref = false then
      .next (s.abort .noReference (some enc.frames.length))
    else
      let wk := { Work.idle with phase := .encFrame e, w := enc.w, h := enc.h, ch := enc.ch,
                                 inp := Memory.ofBytes pixels }
      match kind with
      | .intra => .next { s with work := { wk with kind := .intra, wcache := Cache.zero, ref := none } }
      | .predictive => .next { s with work := { wk with kind := .predictive, wcache := enc.cache, ref := enc.ref } }

/-- ENC_FLUSH (R252, R254). -/
def issueEncFlush (e : Nat) (s : State) : Host.Outcome State Fault Refusal :=
  s.onEnc e fun enc =>
    if enc.isOpen = false then .next (s.abort .notOpen none)
    else .next ((s.putEnc e (some Enc.reset)).finish (.blob enc.blob))

/-- Whether phase 1 of DEC_OPEN leads on to phase 2, and then how many bytes it asks for (R260). -/
def phase2Size (b1 : List Byte) : Option Nat :=
  if 8 ≤ b1.length ∧ b1.take 4 = magicQov1 ∧ Config.containerFixedBytes ≤ (u32At b1 4).toNat then
    some (u32At b1 4).toNat
  else none

/-- DEC_OPEN (R260): the two reads of the source; the header token stands next. -/
def issueDecOpen (d : Nat) (src : Source) (s : State) : Host.Outcome State Fault Refusal :=
  s.onDec d fun _ =>
    let (b1, s1) := s.readPrefix src 8
    match phase2Size b1 with
    | none => .next { s1 with work := { Work.idle with phase := .containerHeader d src, pre := b1 } }
    | some hs =>
      let (b2, s2) := s1.readPrefix src hs
      .next { s2 with work := { Work.idle with phase := .containerHeader d src, pre := b1, inp := Memory.ofBytes b2 } }

/-- The end of the span of frame k: the next offset, or the end of the blob for the last frame (R235, R271). -/
def Dec.spanEnd (d : Dec) (k : Nat) : Option Nat :=
  if k + 1 < d.n.toNat then (d.off[k + 1]?).map BitVec.toNat else some d.len

/-- The working registers of a frame decode whose tag stands next: the frame's bytes, the position of its first byte
in the blob, its dimensions, and the carried state (CACHE, REF) (R210). -/
def frameWork (caller : FrameCaller) (frame : List Byte) (base : Nat) (w h : Word) (ch : Byte) (cache : Cache)
    (ref : Option Memory) : Work :=
  { Work.idle with phase := .frameTag caller, inp := Memory.ofBytes frame, base, w, h, ch, wcache := cache, ref }

/-- DEC_NEXT (R271): END when exhausted, else the fetch of the frame's span; the tag stands next. -/
def issueDecNext (d : Nat) (s : State) : Host.Outcome State Fault Refusal :=
  s.onDec d fun dec =>
    if dec.isOpen = false then .next (s.abort .notOpen none)
    else if dec.isExhausted then .next (s.finish .endOfStream)
    else
      match dec.src with
      | none => .fault .absentSource
      | some src =>
        match dec.off[dec.next.toNat]?, dec.spanEnd dec.next.toNat with
        | some a, some b =>
          let (frame, s1) := s.readRange src a.toNat b
          if frame.length < b - a.toNat then .next (s1.abort .truncatedStream (some (a.toNat + frame.length)))
          else .next { s1 with work := frameWork (.session d) frame a.toNat dec.w dec.h dec.ch dec.cache dec.ref }
        | _, _ => .fault .absentOffset

/-- DEC_RESTART (R276). -/
def issueDecRestart (d : Nat) (s : State) : Host.Outcome State Fault Refusal :=
  s.onDec d fun dec =>
    if dec.isOpen = false then .next (s.abort .notOpen none)
    else .next ((s.putDec d (some { dec with next := 0, cache := Cache.zero, ref := none })).finish .ok)

/-- Whether the arguments of DEC_FRAME are well formed (R279). -/
def frameArgumentsLegal (ref : Option (List Byte)) (w h : Word) (ch : Byte) : Bool :=
  channelsLegal ch && ref.all fun r => r.length == bufferLength w h ch

/-- DEC_FRAME (R279): the pure per-frame command on the state (CACHE, REF) it is given. -/
def issueDecFrame (cache : Cache) (ref : Option (List Byte)) (w h : Word) (ch : Byte) (frame : List Byte)
    (s : State) : Host.Outcome State Fault Refusal :=
  if frameArgumentsLegal ref w h ch then
    .next { s with work := frameWork .perFrame frame 0 w h ch cache (ref.map Memory.ofBytes) }
  else .refused .badFrameArguments

/-- One command issued while none is in progress (R74, R335). -/
def issue (c : Command) (s : State) : Host.Outcome State Fault Refusal :=
  match c with
  | .encodeImage w h ch cs pixels => issueEncodeImage w h ch cs pixels s
  | .decodeImage bytes => issueDecodeImage bytes s
  | .encBegin e w h ch fr => issueEncBegin e w h ch fr s
  | .encFrame e kind pixels => issueEncFrame e kind pixels s
  | .encFlush e => issueEncFlush e s
  | .decOpen d src => issueDecOpen d src s
  | .decNext d => issueDecNext d s
  | .decRestart d => issueDecRestart d s
  | .decFrame cache ref w h ch frame => issueDecFrame cache ref w h ch frame s
  | .other _ => .refused .unknownCommand

/-- The host's next action taken from the queue; with none queued the core stays as it is (R74, R340; DESIGN CHOICE,
log entries 14 and 16).  A new instance takes the number after the last one given. -/
def hostStep (s : State) : Host.Outcome State Fault Refusal :=
  match s.io.pending with
  | [] => .next s
  | action :: rest =>
    let s1 : State := { s with io := { s.io with pending := rest } }
    match action with
    | .issue c => issue c s1
    | .newEncoder => .next { s1 with encs := s1.encs ++ [some Enc.reset] }
    | .newDecoder => .next { s1 with decs := s1.decs ++ [some Dec.reset] }
    | .discardEncoder e => s1.onEnc e fun _ => .next (s1.putEnc e none)
    | .discardDecoder d => s1.onDec d fun _ => .next (s1.putDec d none)

end Sys2Proof.Machine
end

