-- ==== Sys2Proof/Machine/Fetch.lean ====
section
/-! DEFINITION. Reading the token that stands next for the command in progress (spec/40_pixel_codec.md R150 to R152,
R161; spec/42_frame_predictor.md R210; spec/43_container.md R260), and placing a token there. -/

namespace Sys2Proof.Machine

/-- The length of the longest opcode (R90). -/
def longestOpcode : Nat := 5

/-- The bytes of the opcode region from PTR on, as far as one opcode can reach (R151). -/
def Work.opcodeWindow (wk : Work) : List Byte := wk.inp.readBytes wk.ptr (min longestOpcode (wk.endp - wk.ptr))

/-- The token that stands next, by the place the command in progress has reached; none where no token is read. -/
def Work.fetch (wk : Work) : Option (Except DecodeError Instr) :=
  match wk.phase with
  | .idle => none
  | .imageHeader => some (decodeImageHeader (wk.inp.readBytes 0 Config.imageHeaderBytes))
  | .imageUnit => some (decodeOpcode wk.opcodeWindow)
  | .containerHeader _ _ => some (decodeContainerHeader wk.pre wk.inp.toBytes)
  | .frameTag _ => some (decodeTag (wk.inp.readBytes 0 1))
  | .frameUnit _ => some (decodeOpcode wk.opcodeWindow)
  | .encImage => none
  | .encFrame _ => none

/-- The error a command raises when the token that stands next cannot be read, and the position it records (R301). -/
def Work.fetchError (wk : Work) : DecodeError → ErrorRec
  | .truncatedOpcode => ⟨.truncatedStream, some (wk.base + wk.ptr)⟩
  | .emptyFrame => ⟨.truncatedStream, some wk.base⟩
  | .badTag => ⟨.badFrameTag, some wk.base⟩
  | .truncatedHeader n => ⟨.truncatedHeader, some n⟩
  | .badMagic => ⟨.badMagic, some 0⟩
  | .truncatedTable n => ⟨.truncatedOffsetTable, some n⟩
  | .notTerminator => ⟨.truncatedStream, some (wk.base + wk.ptr)⟩

/-- The working registers of a coding unit of 62 pixels in one row whose first opcode stands at position 14, as in
a single image (R150). -/
def Work.freshUnit (bs : List Byte) : Work :=
  { Work.idle with phase := .imageUnit, w := 62, h := 1, ch := 4, ptr := Config.imageHeaderBytes,
                   endp := Config.imageHeaderBytes + bs.length,
                   inp := Memory.ofBytesAt Config.imageHeaderBytes bs }

/-- The bytes of one opcode placed at PTR of the unit in progress, or of a fresh unit where none is being decoded. -/
def Work.placeOpcode (wk : Work) (bs : List Byte) : Work :=
  if wk.walking then { wk with inp := wk.inp.writeBytes wk.ptr bs, endp := max wk.endp (wk.ptr + bs.length) }
  else Work.freshUnit bs

/-- A frame placed for the frame command in progress, or for a DEC_FRAME of one RGBA pixel with no reference. -/
def Work.placeTag (wk : Work) (bs : List Byte) : Work :=
  match wk.phase with
  | .frameTag _ => { wk with inp := Memory.ofBytes bs }
  | .idle | .imageHeader | .imageUnit | .containerHeader _ _ | .frameUnit _ | .encImage | .encFrame _ =>
    { Work.idle with phase := .frameTag .perFrame, w := 1, h := 1, ch := 4, inp := Memory.ofBytes bs }

/-- The token of a place, its bytes laid where the next step reads them. -/
def Work.placeToken (wk : Work) (place : Place) (bs : List Byte) : Work :=
  match place with
  | .opcode => wk.placeOpcode (bs.take longestOpcode)
  | .tag => wk.placeTag bs
  | .image => { Work.idle with phase := .imageHeader, inp := Memory.ofBytes bs }
  | .container =>
    { Work.idle with phase := .containerHeader 0 ⟨bs, bs.length⟩, pre := bs.take 8, inp := Memory.ofBytes bs }
  | .terminator => { Work.freshUnit bs with w := 0, endp := Config.imageHeaderBytes }

end Sys2Proof.Machine
end

