-- ==== Sys2Proof/Machine/Step.lean ====
section
/-! DEFINITION. One step of the core.  A command of the host is a sequence of steps: its start, then one step per
token the decoder reads or per pixel the encoder codes, then its end (log entry 4). -/

namespace Sys2Proof.Machine

/-- The token that stands next is read and run; one that cannot be read aborts the command. -/
def tokenStep (s : State) : Host.Outcome State Fault Refusal :=
  match s.work.fetch with
  | none => .refused .tokenOutOfPlace
  | some (.error e) => .next (s.finish (.error (s.work.fetchError e)))
  | some (.ok i) => exec i s

/-- One step.  A unit ends as soon as its last pixel is produced (R153): a single image then reaches its terminator,
whose bytes are not read (R154), and a frame is committed (R211). -/
def step (s : State) : Host.Outcome State Fault Refusal :=
  match s.work.phase with
  | .idle => hostStep s
  | .imageHeader => tokenStep s
  | .imageUnit => if s.work.i < s.work.npx then tokenStep s else exec .terminator s
  | .containerHeader _ _ => tokenStep s
  | .frameTag _ => tokenStep s
  | .frameUnit caller => if s.work.i < s.work.npx then tokenStep s else commitFrame caller s
  | .encImage => if s.work.i < s.work.npx then encodeStep s else finishImage s
  | .encFrame e => if s.work.i < s.work.npx then encodeStep s else finishFrame e s

/-- The state with one word of the opcode table placed where the next step reads its token (log entry 8). -/
def State.withFetchWord (s : State) (nbits w : Nat) : State :=
  { s with work := s.work.placeToken (tablePlace nbits w) (tableBytes nbits w) }

end Sys2Proof.Machine
end

