-- ==== Sys2Proof/Safety.lean ====
section
/-! DEFINITION. What a good state is, in the terms the claims use: the relations between the state elements that
spec/10_state.md R22 to R40 and spec/42_frame_predictor.md R213 give, and the canonical form of every byte space. -/

namespace Sys2Proof.Machine

/-- A byte space that holds exactly the positions 0 .. n-1 (R72). -/
def Memory.Full (m : Memory) (n : Nat) : Prop := ∃ bs : List Byte, bs.length = n ∧ m = Memory.ofBytes bs

/-- Every byte space of the state is in canonical form. -/
def State.MemoryWf (s : State) : Prop :=
  s.work.inp.wf ∧ s.work.out.wf ∧ (∀ r, s.work.ref = some r → r.wf) ∧
    (∀ e enc r, s.encAt e = some enc → enc.ref = some r → r.wf) ∧
    (∀ d dec r, s.decAt d = some dec → dec.ref = some r → r.wf)

/-- An encoder instance: every element at its reset value while IDLE (R22, R254); while OPEN a legal configuration,
a reference of the session's dimensions exactly when a frame has been appended, and frames whose blob can be
represented (R25, R213, R255). -/
structure Enc.Good (maxPixels : Nat) (e : Enc) : Prop where
  idle : e.mode = .idle → e = Enc.reset
  channels : e.mode = .opened → channelsLegal e.ch = true
  pixels : e.mode = .opened → pixelCount e.w e.h ≤ maxPixels
  reference : ∀ r, e.ref = some r → r.Full (bufferLength e.w e.h e.ch)
  resident : e.ref = none ↔ e.frames = []
  tagged : ∀ f ∈ e.frames, f ≠ []
  blob : blobLength e.frames ≤ Config.blobMax

/-- A decoder instance: every element at its reset value while CLOSED (R26); while OPEN a header that parses
(R28, R262), and the Fresh and Positioned states as R29 gives them. -/
structure Dec.Good (maxPixels : Nat) (d : Dec) : Prop where
  closed : d.mode = .closed → d = Dec.reset
  channels : d.mode = .opened → channelsLegal d.ch = true
  pixels : d.mode = .opened → pixelCount d.w d.h ≤ maxPixels
  size : d.mode = .opened → d.hs.toNat = Config.containerFixedBytes + 4 * d.n.toNat
  table : d.mode = .opened → d.off.length = d.n.toNat
  offsets : d.mode = .opened → firstBadOffset d.len 0 d.hs.toNat d.off = none
  source : d.mode = .opened → ∃ src, d.src = some src ∧ src.len = d.len
  next : d.next.toNat ≤ d.n.toNat
  fresh : d.next = 0 → d.ref = none ∧ d.cache = Cache.zero
  positioned : d.next ≠ 0 → ∃ r, d.ref = some r ∧ r.Full (bufferLength d.w d.h d.ch)

/-- A coding unit in progress: a legal channel count, the pixel index within the unit (R38), and in a PRED unit a
reference of the unit's dimensions (R207, R213). -/
structure Work.UnitGood (wk : Work) : Prop where
  channels : channelsLegal wk.ch = true
  index : wk.i ≤ wk.npx
  reference : wk.kind = .predictive → ∃ r, wk.ref = some r ∧ r.Full (bufferLength wk.w wk.h wk.ch)
  input : ∃ bs, wk.inp = Memory.ofBytes bs

/-- A unit being decoded: the pixels produced so far fill the output buffer (R39, R141). -/
structure Work.DecodeGood (wk : Work) : Prop extends Work.UnitGood wk where
  output : wk.out.Full (wk.i * wk.ch.toNat)

/-- A unit being encoded: a whole input buffer (R140), a run below 62 (R37) that is empty at the end of the unit
(R148), and output bytes without a gap. -/
structure Work.EncodeGood (wk : Work) : Prop extends Work.UnitGood wk where
  buffer : wk.inp.Full (bufferLength wk.w wk.h wk.ch)
  run : wk.run < Config.runMax
  flushed : wk.i = wk.npx → wk.run = 0
  output : ∃ bs, wk.out = Memory.ofBytes bs

/-- The decoder session a frame belongs to: open, with a frame left, and of the unit's dimensions (R271). -/
def Dec.Serves (d : Dec) (wk : Work) : Prop :=
  d.mode = .opened ∧ d.next.toNat < d.n.toNat ∧ wk.w = d.w ∧ wk.h = d.h ∧ wk.ch = d.ch

/-- The unit in progress belongs to the session of the decoder its command addresses, where it addresses one. -/
def FrameCaller.Served (s : State) (caller : FrameCaller) : Prop :=
  ∀ d, caller = .session d → ∃ dec, s.decAt d = some dec ∧ dec.Serves s.work

/-- The working registers of the command in progress, and the instance it addresses (R20). -/
def Work.Good (s : State) : Prop :=
  match s.work.phase with
  | .idle => s.work = Work.idle
  | .imageHeader => ∃ bs, s.work = { Work.idle with phase := .imageHeader, inp := Memory.ofBytes bs }
  | .containerHeader d src =>
    (∃ b1 b2, s.work = { Work.idle with phase := .containerHeader d src, pre := b1, inp := Memory.ofBytes b2 }) ∧
      ∃ dec, s.decAt d = some dec
  | .frameTag caller =>
    channelsLegal s.work.ch = true ∧ (∃ bs, s.work.inp = Memory.ofBytes bs) ∧
      (∀ r, s.work.ref = some r → r.Full (bufferLength s.work.w s.work.h s.work.ch)) ∧
      (∀ d, caller = .session d → ∃ dec, s.decAt d = some dec ∧ dec.Serves s.work ∧ s.work.wcache = dec.cache ∧
        s.work.ref = dec.ref)
  | .imageUnit =>
    s.work.DecodeGood ∧ s.work.kind = .intra ∧ s.work.npx ≤ s.maxPixels ∧ colorspaceLegal s.work.cs = true
  | .frameUnit caller => s.work.DecodeGood ∧ caller.Served s
  | .encImage => s.work.EncodeGood ∧ s.work.kind = .intra ∧ s.work.npx ≤ s.maxPixels
  | .encFrame e =>
    s.work.EncodeGood ∧ ∃ enc, s.encAt e = some enc ∧ enc.mode = .opened ∧ s.work.w = enc.w ∧ s.work.h = enc.h ∧
      s.work.ch = enc.ch

/-- The invariant of the machine. -/
structure State.Inv (s : State) : Prop where
  enc : ∀ e enc, s.encAt e = some enc → enc.Good s.maxPixels
  dec : ∀ d dec, s.decAt d = some dec → dec.Good s.maxPixels
  work : Work.Good s

/-- A step is safe when it does not stop the machine with a fault. -/
def Safe (o : Host.Outcome State Fault Refusal) : Prop := ∀ r, o ≠ .fault r

end Sys2Proof.Machine
end

