-- ==== Sys2Proof/Certificates/Slice0/Obligations.lean ====
section
/-! DEFINITION. The statements for the provers.  Each says which rule of spec/ it formalises. -/

namespace Sys2Proof.Claims

open Sys2Proof Sys2Proof.Machine

/-- Pixel i of a buffer of CH channels holds p: alpha only for CH = 4 (R72, R141). -/
def PixelAt (m : Memory) (ch : Byte) (i : Nat) (p : Px) : Prop :=
  m.readByte (i * ch.toNat) = some p.r ∧ m.readByte (i * ch.toNat + 1) = some p.g ∧
    m.readByte (i * ch.toNat + 2) = some p.b ∧ (ch = 4 → m.readByte (i * ch.toNat + 3) = some p.a)

/-- Every position outside lo .. hi-1 reads as before. -/
def SameOutside (m m' : Memory) (lo hi : Nat) : Prop := ∀ a, a < lo ∨ hi ≤ a → m'.readByte a = m.readByte a

/-- One pixel p produced by an opcode of n bytes: PREV, I, PTR, OUT and WCACHE may change, all else is unchanged; OUT
holds p as pixel I and every byte outside it as before. -/
def OnePixel (s t : State) (n : Nat) (p : Px) : Prop :=
  t = { s with work := { s.work with prev := p, i := s.work.i + 1, ptr := s.work.ptr + n,
                                     wcache := t.work.wcache, out := t.work.out } } ∧
    PixelAt t.work.out s.work.ch s.work.i p ∧
    SameOutside s.work.out t.work.out (s.work.i * s.work.ch.toNat)
      (s.work.i * s.work.ch.toNat + (pixelBytes s.work.ch p).length)

/-- `CACHE[HASH(p)] <- p`, every other slot unchanged. -/
def CacheWritten (hashOf : Px → Slot) (c c' : Cache) (p : Px) : Prop :=
  ∀ k, cacheRead c' k = if k = hashOf p then p else cacheRead c k

/-- A channel moved by a delta modulo 256. -/
def Moved (before after : Byte) (d : Int) : Prop := (after.toNat : Int) = ((before.toNat : Int) + d) % 256

/-- The bounds check of R151 for an opcode of n bytes. -/
def RaisesWhenTruncated (i : Instr) (n : Nat) : Prop :=
  ∀ s : State, s.work.walking = true → s.work.endp < s.work.ptr + n →
    exec i s = .next (s.abort .truncatedStream (some (s.work.base + s.work.ptr)))

/-- The command in progress, or the host's next action, addresses encoder e. -/
def UsesEncoder (s : State) (e : Nat) : Prop :=
  match s.work.phase, s.io.pending with
  | .encFrame k, _ => k = e
  | .idle, .discardEncoder k :: _ => k = e
  | .idle, .issue (.encBegin k _ _ _ _) :: _ => k = e
  | .idle, .issue (.encFrame k _ _) :: _ => k = e
  | .idle, .issue (.encFlush k) :: _ => k = e
  | _, _ => False

/-- The command in progress, or the host's next action, addresses decoder d. -/
def UsesDecoder (s : State) (d : Nat) : Prop :=
  match s.work.phase, s.io.pending with
  | .containerHeader k _, _ => k = d
  | .frameTag (.session k), _ => k = d
  | .frameUnit (.session k), _ => k = d
  | .idle, .discardDecoder k :: _ => k = d
  | .idle, .issue (.decOpen k _) :: _ => k = d
  | .idle, .issue (.decNext k) :: _ => k = d
  | .idle, .issue (.decRestart k) :: _ => k = d
  | _, _ => False

/-- The state with one command queued. -/
def queue (s : State) (c : Command) : State := { s with io := { s.io with pending := [.issue c] } }

/-- The state with results returned earlier put before those it holds. -/
def withEarlierResults (s : State) (rs : List Result) : State :=
  { s with io := { s.io with results := rs ++ s.io.results } }

/-- The state with a result appended and nothing queued. -/
def answered (s : State) (r : Result) : State :=
  { s with io := { s.io with pending := [], results := s.io.results ++ [r] } }

end Sys2Proof.Claims

open Sys2Proof Sys2Proof.Machine Sys2Proof.Claims

/-! ### Encoding -/

/-- Decoding the bytes of any well-formed instruction at its place gives it back, whatever follows it. -/
def Obligations.DecodeOfEncodeIsTheInstruction : Prop :=
  ∀ (i : Instr) (rest : List Byte), i.wellFormed = true → decodeAt i.place (encode i ++ rest) = .ok i

/-- An opcode read from bytes is well formed and its encoding is exactly the bytes read. -/
def Obligations.EncodeOfDecodedOpcodeIsTheBytesRead : Prop :=
  ∀ (bs : List Byte) (i : Instr), decodeOpcode bs = .ok i →
    i.wellFormed = true ∧ i.place = .opcode ∧ bs.take i.size = encode i

/-- R90, R99: every first byte selects one opcode, and the first byte alone decides its length; with fewer bytes
than that length no opcode is read. -/
def Obligations.FirstByteDecidesTheLength : Prop :=
  ∀ b0 : Byte, ∃ n,
    n = (if b0.toNat < 128 then 1 else if b0.toNat < 192 then 2 else if b0.toNat ≤ 253 then 1
          else if b0.toNat = 254 then 4 else 5) ∧
    ∀ rest : List Byte,
      (n ≤ rest.length + 1 → ∃ i, decodeOpcode (b0 :: rest) = .ok i ∧ i.size = n) ∧
      (rest.length + 1 < n → decodeOpcode (b0 :: rest) = .error .truncatedOpcode)

/-- R112, R215: tag 0x00 selects Intra, 0x01 selects Predictive, any other value raises BAD_FRAME_TAG at the tag's
position and changes no instance state.  Before that, as R210 orders the checks, a frame of no bytes raises
TRUNCATED_STREAM at the start of the frame. -/
def Obligations.FrameTagSelectsTheKind : Prop :=
  (∀ rest, decodeTag (0x00 :: rest) = .ok .frameIntra) ∧ (∀ rest, decodeTag (0x01 :: rest) = .ok .framePred) ∧
  (∀ (s : State) (caller : FrameCaller) (t : Byte), s.work.phase = .frameTag caller →
    s.work.inp.readByte 0 = some t → t ≠ 0x00 → t ≠ 0x01 →
    step s = .next (s.abort .badFrameTag (some s.work.base))) ∧
  (∀ (s : State) (caller : FrameCaller), s.work.phase = .frameTag caller → s.work.inp.readByte 0 = none →
    step s = .next (s.abort .truncatedStream (some s.work.base)))

/-- Words written out from the bit layouts of R92 to R97 and R110 to R112 decode to the instructions they stand for.  The
field positions of DIFF and LUMA, the byte order of the image header and the magic bytes are presumed from the family
(log entries 11 and 12). -/
def Obligations.WrittenOutWordsDecode : Prop :=
  decodeOpcode [0b00001001] = .ok (.index 9) ∧ decodeOpcode [0b01001011] = .ok (.diff (-2) 0 1) ∧
  decodeOpcode [0b10100001, 0b10011000] = .ok (.luma 1 1 0) ∧ decodeOpcode [0b11111101] = .ok (.run 62) ∧
  decodeOpcode [0b11111110, 10, 20, 30] = .ok (.rgb 10 20 30) ∧
  decodeOpcode [0b11111111, 1, 2, 3, 4] = .ok (.rgba 1 2 3 4) ∧
  decodeAt .tag [0x01] = .ok .framePred ∧
  decodeAt .image [0x71, 0x6F, 0x69, 0x66, 0, 0, 0, 2, 0, 0, 0, 1, 4, 0] = .ok (.qoif 2 1 4 0) ∧
  decodeAt .terminator [0, 0, 0, 0, 0, 0, 0, 1] = .ok .terminator

/-! ### Arithmetic and prediction -/

/-- HASH is a parameter of the machine, Px → 0..63 (R7, R133, I1): every such function is the value of some
`HashParam`, and the parameter of the reset state is the default the spec takes from general knowledge (log entry
10). -/
def Obligations.HashIsTheWeightedSumModulo64 : Prop :=
  (∀ p : Px, (State.reset.hash p).toNat =
    (3 * p.r.toNat + 5 * p.g.toNat + 7 * p.b.toNat + 11 * p.a.toNat) % 64) ∧
  (∀ f : Px → Slot, ∃ table : HashParam, ∀ s : State, s.hashParam = table → s.hash = f)

/-- R134, R136: a channel delta lies in -128..127, and added to the prediction modulo 256 it gives the channel; it is the
only value of that range that does.  The second clause is an inference that the spec marks as its own (in R135): on
every input the LUMA test can see, the mod-256 reading and the plain difference of two deltas lie in -8..7 together,
and then they are equal. -/
def Obligations.ChannelDeltasAreSignedAndExact : Prop :=
  (∀ cur pred : Byte, -128 ≤ delta cur pred ∧ delta cur pred ≤ 127 ∧ Moved pred cur (delta cur pred) ∧
    addDelta pred (delta cur pred) = cur ∧
    ∀ d : Int, -128 ≤ d → d ≤ 127 → Moved pred cur d → d = delta cur pred) ∧
  (∀ d dg : Int, -128 ≤ d → d ≤ 127 → -32 ≤ dg → dg ≤ 31 →
    (inRange (-8) 7 (sext8 (d - dg)) = inRange (-8) 7 (d - dg)) ∧
    (inRange (-8) 7 (d - dg) = true → sext8 (d - dg) = d - dg))

/-- R132, R34: the prediction is PREV in an INTRA unit and the co-located reference pixel in a PRED unit, with alpha
255 for CH = 3. -/
def Obligations.PredictionIsPrevOrTheColocatedPixel : Prop :=
  ∀ wk : Work,
    (wk.kind = .intra → wk.pred = some wk.prev) ∧
    (∀ (ref : Memory) (r g b a : Byte), wk.kind = .predictive → wk.ref = some ref →
      ref.readByte (wk.i * wk.ch.toNat) = some r → ref.readByte (wk.i * wk.ch.toNat + 1) = some g →
      ref.readByte (wk.i * wk.ch.toNat + 2) = some b →
      (wk.ch = 4 → ref.readByte (wk.i * wk.ch.toNat + 3) = some a → wk.pred = some ⟨r, g, b, a⟩) ∧
      (wk.ch = 3 → wk.pred = some ⟨r, g, b, 255⟩))

/-! ### The six opcodes -/

/-- R170: INDEX yields the pixel of its slot, whatever the prediction, and writes no slot. -/
def Obligations.IndexYieldsItsSlot : Prop :=
  (∀ (b0 : Byte) (rest : List Byte), b0.toNat ≤ 0x3F →
    ∃ k : Slot, k.toNat = b0.toNat ∧ decodeOpcode (b0 :: rest) = .ok (.index k)) ∧
  (∀ (s : State) (k : Slot), s.work.walking = true → s.work.ptr + 1 ≤ s.work.endp →
    ∃ t, exec (.index k) s = .next t ∧ OnePixel s t 1 (cacheRead s.work.wcache k) ∧
      t.work.wcache = s.work.wcache) ∧
  (∀ k : Slot, RaisesWhenTruncated (.index k) 1)

/-- R172: DIFF moves each colour channel of the prediction by its delta modulo 256, keeps alpha, and writes the pixel to
its slot.  The bit positions of the three deltas in the first clause are presumed from the family (log entry 11). -/
def Obligations.DiffMovesEachChannel : Prop :=
  (∀ (b0 : Byte) (rest : List Byte), 0x40 ≤ b0.toNat → b0.toNat ≤ 0x7F →
    decodeOpcode (b0 :: rest) =
      .ok (.diff (((b0.toNat / 16 % 4 : Nat) : Int) - 2) (((b0.toNat / 4 % 4 : Nat) : Int) - 2)
        (((b0.toNat % 4 : Nat) : Int) - 2))) ∧
  (∀ (s : State) (dr dg db : Int) (pred : Px), s.work.walking = true → s.work.ptr + 1 ≤ s.work.endp →
    s.work.pred = some pred →
    ∃ t p, exec (.diff dr dg db) s = .next t ∧ Moved pred.r p.r dr ∧ Moved pred.g p.g dg ∧ Moved pred.b p.b db ∧
      p.a = pred.a ∧ OnePixel s t 1 p ∧ CacheWritten s.hash s.work.wcache t.work.wcache p) ∧
  (∀ dr dg db : Int, RaisesWhenTruncated (.diff dr dg db) 1)

/-- R174: LUMA moves every colour channel by dg, red by drg more and blue by dbg more, keeps alpha, and writes the pixel
to its slot.  Which nibble holds which difference in the first clause is presumed from the family (log entry 11). -/
def Obligations.LumaMovesTheChannelsTogether : Prop :=
  (∀ (b0 b1 : Byte) (rest : List Byte), 0x80 ≤ b0.toNat → b0.toNat ≤ 0xBF →
    decodeOpcode (b0 :: b1 :: rest) =
      .ok (.luma (((b0.toNat % 64 : Nat) : Int) - 32) (((b1.toNat / 16 : Nat) : Int) - 8)
        (((b1.toNat % 16 : Nat) : Int) - 8))) ∧
  (∀ (s : State) (dg drg dbg : Int) (pred : Px), s.work.walking = true → s.work.ptr + 2 ≤ s.work.endp →
    s.work.pred = some pred →
    ∃ t p, exec (.luma dg drg dbg) s = .next t ∧ Moved pred.r p.r (dg + drg) ∧ Moved pred.g p.g dg ∧
      Moved pred.b p.b (dg + dbg) ∧ p.a = pred.a ∧ OnePixel s t 2 p ∧
      CacheWritten s.hash s.work.wcache t.work.wcache p) ∧
  (∀ dg drg dbg : Int, RaisesWhenTruncated (.luma dg drg dbg) 2)

/-- R176, R182: RUN produces n pixels, or as many as the unit has left, each equal to its own prediction; the cache is
not written.  `q j` is the prediction of pixel I + j: PREV in an INTRA unit, REF[I+j] in a PRED unit. -/
def Obligations.RunCopiesThePredictions : Prop :=
  (∀ (b0 : Byte) (rest : List Byte), 0xC0 ≤ b0.toNat → b0.toNat ≤ 0xFD →
    decodeOpcode (b0 :: rest) = .ok (.run (b0.toNat % 64 + 1))) ∧
  (∀ (s : State) (n m : Nat) (q : Nat → Px), s.work.walking = true → s.work.ptr + 1 ≤ s.work.endp →
    channelsLegal s.work.ch = true → 1 ≤ n → n ≤ 62 → m = min n (s.work.npx - s.work.i) →
    (s.work.kind = .intra → ∀ j < m, q j = s.work.prev) →
    (s.work.kind = .predictive →
      ∃ r, s.work.ref = some r ∧ ∀ j < m, r.readPixel s.work.ch (s.work.i + j) = some (q j)) →
    ∃ t, exec (.run n) s = .next t ∧
      t = { s with work := { s.work with prev := q (m - 1), i := s.work.i + m, ptr := s.work.ptr + 1,
                                         out := t.work.out } } ∧
      (∀ j < m, PixelAt t.work.out s.work.ch (s.work.i + j) (q j)) ∧
      SameOutside s.work.out t.work.out (s.work.i * s.work.ch.toNat) ((s.work.i + m) * s.work.ch.toNat)) ∧
  (∀ n : Nat, RaisesWhenTruncated (.run n) 1)

/-- R178: RGB yields the literal colour with the prediction's alpha and writes the pixel to its slot. -/
def Obligations.RgbKeepsThePredictedAlpha : Prop :=
  (∀ (r g b : Byte) (rest : List Byte), decodeOpcode (0xFE :: r :: g :: b :: rest) = .ok (.rgb r g b)) ∧
  (∀ (s : State) (r g b : Byte) (pred : Px), s.work.walking = true → s.work.ptr + 4 ≤ s.work.endp →
    s.work.pred = some pred →
    ∃ t, exec (.rgb r g b) s = .next t ∧ OnePixel s t 4 ⟨r, g, b, pred.a⟩ ∧
      CacheWritten s.hash s.work.wcache t.work.wcache ⟨r, g, b, pred.a⟩) ∧
  (∀ r g b : Byte, RaisesWhenTruncated (.rgb r g b) 4)

/-- R180: RGBA yields the literal pixel, in a unit of any channel count and kind, and writes it to its slot. -/
def Obligations.RgbaYieldsTheLiteralPixel : Prop :=
  (∀ (r g b a : Byte) (rest : List Byte), decodeOpcode (0xFF :: r :: g :: b :: a :: rest) = .ok (.rgba r g b a)) ∧
  (∀ (s : State) (r g b a : Byte), s.work.walking = true → s.work.ptr + 5 ≤ s.work.endp →
    ∃ t, exec (.rgba r g b a) s = .next t ∧ OnePixel s t 5 ⟨r, g, b, a⟩ ∧
      CacheWritten s.hash s.work.wcache t.work.wcache ⟨r, g, b, a⟩) ∧
  (∀ r g b a : Byte, RaisesWhenTruncated (.rgba r g b a) 5)

/-- R151: with a pixel still to produce, a step raises TRUNCATED_STREAM with the position of PTR when no byte is left in
the region, and when the opcode that begins at PTR would pass its end. -/
def Obligations.ExhaustedRegionRaisesTruncatedStream : Prop :=
  ∀ s : State, s.work.walking = true →
    (s.work.endp ≤ s.work.ptr →
      step s = .next (s.abort .truncatedStream (some (s.work.base + s.work.ptr)))) ∧
    (∀ (b0 : Byte) (rest : List Byte) (i : Instr), s.work.inp.readByte s.work.ptr = some b0 →
      decodeOpcode (b0 :: rest) = .ok i → s.work.endp < s.work.ptr + i.size →
      step s = .next (s.abort .truncatedStream (some (s.work.base + s.work.ptr))))

/-- The model's own rule (log entry 9): a token that does not stand at the place the command in progress has reached has
no meaning: an opcode where no unit is being decoded or after its last pixel, a tag where no frame begins, a header or
a terminator elsewhere. -/
def Obligations.TokenOutOfPlaceIsRefused : Prop :=
  ∀ (s : State) (i : Instr),
    (i.place = .opcode → s.work.walking = false → exec i s = .refused .tokenOutOfPlace) ∧
    (i.place = .tag → (∀ c, s.work.phase ≠ .frameTag c) → exec i s = .refused .tokenOutOfPlace) ∧
    (i.place = .image → s.work.phase ≠ .imageHeader → exec i s = .refused .tokenOutOfPlace) ∧
    (i.place = .container → (∀ d src, s.work.phase ≠ .containerHeader d src) → exec i s = .refused .tokenOutOfPlace) ∧
    (i.place = .terminator → s.work.phase ≠ .imageUnit → exec i s = .refused .tokenOutOfPlace)

/-! ### The framing tokens -/

/-- R202, R210, R214: an Intra tag starts the unit from the reset cache and PREV = Px(0,0,0,255), without a reference,
its opcode region everything after the tag. -/
def Obligations.IntraTagStartsAResetUnit : Prop :=
  ∀ (s : State) (caller : FrameCaller), s.work.phase = .frameTag caller →
    exec .frameIntra s =
      .next { s with work := { s.work with phase := .frameUnit caller, kind := .intra, prev := ⟨0, 0, 0, 255⟩,
                                           run := 0, i := 0, ptr := 1, endp := s.work.inp.size,
                                           wcache := Cache.zero, out := [], ref := none } }

/-- R203, R210, R214: a Predictive tag starts the unit from the carried cache and the resident reference. -/
def Obligations.PredictiveTagStartsFromTheCarriedState : Prop :=
  ∀ (s : State) (caller : FrameCaller) (r : Memory), s.work.phase = .frameTag caller → s.work.ref = some r →
    exec .framePred s =
      .next { s with work := { s.work with phase := .frameUnit caller, kind := .predictive, prev := ⟨0, 0, 0, 255⟩,
                                           run := 0, i := 0, ptr := 1, endp := s.work.inp.size, out := [] } }

/-- R207, R303, R301: a Predictive frame without a resident reference raises NO_REFERENCE with the frame index, for the
two decoding commands and for ENC_FRAME, and changes no instance state. -/
def Obligations.PredictiveFrameWithoutReferenceIsAnError : Prop :=
  (∀ (s : State) (d : Nat) (dec : Dec), s.work.phase = .frameTag (.session d) → s.decAt d = some dec →
    s.work.ref = none → exec .framePred s = .next (s.abort .noReference (some dec.next.toNat))) ∧
  (∀ s : State, s.work.phase = .frameTag .perFrame → s.work.ref = none →
    exec .framePred s = .next (s.abort .noReference none)) ∧
  (∀ (s : State) (e : Nat) (enc : Enc) (pixels : List Byte), s.encAt e = some enc → enc.mode = .opened →
    pixels.length = bufferLength enc.w enc.h enc.ch → enc.ref = none →
    issue (.encFrame e .predictive pixels) s = .next (s.abort .noReference (some enc.frames.length)))

/-- R217: an Intra frame decodes the same whatever (CACHE, REF) it is given: after the command is issued and its tag
read, the two machines are in the same state. -/
def Obligations.IntraFramesAreContextFree : Prop :=
  ∀ (s : State) (w h : Word) (ch : Byte) (rest : List Byte) (c1 c2 : Cache) (r1 r2 : Option (List Byte)),
    s.work = Work.idle → frameArgumentsLegal r1 w h ch = true → frameArgumentsLegal r2 w h ch = true →
    ∃ t, Host.Core.run core 2 (queue s (.decFrame c1 r1 w h ch (0x00 :: rest))) = .next t ∧
      Host.Core.run core 2 (queue s (.decFrame c2 r2 w h ch (0x00 :: rest))) = .next t ∧
      t.encs = s.encs ∧ t.decs = s.decs ∧ t.work.phase = .frameUnit .perFrame

/-- R161, R150: a header that passes the checks starts an INTRA unit whose region is 14 .. L-8. -/
def Obligations.ImageHeaderStartsItsUnit : Prop :=
  ∀ (s : State) (w h : Word) (ch cs : Byte), s.work.phase = .imageHeader → (ch = 3 ∨ ch = 4) → (cs = 0 ∨ cs = 1) →
    22 ≤ s.work.inp.size → w.toNat * h.toNat ≤ s.maxPixels →
    exec (.qoif w h ch cs) s =
      .next { s with work := { s.work with phase := .imageUnit, kind := .intra, prev := ⟨0, 0, 0, 255⟩, run := 0,
                                           i := 0, ptr := 14, endp := s.work.inp.size - 8, wcache := Cache.zero,
                                           out := [], ref := none, w := w, h := h, ch := ch, cs := cs } }

/-- R161, R313: the checks of DECODE_IMAGE and their order, from the bytes of the image; `L` is their number. -/
def Obligations.ImageHeaderChecksComeInOrder : Prop :=
  ∀ (s : State) (bs : List Byte), s.work.phase = .imageHeader → s.work.inp = Memory.ofBytes bs →
    (bs.length < 14 → step s = .next (s.abort .truncatedHeader (some bs.length))) ∧
    (14 ≤ bs.length → bs.take 4 ≠ [0x71, 0x6F, 0x69, 0x66] → step s = .next (s.abort .badMagic (some 0))) ∧
    (14 ≤ bs.length → bs.take 4 = [0x71, 0x6F, 0x69, 0x66] →
      (∀ ch : Byte, bs[12]? = some ch → ch ≠ 3 → ch ≠ 4 → step s = .next (s.abort .badChannels (some 12))) ∧
      (∀ ch cs : Byte, bs[12]? = some ch → (ch = 3 ∨ ch = 4) → bs[13]? = some cs → cs ≠ 0 → cs ≠ 1 →
        step s = .next (s.abort .badColorspace (some 13))) ∧
      (∀ ch cs : Byte, bs[12]? = some ch → (ch = 3 ∨ ch = 4) → bs[13]? = some cs → (cs = 0 ∨ cs = 1) →
        (bs.length < 22 → step s = .next (s.abort .truncatedStream (some bs.length))) ∧
        (22 ≤ bs.length → s.maxPixels < (u32At bs 4).toNat * (u32At bs 8).toNat →
          step s = .next (s.abort .tooLarge none)) ∧
        (22 ≤ bs.length → (u32At bs 4).toNat * (u32At bs 8).toNat ≤ s.maxPixels →
          step s = exec (.qoif (u32At bs 4) (u32At bs 8) ch cs) s)))

/-- With every pixel produced, the terminator's place is reached and the image is returned, whatever bytes stand there
and after (R153, R154, R161).  That the terminator token is what ends the command, and that executed at the end of the
region with pixels missing it raises TRUNCATED_STREAM, is the model's reading of R151 and R154 (DEDUCED, log entry
18). -/
def Obligations.TerminatorReturnsTheImage : Prop :=
  ∀ s : State, s.work.phase = .imageUnit →
    (s.work.npx ≤ s.work.i → ∃ t, exec .terminator s = .next t ∧ step s = .next t ∧
      t = s.finish (.decodedImage s.work.w s.work.h s.work.ch s.work.cs s.work.out.toBytes) ∧
      ∀ m : Memory, step { s with work := { s.work with inp := m } } = .next t) ∧
    (s.work.i < s.work.npx → s.work.endp ≤ s.work.ptr →
      exec .terminator s = .next (s.abort .truncatedStream (some (s.work.base + s.work.ptr))))

/-- R263: a container header that passes every check opens the session of the decoder addressed, Fresh, and returns its
fields. -/
def Obligations.ContainerHeaderOpensTheSession : Prop :=
  ∀ (s : State) (d : Nat) (before : Dec) (src : Source) (hs w h fr : Word) (ch : Byte) (n : Word) (offs : List Word),
    s.work.phase = .containerHeader d src → s.decAt d = some before → hs.toNat = 25 + 4 * n.toNat →
    (ch = 3 ∨ ch = 4) → firstBadOffset src.len 0 hs.toNat offs = none → w.toNat * h.toNat ≤ s.maxPixels →
    ∃ dec : Dec,
      dec = { mode := .opened, w := w, h := h, ch := ch, fr := fr, n := n, hs := hs, off := offs, len := src.len,
              src := some src, next := 0, cache := Cache.zero, ref := none } ∧
      dec.isFresh = true ∧
      exec (.qov1 hs w h fr ch n offs) s =
        .next { s with decs := s.decs.set d (some dec), work := Work.idle,
                       io := { s.io with results := s.io.results ++ [.opened w h ch fr n] } }

/-- R260, R313: the checks of DEC_OPEN on the bytes `b1` of phase 1 and `b2` of phase 2, and their order. -/
def Obligations.ContainerHeaderChecksComeInOrder : Prop :=
  ∀ (s : State) (d : Nat) (src : Source) (b1 b2 : List Byte), s.work.phase = .containerHeader d src →
    s.work.pre = b1 → s.work.inp = Memory.ofBytes b2 →
    (b1.length < 8 → step s = .next (s.abort .truncatedHeader (some b1.length))) ∧
    (8 ≤ b1.length → b1.take 4 ≠ [0x71, 0x6F, 0x76, 0x31] → step s = .next (s.abort .badMagic (some 0))) ∧
    (8 ≤ b1.length → b1.take 4 = [0x71, 0x6F, 0x76, 0x31] → ∀ hs : Nat, hs = (u32At b1 4).toNat →
      (hs < 25 → step s = .next (s.abort .badHeaderSize (some 4))) ∧
      (25 ≤ hs → b2.length < hs → step s = .next (s.abort .truncatedOffsetTable (some b2.length))) ∧
      (25 ≤ hs → hs ≤ b2.length → ∀ ch : Byte, b2[20]? = some ch →
        (ch ≠ 3 → ch ≠ 4 → step s = .next (s.abort .badChannels (some 20))) ∧
        ((ch = 3 ∨ ch = 4) → hs ≠ 25 + 4 * (u32At b2 21).toNat →
          step s = .next (s.abort .badHeaderSize (some 4))) ∧
        ((ch = 3 ∨ ch = 4) → hs = 25 + 4 * (u32At b2 21).toNat → ∀ offs : List Word,
          offs.length = (u32At b2 21).toNat → (∀ k < offs.length, offs[k]? = some (u32At b2 (25 + 4 * k))) →
          (∀ k, firstBadOffset src.len 0 hs offs = some k →
            step s = .next (s.abort .badOffsets (some (25 + 4 * k)))) ∧
          (firstBadOffset src.len 0 hs offs = none → s.maxPixels < (u32At b2 8).toNat * (u32At b2 12).toNat →
            step s = .next (s.abort .tooLarge none)) ∧
          (firstBadOffset src.len 0 hs offs = none → (u32At b2 8).toNat * (u32At b2 12).toNat ≤ s.maxPixels →
            step s = exec (.qov1 (u32At b1 4) (u32At b2 8) (u32At b2 12) (u32At b2 16) ch (u32At b2 21) offs) s))))

/-- R262: which offset tables are valid, and that the offset reported is the lowest bad one. -/
def Obligations.LowestBadOffsetIsReported : Prop :=
  ∀ (len hs : Nat) (offs : List Word),
    let bad : Nat → Prop := fun k => ∃ o, offs[k]? = some o ∧
      ((k = 0 ∧ o.toNat < hs) ∨ (∃ p, 0 < k ∧ offs[k - 1]? = some p ∧ o.toNat ≤ p.toNat) ∨
        (k + 1 = offs.length ∧ len ≤ o.toNat))
    (∀ k, firstBadOffset len 0 hs offs = some k → bad k ∧ ∀ j < k, ¬ bad j) ∧
    (firstBadOffset len 0 hs offs = none → ∀ k, ¬ bad k)

/-- R211, R274, R279: at the end of a decoded frame DEC_NEXT commits the final cache, the decoded buffer as the new
reference and DEC.NEXT + 1 to the decoder addressed, and returns the pixels; DEC_FRAME returns them and changes no
instance state. -/
def Obligations.DecodedFrameCommits : Prop :=
  ∀ s : State, s.work.npx ≤ s.work.i →
    (∀ (d : Nat) (dec : Dec), s.work.phase = .frameUnit (.session d) → s.decAt d = some dec →
      step s = .next { s with decs := s.decs.set d (some { dec with next := dec.next + 1, cache := s.work.wcache,
                                                                    ref := some s.work.out }),
                              work := Work.idle,
                              io := { s.io with results := s.io.results ++ [.pixels s.work.out.toBytes] } }) ∧
    (s.work.phase = .frameUnit .perFrame →
      step s = .next (s.finish (.decodedFrame s.work.wcache s.work.out.toBytes s.work.out.toBytes)))

/-! ### The encoder -/

/-- R142, R143, R147: a pixel equal to its prediction joins the run, and the run is emitted as one RUN opcode exactly
when it reaches 62 or the pixel is the unit's last; the cache is not written. -/
def Obligations.EncoderAbsorbsAndFlushesRuns : Prop :=
  ∀ (s : State) (cur : Px) (bs : List Byte), (s.work.phase = .encImage ∨ ∃ e, s.work.phase = .encFrame e) →
    s.work.i < s.work.npx → s.work.inp.readPixel s.work.ch s.work.i = some cur → s.work.pred = some cur →
    s.work.out = Memory.ofBytes bs → s.work.run < 62 →
    (s.work.run + 1 < 62 → s.work.i + 1 < s.work.npx →
      step s = .next { s with work := { s.work with run := s.work.run + 1, prev := cur, i := s.work.i + 1 } }) ∧
    (s.work.run + 1 = 62 ∨ s.work.i + 1 = s.work.npx →
      step s = .next { s with work := { s.work with run := 0, prev := cur, i := s.work.i + 1,
                                                    out := Memory.ofBytes (bs ++ [BitVec.ofNat 8 (0xC0 + s.work.run)]) } })

/-- R144, R146, R147: a pixel unequal to its prediction first flushes the pending run, then its opcode is emitted, and
the cache slot of the pixel is written unless the opcode is INDEX (which holds when the slot already is the pixel). -/
def Obligations.EncoderCodesADifferentPixel : Prop :=
  ∀ (s : State) (cur pred : Px) (bs : List Byte), (s.work.phase = .encImage ∨ ∃ e, s.work.phase = .encFrame e) →
    s.work.i < s.work.npx → s.work.inp.readPixel s.work.ch s.work.i = some cur → s.work.pred = some pred →
    cur ≠ pred → s.work.out = Memory.ofBytes bs → s.work.run < 62 →
    ∃ t, step s = .next t ∧
      t = { s with work := { s.work with run := 0, prev := cur, i := s.work.i + 1, wcache := t.work.wcache,
                                         out := t.work.out } } ∧
      t.work.out = Memory.ofBytes (bs ++
        (if s.work.run = 0 then [] else [BitVec.ofNat 8 (0xBF + s.work.run)]) ++
        encode (selectOpcode s.hash s.work.wcache pred cur)) ∧
      CacheWritten s.hash s.work.wcache t.work.wcache cur ∧
      (cacheRead s.work.wcache (s.hash cur) = cur → t.work.wcache = s.work.wcache)

/-- R145: the fixed priority INDEX, DIFF, LUMA, RGB, RGBA, for every HASH. -/
def Obligations.EncoderPicksTheFirstApplicableOpcode : Prop :=
  ∀ (hashOf : Px → Slot) (cache : Cache) (pred cur : Px), cur ≠ pred →
    (cacheRead cache (hashOf cur) = cur → selectOpcode hashOf cache pred cur = .index (hashOf cur)) ∧
    (cacheRead cache (hashOf cur) ≠ cur →
      (cur.a ≠ pred.a → selectOpcode hashOf cache pred cur = .rgba cur.r cur.g cur.b cur.a) ∧
      (cur.a = pred.a →
        (∀ dr dg db : Int, -2 ≤ dr → dr ≤ 1 → -2 ≤ dg → dg ≤ 1 → -2 ≤ db → db ≤ 1 →
          Moved pred.r cur.r dr → Moved pred.g cur.g dg → Moved pred.b cur.b db →
          selectOpcode hashOf cache pred cur = .diff dr dg db) ∧
        ((∀ dr dg db : Int, -2 ≤ dr → dr ≤ 1 → -2 ≤ dg → dg ≤ 1 → -2 ≤ db → db ≤ 1 →
            ¬ (Moved pred.r cur.r dr ∧ Moved pred.g cur.g dg ∧ Moved pred.b cur.b db)) →
          (∀ dg drg dbg : Int, -32 ≤ dg → dg ≤ 31 → -8 ≤ drg → drg ≤ 7 → -8 ≤ dbg → dbg ≤ 7 →
            Moved pred.r cur.r (dg + drg) → Moved pred.g cur.g dg → Moved pred.b cur.b (dg + dbg) →
            selectOpcode hashOf cache pred cur = .luma dg drg dbg) ∧
          ((∀ dg drg dbg : Int, -32 ≤ dg → dg ≤ 31 → -8 ≤ drg → drg ≤ 7 → -8 ≤ dbg → dbg ≤ 7 →
              ¬ (Moved pred.r cur.r (dg + drg) ∧ Moved pred.g cur.g dg ∧ Moved pred.b cur.b (dg + dbg))) →
            selectOpcode hashOf cache pred cur = .rgb cur.r cur.g cur.b))))

/-- R157, one pixel, for every HASH: the opcode the encoder picks is well formed, its decode rule yields the pixel it
coded, and the decoder's cache after it equals the encoder's (the pure clauses); `exec` of every one-pixel opcode
produces the pixel of that rule and writes the cache by it; so `exec` of the opcode the encoder picks, from the same
cache and prediction, produces the pixel and leaves the encoder's cache. -/
def Obligations.DecoderInvertsTheEncodersChoice : Prop :=
  (∀ (hashOf : Px → Slot) (cache : Cache) (pred cur : Px),
    (selectOpcode hashOf cache pred cur).wellFormed = true ∧
    opcodePixel cache pred (selectOpcode hashOf cache pred cur) = some cur ∧
    cacheAfter hashOf cache cur =
      (if writesCache (selectOpcode hashOf cache pred cur) then cacheWrite cache (hashOf cur) cur else cache)) ∧
  (∀ (s : State) (i : Instr) (pred p : Px), s.work.walking = true → s.work.pred = some pred →
    s.work.ptr + i.size ≤ s.work.endp → opcodePixel s.work.wcache pred i = some p →
    ∃ t, exec i s = .next t ∧ OnePixel s t i.size p ∧
      t.work.wcache = (if writesCache i then cacheWrite s.work.wcache (s.hash p) p else s.work.wcache)) ∧
  (∀ (s : State) (pred cur : Px) (i : Instr), s.work.walking = true → s.work.pred = some pred →
    i = selectOpcode s.hash s.work.wcache pred cur → s.work.ptr + i.size ≤ s.work.endp →
    ∃ t, exec i s = .next t ∧ OnePixel s t i.size cur ∧ t.work.prev = cur ∧
      t.work.wcache = cacheAfter s.hash s.work.wcache cur)

/-- R160: the end of ENCODE_IMAGE: header, opcode stream, terminator. -/
def Obligations.EncodedImageIsHeaderBodyTerminator : Prop :=
  ∀ (s : State) (body : List Byte), s.work.phase = .encImage → s.work.npx ≤ s.work.i →
    s.work.out = Memory.ofBytes body →
    step s = .next (s.finish (.image ([0x71, 0x6F, 0x69, 0x66] ++ be32 s.work.w ++ be32 s.work.h ++
      [s.work.ch, s.work.cs] ++ body ++ [0, 0, 0, 0, 0, 0, 0, 1])))

/-- R251, R255, R211: the end of ENC_FRAME: the frame is its tag and its payload; a frame that would make the blob
longer than 2^32 - 1 bytes is refused with TOO_LARGE and leaves the session as it was; otherwise the cache, the
reference (the input pixels) and the frame are committed to the encoder addressed and the frame is returned. -/
def Obligations.EncodedFrameCommits : Prop :=
  ∀ (s : State) (e : Nat) (enc : Enc) (body frame : List Byte), s.work.phase = .encFrame e → s.encAt e = some enc →
    s.work.npx ≤ s.work.i → s.work.out = Memory.ofBytes body →
    ((s.work.kind = .intra ∧ frame = 0x00 :: body) ∨ (s.work.kind = .predictive ∧ frame = 0x01 :: body)) →
    (25 + 4 * (enc.frames.length + 1) + (enc.frames.map List.length).sum + frame.length > 2 ^ 32 - 1 →
      step s = .next (s.abort .tooLarge none)) ∧
    (25 + 4 * (enc.frames.length + 1) + (enc.frames.map List.length).sum + frame.length ≤ 2 ^ 32 - 1 →
      step s = .next { s with encs := s.encs.set e (some { enc with cache := s.work.wcache, ref := some s.work.inp,
                                                                    frames := enc.frames ++ [frame] }),
                              work := Work.idle,
                              io := { s.io with results := s.io.results ++ [.frame frame] } })

/-! ### The commands -/

/-- R74, R340, R256: the host's actions take effect one at a time in the order queued, each while no command is in
progress: a step in any other phase leaves the queue as it is.  The rest is the model's form of them: a new instance
stands after those before it with the reset values, a discarded one is gone, and an action that addresses an instance
that does not exist is refused (DESIGN CHOICE, log entry 16); with nothing queued the core stays as it is (DESIGN
CHOICE, log entry 14). -/
def Obligations.HostActionsTakeEffectInOrder : Prop :=
  (∀ (s : State) (rest : List HostAction), s.work.phase = .idle →
    (∀ c, s.io.pending = .issue c :: rest → step s = issue c { s with io := { s.io with pending := rest } }) ∧
    (s.io.pending = .newEncoder :: rest →
      step s = .next { s with encs := s.encs ++ [some Enc.reset], io := { s.io with pending := rest } }) ∧
    (s.io.pending = .newDecoder :: rest →
      step s = .next { s with decs := s.decs ++ [some Dec.reset], io := { s.io with pending := rest } }) ∧
    (∀ e, s.io.pending = .discardEncoder e :: rest →
      (s.encAt e = none → step s = .refused .noSuchInstance) ∧
      (∀ enc, s.encAt e = some enc →
        step s = .next { s with encs := s.encs.set e none, io := { s.io with pending := rest } })) ∧
    (∀ d, s.io.pending = .discardDecoder d :: rest →
      (s.decAt d = none → step s = .refused .noSuchInstance) ∧
      (∀ dec, s.decAt d = some dec →
        step s = .next { s with decs := s.decs.set d none, io := { s.io with pending := rest } }))) ∧
  (∀ s : State, s.work.phase = .idle → s.io.pending = [] → step s = .next s) ∧
  (∀ s t : State, s.work.phase ≠ .idle → step s = .next t → t.io.pending = s.io.pending) ∧
  (∀ (s : State) (e : Nat) (w h fr : Word) (ch : Byte) (kind : FrameKind) (pixels : List Byte), s.encAt e = none →
    ∀ c ∈ [Command.encBegin e w h ch fr, .encFrame e kind pixels, .encFlush e],
      issue c s = .refused .noSuchInstance) ∧
  (∀ (s : State) (d : Nat) (src : Source), s.decAt d = none →
    ∀ c ∈ [Command.decOpen d src, .decNext d, .decRestart d], issue c s = .refused .noSuchInstance)

/-- R160, R313: the checks of ENCODE_IMAGE in their order, and the working registers its walk starts from. -/
def Obligations.EncodeImageChecksAndStarts : Prop :=
  ∀ (s : State) (w h : Word) (ch cs : Byte) (pixels : List Byte),
    ((ch ≠ 3 ∧ ch ≠ 4) ∨ (cs ≠ 0 ∧ cs ≠ 1) →
      issue (.encodeImage w h ch cs pixels) s = .next (s.abort .badConfig none)) ∧
    ((ch = 3 ∨ ch = 4) → (cs = 0 ∨ cs = 1) →
      (pixels.length ≠ w.toNat * h.toNat * ch.toNat →
        issue (.encodeImage w h ch cs pixels) s = .next (s.abort .bufferLength (some pixels.length))) ∧
      (pixels.length = w.toNat * h.toNat * ch.toNat → s.maxPixels < w.toNat * h.toNat →
        issue (.encodeImage w h ch cs pixels) s = .next (s.abort .tooLarge none)) ∧
      (pixels.length = w.toNat * h.toNat * ch.toNat → w.toNat * h.toNat ≤ s.maxPixels →
        issue (.encodeImage w h ch cs pixels) s =
          .next { s with work := { Work.idle with phase := .encImage, w := w, h := h, ch := ch, cs := cs,
                                                  inp := Memory.ofBytes pixels } }))

/-- R250: ENC_BEGIN refuses a bad configuration, else opens a new session in place of any open one of that encoder. -/
def Obligations.EncBeginOpensASession : Prop :=
  ∀ (s : State) (e : Nat) (before : Enc) (w h : Word) (ch : Byte) (fr : Word), s.encAt e = some before →
    (ch ≠ 3 → ch ≠ 4 → issue (.encBegin e w h ch fr) s = .next (s.abort .badConfig none)) ∧
    ((ch = 3 ∨ ch = 4) → s.maxPixels < w.toNat * h.toNat →
      issue (.encBegin e w h ch fr) s = .next (s.abort .tooLarge none)) ∧
    ((ch = 3 ∨ ch = 4) → w.toNat * h.toNat ≤ s.maxPixels →
      issue (.encBegin e w h ch fr) s =
        .next { s with encs := s.encs.set e (some { mode := .opened, w := w, h := h, ch := ch, fr := fr,
                                                    cache := Cache.zero, ref := none, frames := [] }),
                       work := Work.idle, io := { s.io with results := s.io.results ++ [.ok] } })

/-- R251, R313, R202, R203: the checks of ENC_FRAME in their order (NO_REFERENCE is stated with R207), and the unit it
starts: from the reset cache for Intra, from the session's cache and reference for Predictive. -/
def Obligations.EncFrameChecksAndStarts : Prop :=
  ∀ (s : State) (e : Nat) (enc : Enc) (pixels : List Byte), s.encAt e = some enc →
    (∀ kind, enc.mode = .idle → issue (.encFrame e kind pixels) s = .next (s.abort .notOpen none)) ∧
    (∀ kind, enc.mode = .opened → pixels.length ≠ bufferLength enc.w enc.h enc.ch →
      issue (.encFrame e kind pixels) s = .next (s.abort .bufferLength (some pixels.length))) ∧
    (enc.mode = .opened → pixels.length = bufferLength enc.w enc.h enc.ch →
      issue (.encFrame e .intra pixels) s =
        .next { s with work := { Work.idle with phase := .encFrame e, w := enc.w, h := enc.h, ch := enc.ch,
                                                inp := Memory.ofBytes pixels } }) ∧
    (∀ r, enc.mode = .opened → pixels.length = bufferLength enc.w enc.h enc.ch → enc.ref = some r →
      issue (.encFrame e .predictive pixels) s =
        .next { s with work := { Work.idle with phase := .encFrame e, kind := .predictive, w := enc.w, h := enc.h,
                                                ch := enc.ch, inp := Memory.ofBytes pixels,
                                                wcache := enc.cache, ref := some r } })

/-- R252, R254: ENC_FLUSH returns the blob in one step and leaves the encoder addressed at its reset values. -/
def Obligations.EncFlushReturnsTheBlobAndResets : Prop :=
  ∀ (s : State) (e : Nat) (enc : Enc), s.encAt e = some enc →
    (enc.mode = .idle → issue (.encFlush e) s = .next (s.abort .notOpen none)) ∧
    (enc.mode = .opened →
      issue (.encFlush e) s =
        .next { s with encs := s.encs.set e (some { mode := .idle, w := 0, h := 0, ch := 0, fr := 0,
                                                    cache := Cache.zero, ref := none, frames := [] }),
                       work := Work.idle, io := { s.io with results := s.io.results ++ [.blob enc.blob] } })

/-- R253, R230, R234, R235: every field of the blob at its position, and every frame at its offset. -/
def Obligations.BlobHoldsHeaderTableAndFrames : Prop :=
  ∀ (e : Enc) (m : Nat), e.Good m → e.mode = .opened →
    e.blob.length = 25 + 4 * e.frames.length + (e.frames.map List.length).sum ∧
    e.blob.take 4 = [0x71, 0x6F, 0x76, 0x31] ∧ (u32At e.blob 4).toNat = 25 + 4 * e.frames.length ∧
    u32At e.blob 8 = e.w ∧ u32At e.blob 12 = e.h ∧ u32At e.blob 16 = e.fr ∧ e.blob[20]? = some e.ch ∧
    (u32At e.blob 21).toNat = e.frames.length ∧
    ∀ (k : Nat) (f : List Byte), e.frames[k]? = some f → ∃ o : Nat,
      o = 25 + 4 * e.frames.length + ((e.frames.take k).map List.length).sum ∧
      (u32At e.blob (25 + 4 * k)).toNat = o ∧ (e.blob.drop o).take f.length = f

/-- R260, R330: DEC_OPEN reads the first 8 bytes of the source, and, when they pass phase 1, exactly headerSize bytes
more from its start; the header token then stands next.  A reply the host has queued is taken as given in place of the
bytes of the source, one for each read (V3, in the model's form: log entry 5). -/
def Obligations.DecOpenReadsInTwoPhases : Prop :=
  ∀ (s : State) (d : Nat) (before : Dec) (src : Source), s.decAt d = some before →
    (s.io.replies = [] →
      (src.bytes.length < 8 ∨ src.bytes.take 4 ≠ [0x71, 0x6F, 0x76, 0x31] ∨
          (u32At (src.bytes.take 8) 4).toNat < 25 →
        issue (.decOpen d src) s =
          .next { s with work := { Work.idle with phase := .containerHeader d src, pre := src.bytes.take 8 } }) ∧
      (8 ≤ src.bytes.length → src.bytes.take 4 = [0x71, 0x6F, 0x76, 0x31] →
        25 ≤ (u32At (src.bytes.take 8) 4).toNat →
        issue (.decOpen d src) s =
          .next { s with work := { Work.idle with phase := .containerHeader d src, pre := src.bytes.take 8,
                                                  inp := Memory.ofBytes
                                                    (src.bytes.take (u32At (src.bytes.take 8) 4).toNat) } })) ∧
    (∀ (b1 : List Byte) (rest : List (List Byte)), s.io.replies = b1 :: rest →
      (b1.length < 8 ∨ b1.take 4 ≠ [0x71, 0x6F, 0x76, 0x31] ∨ (u32At b1 4).toNat < 25 →
        issue (.decOpen d src) s =
          .next { s with work := { Work.idle with phase := .containerHeader d src, pre := b1 },
                         io := { s.io with replies := rest } }) ∧
      (8 ≤ b1.length → b1.take 4 = [0x71, 0x6F, 0x76, 0x31] → 25 ≤ (u32At b1 4).toNat →
        (rest = [] →
          issue (.decOpen d src) s =
            .next { s with work := { Work.idle with phase := .containerHeader d src, pre := b1,
                                                    inp := Memory.ofBytes (src.bytes.take (u32At b1 4).toNat) },
                           io := { s.io with replies := [] } }) ∧
        (∀ (b2 : List Byte) (rest' : List (List Byte)), rest = b2 :: rest' →
          issue (.decOpen d src) s =
            .next { s with work := { Work.idle with phase := .containerHeader d src, pre := b1,
                                                    inp := Memory.ofBytes b2 },
                           io := { s.io with replies := rest' } })))

/-- R271, R272, R275, R235: DEC_NEXT raises NOT_OPEN while CLOSED, answers END when exhausted, and otherwise fetches the
span of frame DEC.NEXT in one read; a short fetch raises TRUNCATED_STREAM at the first missing byte.  A reply the host
has queued is taken as given in place of the bytes of the source (V3, in the model's form: log entry 5). -/
def Obligations.DecNextFetchesTheFrameSpan : Prop :=
  ∀ (s : State) (d : Nat) (dec : Dec), s.decAt d = some dec →
    (dec.mode = .closed → issue (.decNext d) s = .next (s.abort .notOpen none)) ∧
    (dec.mode = .opened → dec.next = dec.n → issue (.decNext d) s = .next (s.finish .endOfStream)) ∧
    (∀ (src : Source) (a : Word) (b : Nat), dec.mode = .opened → dec.next.toNat < dec.n.toNat → dec.src = some src →
      dec.off[dec.next.toNat]? = some a →
      ((dec.next.toNat + 1 < dec.n.toNat ∧ ∃ o : Word, dec.off[dec.next.toNat + 1]? = some o ∧ o.toNat = b) ∨
        (dec.next.toNat + 1 = dec.n.toNat ∧ b = dec.len)) →
      (s.io.replies = [] →
        ((min b src.bytes.length) - a.toNat < b - a.toNat →
          issue (.decNext d) s =
            .next (s.abort .truncatedStream (some (a.toNat + ((min b src.bytes.length) - a.toNat))))) ∧
        (b ≤ src.bytes.length →
          issue (.decNext d) s =
            .next { s with work := { Work.idle with phase := .frameTag (.session d), base := a.toNat, w := dec.w,
                                                    h := dec.h, ch := dec.ch, wcache := dec.cache, ref := dec.ref,
                                                    inp := Memory.ofBytes
                                                      ((src.bytes.drop a.toNat).take (b - a.toNat)) } })) ∧
      (∀ (frame : List Byte) (rest : List (List Byte)), s.io.replies = frame :: rest →
        (frame.length < b - a.toNat →
          issue (.decNext d) s =
            .next ({ s with io := { s.io with replies := rest } }.abort .truncatedStream
              (some (a.toNat + frame.length)))) ∧
        (b - a.toNat ≤ frame.length →
          issue (.decNext d) s =
            .next { s with work := { Work.idle with phase := .frameTag (.session d), base := a.toNat, w := dec.w,
                                                    h := dec.h, ch := dec.ch, wcache := dec.cache, ref := dec.ref,
                                                    inp := Memory.ofBytes frame },
                           io := { s.io with replies := rest } })))

/-- R276: DEC_RESTART raises NOT_OPEN while CLOSED, and otherwise takes DEC.NEXT, DEC.CACHE and DEC.REF back and keeps
the rest.  The third clause is an inference that the spec marks as its own (in R344): the decoder is then the very
one the DEC_OPEN of its session left. -/
def Obligations.DecRestartReturnsToFresh : Prop :=
  (∀ (s : State) (d : Nat) (dec : Dec), s.decAt d = some dec →
    (dec.mode = .closed → issue (.decRestart d) s = .next (s.abort .notOpen none)) ∧
    (dec.mode = .opened →
      issue (.decRestart d) s =
        .next { s with decs := s.decs.set d (some { dec with next := 0, cache := Cache.zero, ref := none }),
                       work := Work.idle, io := { s.io with results := s.io.results ++ [.ok] } })) ∧
  (∀ (s t : State) (d : Nat) (src : Source) (hs w h fr : Word) (ch : Byte) (n : Word) (offs : List Word),
    s.work.phase = .containerHeader d src → exec (.qov1 hs w h fr ch n offs) s = .next t →
    t.io.results = s.io.results ++ [.opened w h ch fr n] →
    ∃ opened : Dec, t.decAt d = some opened ∧
      ∀ (u : State) (next : Word) (cache : Cache) (ref : Option Memory),
        u.decAt d = some { opened with next := next, cache := cache, ref := ref } →
        ∃ v, issue (.decRestart d) u = .next v ∧ v.decAt d = some opened)

/-- R279, V4: DEC_FRAME with arguments that are not well formed is refused; with well-formed ones it takes them as the
carried state and changes no instance state. -/
def Obligations.DecFrameTakesItsOwnState : Prop :=
  ∀ (s : State) (cache : Cache) (w h : Word) (ch : Byte) (frame : List Byte),
    (∀ ref, ch ≠ 3 → ch ≠ 4 → issue (.decFrame cache ref w h ch frame) s = .refused .badFrameArguments) ∧
    (∀ r, r.length ≠ w.toNat * h.toNat * ch.toNat →
      issue (.decFrame cache (some r) w h ch frame) s = .refused .badFrameArguments) ∧
    ((ch = 3 ∨ ch = 4) →
      issue (.decFrame cache none w h ch frame) s =
        .next { s with work := { Work.idle with phase := .frameTag .perFrame, w := w, h := h, ch := ch,
                                                inp := Memory.ofBytes frame, wcache := cache } }) ∧
    (∀ r, (ch = 3 ∨ ch = 4) → r.length = w.toNat * h.toNat * ch.toNat →
      issue (.decFrame cache (some r) w h ch frame) s =
        .next { s with work := { Work.idle with phase := .frameTag .perFrame, w := w, h := h, ch := ch,
                                                inp := Memory.ofBytes frame, wcache := cache,
                                                ref := some (Memory.ofBytes r) } })

/-! ### Whole-machine rules -/

/-- R341, R342: the reset values of an encoder and of a decoder.  That one instance of each has been created at reset is
the model's choice (DESIGN CHOICE, log entry 3). -/
def Obligations.ResetValuesOfBothInstances : Prop :=
  State.reset.encs = [some { mode := .idle, w := 0, h := 0, ch := 0, fr := 0,
                             cache := Vector.replicate 64 ⟨0, 0, 0, 0⟩, ref := none, frames := [] }] ∧
  State.reset.decs = [some { mode := .closed, w := 0, h := 0, ch := 0, fr := 0, n := 0, hs := 0, off := [], len := 0,
                             src := none, next := 0, cache := Vector.replicate 64 ⟨0, 0, 0, 0⟩, ref := none }]

/-- R310, R300: a step that returns an error result leaves every instance as it was before that step and ends the command;
and each class of error is exactly one range of code numbers.  A command is many steps of the model (DESIGN CHOICE, log
entry 4), so this speaks of its last step alone: that its earlier steps change no instance either is
InstancesChangeOnlyAtACommit. -/
def Obligations.ErrorsChangeNoInstanceState : Prop :=
  (∀ (s t : State) (e : ErrorRec), step s = .next t → t.io.results = s.io.results ++ [.error e] →
    t.encs = s.encs ∧ t.decs = s.decs ∧ t.work = Work.idle) ∧
  (∀ c : ErrorCode,
    (c.errorClass = .formatError ↔ 0x10 ≤ c.value.toNat ∧ c.value.toNat ≤ 0x18) ∧
    (c.errorClass = .sequenceError ↔ 0x20 ≤ c.value.toNat ∧ c.value.toNat ≤ 0x21) ∧
    (c.errorClass = .sizeMismatch ↔ 0x30 ≤ c.value.toNat ∧ c.value.toNat ≤ 0x32))

/-- R70: a step changes the instances only where a command completes with a result that is no error, or where the host
creates or discards one. -/
def Obligations.InstancesChangeOnlyAtACommit : Prop :=
  ∀ s t : State, step s = .next t → (t.encs ≠ s.encs ∨ t.decs ≠ s.decs) →
    (s.work.phase = .idle ∧ ∃ action rest, s.io.pending = action :: rest ∧ ∀ c, action ≠ .issue c) ∨
    (t.work = Work.idle ∧ ∃ r, t.io.results = s.io.results ++ [r] ∧ ∀ e, r ≠ .error e)

/-- R278, R28: DEC.NEXT of a decoder moves only by one or back to 0, and its header fields change only where a DEC_OPEN
of that decoder commits. -/
def Obligations.DecoderHeaderIsConstantAndNextMovesByOne : Prop :=
  ∀ (s t : State) (d : Nat) (before after : Dec), step s = .next t → s.decAt d = some before →
    t.decAt d = some after →
    (after.next = before.next ∨ after.next = before.next + 1 ∨ after.next = 0) ∧
    ((∀ src, s.work.phase ≠ .containerHeader d src) →
      after = { before with next := after.next, cache := after.cache, ref := after.ref })

/-- R20, R333, R163: a step that does not address an instance neither writes nor reads it: the instance stays as it is,
and with any other encoder (decoder) in its place, or none, the step does the same.  The pure commands address no
instance. -/
def Obligations.InstancesAreIsolated : Prop :=
  (∀ (s : State) (e : Nat) (x : Option Enc), e < s.encs.length → ¬ UsesEncoder s e →
    (∀ t, step s = .next t → t.encAt e = s.encAt e ∧ step (s.putEnc e x) = .next (t.putEnc e x)) ∧
    (∀ r, step s = .fault r → step (s.putEnc e x) = .fault r) ∧
    (∀ r, step s = .refused r → step (s.putEnc e x) = .refused r)) ∧
  (∀ (s : State) (d : Nat) (x : Option Dec), d < s.decs.length → ¬ UsesDecoder s d →
    (∀ t, step s = .next t → t.decAt d = s.decAt d ∧ step (s.putDec d x) = .next (t.putDec d x)) ∧
    (∀ r, step s = .fault r → step (s.putDec d x) = .fault r) ∧
    (∀ r, step s = .refused r → step (s.putDec d x) = .refused r))

/-- R45, R347: nothing the core does depends on the results it returned before. -/
def Obligations.ResultsAreNeverReadBack : Prop :=
  ∀ (s : State) (rs : List Result),
    (∀ t, step s = .next t → step (withEarlierResults s rs) = .next (withEarlierResults t rs)) ∧
    (∀ r, step s = .fault r → step (withEarlierResults s rs) = .fault r) ∧
    (∀ r, step s = .refused r → step (withEarlierResults s rs) = .refused r)

/-- R302: a FormatError is raised only while a command that parses a byte sequence is in progress or issued. -/
def Obligations.OnlyDecodersRaiseFormatErrors : Prop :=
  ∀ (s t : State) (e : ErrorRec), step s = .next t → t.io.results = s.io.results ++ [.error e] →
    e.code.errorClass = .formatError →
    s.work.phase = .imageHeader ∨ s.work.phase = .imageUnit ∨ (∃ d src, s.work.phase = .containerHeader d src) ∨
      (∃ c, s.work.phase = .frameTag c) ∨ (∃ c, s.work.phase = .frameUnit c) ∨
      (s.work.phase = .idle ∧ ∃ d rest, s.io.pending = .issue (.decNext d) :: rest)

/-- A step runs the decoded instruction: while a command is in progress that reads a token, the bytes that stand next
are decoded and the step is exec of the instruction; where none can be read the command aborts with the error of that
place.  At the end of an image's unit the step is exec of the terminator, whose bytes are not read (DEDUCED from R153
and R154, log entry 18). -/
def Obligations.StepRunsTheDecodedInstruction : Prop :=
  (∀ (s : State) (token : Except DecodeError Instr),
    ((s.work.walking = true ∧
        token = decodeOpcode (s.work.inp.readBytes s.work.ptr (min 5 (s.work.endp - s.work.ptr)))) ∨
      (s.work.phase = .imageHeader ∧ token = decodeAt .image (s.work.inp.readBytes 0 14)) ∨
      ((∃ c, s.work.phase = .frameTag c) ∧ token = decodeAt .tag (s.work.inp.readBytes 0 1)) ∨
      ((∃ d src, s.work.phase = .containerHeader d src) ∧
        token = decodeContainerHeader s.work.pre s.work.inp.toBytes)) →
    (∀ i, token = .ok i → step s = exec i s) ∧
    (∀ e, token = .error e → step s = .next (s.finish (.error (s.work.fetchError e))))) ∧
  (∀ s : State, s.work.phase = .imageUnit → s.work.npx ≤ s.work.i → step s = exec .terminator s)

/-- The bytes of a well-formed opcode that stand at PTR within the region are run as that opcode. -/
def Obligations.EncodedOpcodeAtPtrIsRun : Prop :=
  ∀ (s : State) (i : Instr), s.work.walking = true → i.place = .opcode → i.wellFormed = true →
    s.work.ptr + i.size ≤ s.work.endp → s.work.inp.readBytes s.work.ptr i.size = encode i → step s = exec i s

/-! ### Invariants and headline results -/

/-- The invariant and the canonical form of memory hold at reset. -/
def Obligations.InvariantHoldsAtReset : Prop := State.reset.Inv ∧ State.reset.MemoryWf

/-- Every step keeps every byte space in canonical form, from every state in which they are. -/
def Obligations.EveryStepKeepsMemoryCanonical : Prop :=
  ∀ s t : State, s.MemoryWf → step s = .next t → t.MemoryWf

/-- Every step keeps the invariant: the session states of R22 to R29, the reference dimensions of R213, RUN below 62
(R37), I within the unit (R38), and the output buffer filled up to I (R39).  And every step, from any state, leaves the
parameters MAX_PIXELS and HASH as they are (R7; log entries 2 and 10). -/
def Obligations.EveryStepKeepsTheInvariant : Prop :=
  ∀ s t : State, step s = .next t →
    (s.Inv → t.Inv) ∧ t.maxPixels = s.maxPixels ∧ t.hashParam = s.hashParam

/-- From a state that meets the invariant no step faults, and a step is refused only for a command outside the set of
R335, a DEC_FRAME whose arguments are not well formed (V4, V5, V6), or an instance that does not exist (the model's
choice, log entry 16). -/
def Obligations.GoodStatesNeverFault : Prop :=
  ∀ s : State, s.Inv → Safe (step s) ∧
    ∀ r, step s = .refused r → r = .unknownCommand ∨ r = .badFrameArguments ∨ r = .noSuchInstance

/-- Every command in progress ends with one result after at most NPX + 2 steps of the model, or MAX_PIXELS + 2 in the phase
in which a single image's header, which gives NPX, is still to be read.  The steps are the model's own (DESIGN CHOICE,
log entry 4): to the spec a command is one atomic, untimed step (R8), so the bound says that each command completes, and
nothing of its time. -/
def Obligations.EveryCommandCompletes : Prop :=
  ∀ s : State, s.Inv → s.work.phase ≠ .idle →
    ∃ (k : Nat) (t : State) (r : Result), k ≤ (if s.work.phase = .imageHeader then s.maxPixels else s.work.npx) + 2 ∧
      Host.Core.run core k s = .next t ∧ t.work = Work.idle ∧ t.io.results = s.io.results ++ [r]

/-- R164, R163: ENCODE_IMAGE then DECODE_IMAGE of its result returns the image it was given, and neither command touches
a session. -/
def Obligations.ImageRoundTrip : Prop :=
  ∀ (s : State) (w h : Word) (ch cs : Byte) (pixels : List Byte), s.work = Work.idle →
    channelsLegal ch = true → colorspaceLegal cs = true → pixels.length = bufferLength w h ch →
    pixelCount w h ≤ s.maxPixels →
    ∃ (j k : Nat) (bytes : List Byte),
      Host.Core.run core j (queue s (.encodeImage w h ch cs pixels)) = .next (answered s (.image bytes)) ∧
      Host.Core.run core k (queue s (.decodeImage bytes)) =
        .next (answered s (.decodedImage w h ch cs pixels))

/-- R157, R212, R255: for an open encoder and a whole buffer of pixels there is a frame, of at most 5 bytes a pixel and its
tag, that DEC_FRAME decodes, from the encoder's carried state, to the pixels.  If the blob with it has at most 2^32 - 1
bytes, ENC_FRAME returns that frame and leaves the encoder the cache and the reference DEC_FRAME returns; otherwise it
raises TOO_LARGE and changes no instance. -/
def Obligations.EncoderAndDecoderStaySynchronized : Prop :=
  ∀ (s : State) (e : Nat) (enc : Enc) (kind : FrameKind) (pixels : List Byte), s.Inv → s.work = Work.idle →
    s.encAt e = some enc → enc.mode = .opened → pixels.length = bufferLength enc.w enc.h enc.ch →
    (kind = .predictive → enc.ref ≠ none) →
    ∃ (j k : Nat) (frame : List Byte) (cache : Cache),
      frame.length ≤ 5 * pixelCount enc.w enc.h + 1 ∧
      Host.Core.run core k
          (queue s (.decFrame enc.cache (enc.ref.map Memory.toBytes) enc.w enc.h enc.ch frame)) =
        .next (answered s (.decodedFrame cache pixels pixels)) ∧
      (25 + 4 * (enc.frames.length + 1) + (enc.frames.map List.length).sum + frame.length ≤ 2 ^ 32 - 1 →
        Host.Core.run core j (queue s (.encFrame e kind pixels)) =
          .next (answered (s.putEnc e (some { enc with cache := cache, ref := some (Memory.ofBytes pixels),
                                                       frames := enc.frames ++ [frame] })) (.frame frame))) ∧
      (25 + 4 * (enc.frames.length + 1) + (enc.frames.map List.length).sum + frame.length > 2 ^ 32 - 1 →
        Host.Core.run core j (queue s (.encFrame e kind pixels)) =
          .next (answered s (.error ⟨.tooLarge, none⟩)))

/-- R264, R235: the container ENC_FLUSH returns opens in any decoder, with one offset per frame, and every frame span has
exactly the bytes of the frame ENC_FRAME appended. -/
def Obligations.FlushedContainerOpensWithItsFrames : Prop :=
  ∀ (s : State) (e d : Nat) (enc : Enc) (before : Dec), s.Inv → s.work = Work.idle → s.encAt e = some enc →
    enc.mode = .opened → s.decAt d = some before → s.io.replies = [] →
    ∃ (t u : State) (dec : Dec),
      Host.Core.run core 1 (queue s (.encFlush e)) = .next t ∧ t.io.results = s.io.results ++ [.blob enc.blob] ∧
      Host.Core.run core 2 (queue t (.decOpen d ⟨enc.blob, enc.blob.length⟩)) = .next u ∧
      u.io.results = t.io.results ++ [.opened enc.w enc.h enc.ch enc.fr (BitVec.ofNat 32 enc.frames.length)] ∧
      u.decAt d = some dec ∧ dec.isFresh = true ∧ dec.n.toNat = enc.frames.length ∧
      dec.off.length = enc.frames.length ∧
      ∀ (k : Nat) (f : List Byte), enc.frames[k]? = some f →
        ∃ (a : Word) (b : Nat), dec.off[k]? = some a ∧ dec.spanEnd k = some b ∧
          (enc.blob.drop a.toNat).take (b - a.toNat) = f
end

