-- ==== Sys2Proof/Laws/Memory.lean ====
section
/-! SUPPORT. The laws of the byte spaces and of the colour cache: a read after a write, what a write leaves alone, and
that every operation keeps the canonical form. -/

namespace Sys2Proof.Machine

/-! ### Read after write -/

@[simp] theorem Memory.readByte_nil (a : Nat) : Memory.readByte [] a = none := rfl

theorem Memory.readByte_writeByte (m : Memory) (a x : Nat) (b : Byte) :
    (m.writeByte a b).readByte x = if x = a then some b else m.readByte x := by
  induction m with
  | nil => simp [Memory.writeByte, Memory.readByte, eq_comm]
  | cons c m ih =>
    obtain ⟨k, c⟩ := c
    simp only [Memory.writeByte]
    split_ifs with h1 h2 h3 h3 <;> simp only [Memory.readByte, ih] <;> split_ifs <;> first | rfl | omega

theorem Memory.readByte_writeBytes (m : Memory) (a x : Nat) (bs : List Byte) :
    (m.writeBytes a bs).readByte x =
      if a ≤ x ∧ x < a + bs.length then bs[x - a]? else m.readByte x := by
  induction bs generalizing m a with
  | nil => simp [Memory.writeBytes]
  | cons b bs ih =>
    rw [Memory.writeBytes, ih, Memory.readByte_writeByte]
    by_cases hx : x = a
    · subst hx; simp
    · by_cases h : a + 1 ≤ x ∧ x < a + 1 + bs.length
      · obtain ⟨d, rfl⟩ := Nat.exists_eq_add_of_le h.1
        simp [show a + 1 + d - (a + 1) = d by omega, show a + 1 + d - a = d + 1 by omega,
          show a + 1 + d < a + 1 + bs.length by omega, show a + 1 + d < a + (bs.length + 1) by omega,
          show a ≤ a + 1 + d by omega]
      · rw [if_neg h, if_neg hx, if_neg (by simp only [List.length_cons]; omega)]

theorem Memory.readByte_ofBytesAt (a x : Nat) (bs : List Byte) :
    (Memory.ofBytesAt a bs).readByte x = if a ≤ x then bs[x - a]? else none := by
  induction bs generalizing a with
  | nil => simp [Memory.ofBytesAt]
  | cons b bs ih =>
    rw [Memory.ofBytesAt, Memory.readByte, ih]
    rcases Nat.lt_trichotomy x a with h | rfl | h
    · rw [if_neg (by omega), if_neg (by omega), if_neg (by omega)]
    · simp
    · obtain ⟨d, rfl⟩ := Nat.exists_eq_add_of_lt h
      simp [show a + d + 1 - (a + 1) = d by omega, show a + d + 1 - a = d + 1 by omega,
        show a ≠ a + d + 1 by omega, show a + 1 ≤ a + d + 1 by omega, show a ≤ a + d + 1 by omega]

@[simp] theorem Memory.readByte_ofBytes (x : Nat) (bs : List Byte) : (Memory.ofBytes bs).readByte x = bs[x]? := by
  simp [Memory.ofBytes, Memory.readByte_ofBytesAt]

/-! ### The canonical form -/

theorem Memory.mem_writeByte {m : Memory} {a : Nat} {b : Byte} {c : Host.Cell} (h : c ∈ m.writeByte a b) :
    c = (a, b) ∨ c ∈ m := by
  induction m with
  | nil => simpa [Memory.writeByte] using h
  | cons d m ih =>
    obtain ⟨k, d⟩ := d
    simp only [Memory.writeByte] at h
    split_ifs at h <;> simp only [List.mem_cons] at h ⊢ <;> tauto

theorem Memory.wf_writeByte {m : Memory} (hm : m.wf) (a : Nat) (b : Byte) : (m.writeByte a b).wf := by
  induction m with
  | nil => simp [Memory.writeByte]
  | cons c m ih =>
    obtain ⟨k, c⟩ := c
    simp only [Memory.wf, List.pairwise_cons] at hm
    simp only [Memory.writeByte]
    split_ifs with h1 h2
    · simp only [Memory.wf, List.pairwise_cons, List.mem_cons]
      refine ⟨?_, hm⟩
      rintro x (rfl | hx)
      · exact h1
      · exact h1.trans (hm.1 x hx)
    · subst h2
      simpa only [Memory.wf, List.pairwise_cons] using hm
    · simp only [Memory.wf, List.pairwise_cons]
      refine ⟨fun x hx => ?_, ih hm.2⟩
      rcases Memory.mem_writeByte hx with rfl | hx
      · show k < a; omega
      · exact hm.1 x hx

theorem Memory.wf_writeBytes {m : Memory} (hm : m.wf) (a : Nat) (bs : List Byte) : (m.writeBytes a bs).wf := by
  induction bs generalizing m a with
  | nil => exact hm
  | cons b bs ih => exact ih (Memory.wf_writeByte hm a b) (a + 1)

theorem Memory.le_of_mem_ofBytesAt {a : Nat} {bs : List Byte} {c : Host.Cell} (h : c ∈ Memory.ofBytesAt a bs) :
    a ≤ c.1 := by
  induction bs generalizing a with
  | nil => simp [Memory.ofBytesAt] at h
  | cons b bs ih =>
    rcases List.mem_cons.1 h with rfl | h
    · exact le_rfl
    · exact (Nat.le_succ a).trans (ih h)

theorem Memory.wf_ofBytesAt (a : Nat) (bs : List Byte) : (Memory.ofBytesAt a bs).wf := by
  induction bs generalizing a with
  | nil => exact List.Pairwise.nil
  | cons b bs ih =>
    exact List.pairwise_cons.2 ⟨fun c hc => Memory.le_of_mem_ofBytesAt hc, ih (a + 1)⟩

theorem Memory.wf_ofBytes (bs : List Byte) : (Memory.ofBytes bs).wf := Memory.wf_ofBytesAt 0 bs

theorem Memory.wf_emit {m : Memory} (hm : m.wf) (bs : List Byte) : (m.emit bs).wf :=
  Memory.wf_writeBytes hm m.size bs

theorem Memory.wf_writePixel {m : Memory} (hm : m.wf) (ch : Byte) (i : Nat) (p : Px) : (m.writePixel ch i p).wf :=
  Memory.wf_writeBytes hm (i * ch.toNat) (pixelBytes ch p)

/-- The memories of the reset state are in canonical form. -/
theorem Memory.wf_reset : State.reset.work.inp.wf ∧ State.reset.work.out.wf ∧ State.reset.work.ref = none ∧
    State.reset.encs = [some Enc.reset] ∧ State.reset.decs = [some Dec.reset] ∧ Enc.reset.ref = none ∧
    Dec.reset.ref = none := ⟨List.Pairwise.nil, List.Pairwise.nil, rfl, rfl, rfl, rfl, rfl⟩

/-! ### Byte sequences as spaces -/

@[simp] theorem Memory.toBytes_ofBytesAt (a : Nat) (bs : List Byte) : (Memory.ofBytesAt a bs).toBytes = bs := by
  induction bs generalizing a with
  | nil => rfl
  | cons b bs ih => simpa [Memory.ofBytesAt, Memory.toBytes] using ih (a + 1)

@[simp] theorem Memory.toBytes_ofBytes (bs : List Byte) : (Memory.ofBytes bs).toBytes = bs :=
  Memory.toBytes_ofBytesAt 0 bs

theorem Memory.size_ofBytesAt (a : Nat) (b : Byte) (bs : List Byte) :
    (Memory.ofBytesAt a (b :: bs)).size = a + bs.length + 1 := by
  induction bs generalizing a b with
  | nil => rfl
  | cons c bs ih =>
    rw [show Memory.ofBytesAt a (b :: c :: bs) = (a, b) :: Memory.ofBytesAt (a + 1) (c :: bs) from rfl]
    rw [show Memory.ofBytesAt (a + 1) (c :: bs) = (a + 1, c) :: Memory.ofBytesAt (a + 1 + 1) bs from rfl]
    rw [Memory.size, ← show Memory.ofBytesAt (a + 1) (c :: bs) = (a + 1, c) :: Memory.ofBytesAt (a + 1 + 1) bs from rfl,
      ih (a + 1) c]
    simp only [List.length_cons]; omega

@[simp] theorem Memory.size_ofBytes (bs : List Byte) : (Memory.ofBytes bs).size = bs.length := by
  cases bs with
  | nil => rfl
  | cons b bs => rw [Memory.ofBytes, Memory.size_ofBytesAt, List.length_cons, Nat.zero_add]

theorem Memory.writeByte_ofBytesAt_end (a : Nat) (bs : List Byte) (b : Byte) :
    (Memory.ofBytesAt a bs).writeByte (a + bs.length) b = Memory.ofBytesAt a (bs ++ [b]) := by
  induction bs generalizing a with
  | nil => simp [Memory.ofBytesAt, Memory.writeByte]
  | cons c bs ih =>
    simp only [Memory.ofBytesAt, Memory.writeByte, List.length_cons, List.cons_append]
    rw [if_neg (by omega), if_neg (by omega), ← ih (a + 1)]
    congr 2; omega

/-- Bytes written at the end of a byte sequence are appended to it. -/
theorem Memory.writeBytes_ofBytes_end (bs cs : List Byte) :
    (Memory.ofBytes bs).writeBytes bs.length cs = Memory.ofBytes (bs ++ cs) := by
  induction cs generalizing bs with
  | nil => simp [Memory.writeBytes]
  | cons c cs ih =>
    have h := Memory.writeByte_ofBytesAt_end 0 bs c
    rw [Nat.zero_add] at h
    rw [Memory.writeBytes, Memory.ofBytes, h]
    simpa [Memory.ofBytes] using ih (bs ++ [c])

/-- `Emit` appends. -/
@[simp] theorem Memory.emit_ofBytes (bs cs : List Byte) :
    (Memory.ofBytes bs).emit cs = Memory.ofBytes (bs ++ cs) := by
  rw [Memory.emit, Memory.size_ofBytes, Memory.writeBytes_ofBytes_end]

theorem Memory.readBytes_ofBytes (bs : List Byte) (a n : Nat) :
    (Memory.ofBytes bs).readBytes a n = (bs.drop a).take n := by
  induction n generalizing a with
  | zero => simp [Memory.readBytes]
  | succ n ih =>
    rw [Memory.readBytes, Memory.readByte_ofBytes]
    rcases h : bs[a]? with _ | b
    · simp [List.getElem?_eq_none_iff.1 h]
    · obtain ⟨hlt, rfl⟩ := List.getElem?_eq_some_iff.1 h
      rw [List.drop_eq_getElem_cons hlt, List.take_succ_cons, ih]

/-! ### The colour cache -/

theorem cacheRead_cacheWrite (c : Cache) (k j : Slot) (p : Px) :
    cacheRead (cacheWrite c k p) j = if j = k then p else cacheRead c j := by
  simp only [cacheRead, cacheWrite, Vector.get_eq_getElem, Vector.getElem_set]
  by_cases h : j = k
  · subst h; simp
  · rw [if_neg h, if_neg]
    intro hk
    exact h (BitVec.eq_of_toNat_eq hk.symm)

@[simp] theorem cacheRead_zero (k : Slot) : cacheRead Cache.zero k = Px.zero := by
  simp [cacheRead, Cache.zero, Vector.get_eq_getElem]

end Sys2Proof.Machine
end

