-- ==== Sys2Proof/Laws/State.lean ====
section
/-! SUPPORT. What each update of the state leaves in each field, by unfolding alone, so that no later proof unfolds a
record update. -/

namespace Sys2Proof.Machine

/-! ### `State.finish` and `State.abort` -/

@[simp] theorem State.finish_encs (s : State) (r : Result) : (s.finish r).encs = s.encs := rfl
@[simp] theorem State.finish_decs (s : State) (r : Result) : (s.finish r).decs = s.decs := rfl
@[simp] theorem State.finish_work (s : State) (r : Result) : (s.finish r).work = Work.idle := rfl
@[simp] theorem State.finish_maxPixels (s : State) (r : Result) : (s.finish r).maxPixels = s.maxPixels := rfl
@[simp] theorem State.finish_hashParam (s : State) (r : Result) : (s.finish r).hashParam = s.hashParam := rfl
@[simp] theorem State.finish_pending (s : State) (r : Result) : (s.finish r).io.pending = s.io.pending := rfl
@[simp] theorem State.finish_replies (s : State) (r : Result) : (s.finish r).io.replies = s.io.replies := rfl
@[simp] theorem State.finish_results (s : State) (r : Result) : (s.finish r).io.results = s.io.results ++ [r] := rfl

@[simp] theorem State.abort_encs (s : State) (c : ErrorCode) (n : Option Nat) : (s.abort c n).encs = s.encs := rfl
@[simp] theorem State.abort_decs (s : State) (c : ErrorCode) (n : Option Nat) : (s.abort c n).decs = s.decs := rfl
@[simp] theorem State.abort_work (s : State) (c : ErrorCode) (n : Option Nat) : (s.abort c n).work = Work.idle := rfl
@[simp] theorem State.abort_maxPixels (s : State) (c : ErrorCode) (n : Option Nat) :
    (s.abort c n).maxPixels = s.maxPixels := rfl
@[simp] theorem State.abort_hashParam (s : State) (c : ErrorCode) (n : Option Nat) :
    (s.abort c n).hashParam = s.hashParam := rfl
@[simp] theorem State.abort_pending (s : State) (c : ErrorCode) (n : Option Nat) :
    (s.abort c n).io.pending = s.io.pending := rfl
@[simp] theorem State.abort_replies (s : State) (c : ErrorCode) (n : Option Nat) :
    (s.abort c n).io.replies = s.io.replies := rfl
@[simp] theorem State.abort_results (s : State) (c : ErrorCode) (n : Option Nat) :
    (s.abort c n).io.results = s.io.results ++ [.error ⟨c, n⟩] := rfl

/-! ### `State.putEnc` and `State.putDec` -/

section putEnc
variable (s : State) (e : Nat) (x : Option Enc)

@[simp] theorem State.putEnc_encs : (s.putEnc e x).encs = s.encs.set e x := rfl
@[simp] theorem State.putEnc_decs : (s.putEnc e x).decs = s.decs := rfl
@[simp] theorem State.putEnc_work : (s.putEnc e x).work = s.work := rfl
@[simp] theorem State.putEnc_io : (s.putEnc e x).io = s.io := rfl
@[simp] theorem State.putEnc_maxPixels : (s.putEnc e x).maxPixels = s.maxPixels := rfl
@[simp] theorem State.putEnc_hashParam : (s.putEnc e x).hashParam = s.hashParam := rfl

end putEnc

section putDec
variable (s : State) (d : Nat) (x : Option Dec)

@[simp] theorem State.putDec_decs : (s.putDec d x).decs = s.decs.set d x := rfl
@[simp] theorem State.putDec_encs : (s.putDec d x).encs = s.encs := rfl
@[simp] theorem State.putDec_work : (s.putDec d x).work = s.work := rfl
@[simp] theorem State.putDec_io : (s.putDec d x).io = s.io := rfl
@[simp] theorem State.putDec_maxPixels : (s.putDec d x).maxPixels = s.maxPixels := rfl
@[simp] theorem State.putDec_hashParam : (s.putDec d x).hashParam = s.hashParam := rfl

end putDec

/-! ### The working registers -/

@[simp] theorem Work.emit1_i (wk : Work) (p : Px) : (wk.emit1 p).i = wk.i + 1 := rfl
@[simp] theorem Work.emit1_prev (wk : Work) (p : Px) : (wk.emit1 p).prev = p := rfl
@[simp] theorem Work.emit1_out (wk : Work) (p : Px) : (wk.emit1 p).out = wk.out.writePixel wk.ch wk.i p := rfl
@[simp] theorem Work.emit1_ptr (wk : Work) (p : Px) : (wk.emit1 p).ptr = wk.ptr := rfl
@[simp] theorem Work.emit1_endp (wk : Work) (p : Px) : (wk.emit1 p).endp = wk.endp := rfl
@[simp] theorem Work.emit1_phase (wk : Work) (p : Px) : (wk.emit1 p).phase = wk.phase := rfl
@[simp] theorem Work.emit1_kind (wk : Work) (p : Px) : (wk.emit1 p).kind = wk.kind := rfl
@[simp] theorem Work.emit1_wcache (wk : Work) (p : Px) : (wk.emit1 p).wcache = wk.wcache := rfl
@[simp] theorem Work.emit1_run (wk : Work) (p : Px) : (wk.emit1 p).run = wk.run := rfl
@[simp] theorem Work.emit1_ref (wk : Work) (p : Px) : (wk.emit1 p).ref = wk.ref := rfl
@[simp] theorem Work.emit1_ch (wk : Work) (p : Px) : (wk.emit1 p).ch = wk.ch := rfl
@[simp] theorem Work.emit1_inp (wk : Work) (p : Px) : (wk.emit1 p).inp = wk.inp := rfl
@[simp] theorem Work.emit1_w (wk : Work) (p : Px) : (wk.emit1 p).w = wk.w := rfl
@[simp] theorem Work.emit1_h (wk : Work) (p : Px) : (wk.emit1 p).h = wk.h := rfl
@[simp] theorem Work.emit1_cs (wk : Work) (p : Px) : (wk.emit1 p).cs = wk.cs := rfl
@[simp] theorem Work.emit1_base (wk : Work) (p : Px) : (wk.emit1 p).base = wk.base := rfl
@[simp] theorem Work.emit1_npx (wk : Work) (p : Px) : (wk.emit1 p).npx = wk.npx := rfl

section remember
variable (wk : Work) (hashOf : Px → Slot) (p : Px)

@[simp] theorem Work.remember_wcache :
    (wk.remember hashOf p).wcache = cacheWrite wk.wcache (hashOf p) p := rfl
@[simp] theorem Work.remember_i : (wk.remember hashOf p).i = wk.i := rfl
@[simp] theorem Work.remember_prev : (wk.remember hashOf p).prev = wk.prev := rfl
@[simp] theorem Work.remember_out : (wk.remember hashOf p).out = wk.out := rfl
@[simp] theorem Work.remember_ptr : (wk.remember hashOf p).ptr = wk.ptr := rfl
@[simp] theorem Work.remember_ch : (wk.remember hashOf p).ch = wk.ch := rfl
@[simp] theorem Work.remember_phase : (wk.remember hashOf p).phase = wk.phase := rfl
@[simp] theorem Work.remember_npx : (wk.remember hashOf p).npx = wk.npx := rfl

end remember

@[simp] theorem Work.emit_out (wk : Work) (i : Instr) : (wk.emit i).out = wk.out.emit (encode i) := rfl
@[simp] theorem Work.emit_i (wk : Work) (i : Instr) : (wk.emit i).i = wk.i := rfl
@[simp] theorem Work.emit_run (wk : Work) (i : Instr) : (wk.emit i).run = wk.run := rfl
@[simp] theorem Work.emit_prev (wk : Work) (i : Instr) : (wk.emit i).prev = wk.prev := rfl
@[simp] theorem Work.emit_wcache (wk : Work) (i : Instr) : (wk.emit i).wcache = wk.wcache := rfl
@[simp] theorem Work.emit_npx (wk : Work) (i : Instr) : (wk.emit i).npx = wk.npx := rfl

@[simp] theorem Work.flushRun_run (wk : Work) : wk.flushRun.run = 0 := rfl
@[simp] theorem Work.flushRun_out (wk : Work) : wk.flushRun.out = wk.out.emit (encode (.run wk.run)) := rfl
@[simp] theorem Work.flushRun_i (wk : Work) : wk.flushRun.i = wk.i := rfl
@[simp] theorem Work.flushRun_wcache (wk : Work) : wk.flushRun.wcache = wk.wcache := rfl

@[simp] theorem Work.encodePixel_i (wk : Work) (hashOf : Px → Slot) (pr cur : Px) :
    (wk.encodePixel hashOf pr cur).i = wk.i + 1 := rfl
@[simp] theorem Work.encodePixel_prev (wk : Work) (hashOf : Px → Slot) (pr cur : Px) :
    (wk.encodePixel hashOf pr cur).prev = cur := rfl

section startUnit
variable (wk : Work) (phase : Phase) (kind : FrameKind) (ptr endp : Nat) (cache : Cache) (ref : Option Memory)

@[simp] theorem Work.startUnit_phase : (wk.startUnit phase kind ptr endp cache ref).phase = phase := rfl
@[simp] theorem Work.startUnit_kind : (wk.startUnit phase kind ptr endp cache ref).kind = kind := rfl
@[simp] theorem Work.startUnit_prev : (wk.startUnit phase kind ptr endp cache ref).prev = Px.start := rfl
@[simp] theorem Work.startUnit_run : (wk.startUnit phase kind ptr endp cache ref).run = 0 := rfl
@[simp] theorem Work.startUnit_i : (wk.startUnit phase kind ptr endp cache ref).i = 0 := rfl
@[simp] theorem Work.startUnit_ptr : (wk.startUnit phase kind ptr endp cache ref).ptr = ptr := rfl
@[simp] theorem Work.startUnit_endp : (wk.startUnit phase kind ptr endp cache ref).endp = endp := rfl
@[simp] theorem Work.startUnit_wcache : (wk.startUnit phase kind ptr endp cache ref).wcache = cache := rfl
@[simp] theorem Work.startUnit_ref : (wk.startUnit phase kind ptr endp cache ref).ref = ref := rfl
@[simp] theorem Work.startUnit_out : (wk.startUnit phase kind ptr endp cache ref).out = [] := rfl
@[simp] theorem Work.startUnit_inp : (wk.startUnit phase kind ptr endp cache ref).inp = wk.inp := rfl
@[simp] theorem Work.startUnit_w : (wk.startUnit phase kind ptr endp cache ref).w = wk.w := rfl
@[simp] theorem Work.startUnit_h : (wk.startUnit phase kind ptr endp cache ref).h = wk.h := rfl
@[simp] theorem Work.startUnit_ch : (wk.startUnit phase kind ptr endp cache ref).ch = wk.ch := rfl
@[simp] theorem Work.startUnit_cs : (wk.startUnit phase kind ptr endp cache ref).cs = wk.cs := rfl
@[simp] theorem Work.startUnit_base : (wk.startUnit phase kind ptr endp cache ref).base = wk.base := rfl
@[simp] theorem Work.startUnit_npx : (wk.startUnit phase kind ptr endp cache ref).npx = wk.npx := rfl

end startUnit

end Sys2Proof.Machine
end

