-- ==== Sys2Proof/Laws/Ops.lean ====
section
/-! SUPPORT. One lemma per shared operation that says everything it can do, cited in place of unfolding it. -/

namespace Sys2Proof.Machine

/-- Everything a one-pixel opcode can do. -/
theorem State.onePixel_cases (s : State) (n : Nat) (writes : Bool) (px : Option Px) :
    (s.work.walking = false ∧ s.onePixel n writes px = .refused .tokenOutOfPlace) ∨
    (s.work.walking = true ∧ s.work.endp < s.work.ptr + n ∧ s.onePixel n writes px = .next s.abortTruncated) ∨
    (s.work.walking = true ∧ s.work.ptr + n ≤ s.work.endp ∧ px = none ∧
      s.onePixel n writes px = .fault .absentReference) ∨
    (s.work.walking = true ∧ s.work.ptr + n ≤ s.work.endp ∧ ∃ p, px = some p ∧
      s.onePixel n writes px =
        .next { s with work := { (if writes then s.work.remember s.hash p else s.work).emit1 p with ptr := s.work.ptr + n } }) := by
  unfold State.onePixel
  cases hw : s.work.walking
  · exact .inl ⟨rfl, rfl⟩
  · by_cases hp : s.work.ptr + n ≤ s.work.endp
    · cases px with
      | none => exact .inr (.inr (.inl ⟨rfl, hp, rfl, by simp [hp]⟩))
      | some p => exact .inr (.inr (.inr ⟨rfl, hp, p, rfl, by simp [hp]⟩))
    · exact .inr (.inl ⟨rfl, Nat.lt_of_not_le hp, by simp [hp]⟩)

/-- A run changes PREV, I and OUT alone, and advances I by its length. -/
theorem Work.emitRun_frame {n : Nat} {wk wk' : Work} (h : wk.emitRun n = some wk') :
    wk' = { wk with prev := wk'.prev, i := wk.i + n, out := wk'.out } := by
  induction n generalizing wk with
  | zero => cases h; rfl
  | succ n ih =>
    obtain ⟨p, -, h⟩ := Option.bind_eq_some_iff.1 h
    have := ih h
    simp only [Work.emit1] at this
    rw [this]
    simp [Nat.add_assoc, Nat.add_comm 1 n]

/-- In an INTRA unit a run always exists, and every pixel of it is PREV. -/
theorem Work.emitRun_intra {n : Nat} {wk : Work} (h : wk.kind = .intra) :
    ∃ wk', wk.emitRun n = some wk' ∧ wk'.prev = wk.prev := by
  induction n generalizing wk with
  | zero => exact ⟨wk, rfl, rfl⟩
  | succ n ih =>
    obtain ⟨wk', h', hp⟩ := ih (wk := wk.emit1 wk.prev) (by simpa using h)
    exact ⟨wk', by simp [Work.emitRun, Work.pred, h, h'], by simpa using hp⟩

/-- A run keeps the canonical form of OUT. -/
theorem Work.emitRun_wf {n : Nat} {wk wk' : Work} (h : wk.emitRun n = some wk') (hw : wk.out.wf) : wk'.out.wf := by
  induction n generalizing wk with
  | zero => cases h; exact hw
  | succ n ih =>
    obtain ⟨p, -, h⟩ := Option.bind_eq_some_iff.1 h
    exact ih h (Memory.wf_writePixel hw _ _ _)

/-- Coding one pixel changes PREV, RUN, I, WCACHE and OUT alone. -/
theorem Work.encodePixel_frame (wk : Work) (hashOf : Px → Slot) (pr cur : Px) :
    wk.encodePixel hashOf pr cur =
      { wk with prev := cur, i := wk.i + 1, run := (wk.encodePixel hashOf pr cur).run,
                wcache := (wk.encodePixel hashOf pr cur).wcache, out := (wk.encodePixel hashOf pr cur).out } := by
  unfold Work.encodePixel Work.absorb Work.codePixel Work.flushRun Work.emit
  split_ifs <;> rfl

/-- Coding one pixel keeps the canonical form of OUT. -/
theorem Work.encodePixel_wf {wk : Work} (h : wk.out.wf) (hashOf : Px → Slot) (pr cur : Px) :
    (wk.encodePixel hashOf pr cur).out.wf := by
  unfold Work.encodePixel Work.absorb Work.codePixel Work.flushRun Work.emit
  split_ifs <;> first | exact h | exact Memory.wf_emit h _ | exact Memory.wf_emit (Memory.wf_emit h _) _

/-! ### The instances -/

theorem State.encAt_lt {s : State} {e : Nat} {enc : Enc} (h : s.encAt e = some enc) : e < s.encs.length := by
  by_contra hlt
  simp [State.encAt, List.getElem?_eq_none (Nat.not_lt.1 hlt)] at h

theorem State.decAt_lt {s : State} {d : Nat} {dec : Dec} (h : s.decAt d = some dec) : d < s.decs.length := by
  by_contra hlt
  simp [State.decAt, List.getElem?_eq_none (Nat.not_lt.1 hlt)] at h

/-- A replaced encoder reads as its new value, and every other one as before (R333). -/
theorem State.encAt_putEnc (s : State) (e k : Nat) (x : Option Enc) :
    (s.putEnc e x).encAt k = if k = e ∧ e < s.encs.length then x else s.encAt k := by
  simp only [State.encAt, State.putEnc_encs, List.getD_eq_getElem?_getD, List.getElem?_set]
  by_cases hk : k = e
  · subst hk
    by_cases hl : k < s.encs.length <;> simp [hl]
  · simp [hk, Ne.symm hk]

/-- A replaced decoder reads as its new value, and every other one as before (R333). -/
theorem State.decAt_putDec (s : State) (d k : Nat) (x : Option Dec) :
    (s.putDec d x).decAt k = if k = d ∧ d < s.decs.length then x else s.decAt k := by
  simp only [State.decAt, State.putDec_decs, List.getD_eq_getElem?_getD, List.getElem?_set]
  by_cases hk : k = d
  · subst hk
    by_cases hl : k < s.decs.length <;> simp [hl]
  · simp [hk, Ne.symm hk]

@[simp] theorem State.decAt_putEnc (s : State) (e d : Nat) (x : Option Enc) : (s.putEnc e x).decAt d = s.decAt d := rfl
@[simp] theorem State.encAt_putDec (s : State) (d e : Nat) (x : Option Dec) : (s.putDec d x).encAt e = s.encAt e := rfl
@[simp] theorem State.encAt_finish (s : State) (r : Result) (e : Nat) : (s.finish r).encAt e = s.encAt e := rfl
@[simp] theorem State.decAt_finish (s : State) (r : Result) (d : Nat) : (s.finish r).decAt d = s.decAt d := rfl

section updates
variable (s : State) (wk : Work) (io : HostSide) (k : Nat)

@[simp] theorem State.encAt_work : ({ s with work := wk } : State).encAt k = s.encAt k := rfl
@[simp] theorem State.decAt_work : ({ s with work := wk } : State).decAt k = s.decAt k := rfl
@[simp] theorem State.hash_work : ({ s with work := wk } : State).hash = s.hash := rfl
@[simp] theorem State.encAt_io : ({ s with io := io } : State).encAt k = s.encAt k := rfl
@[simp] theorem State.decAt_io : ({ s with io := io } : State).decAt k = s.decAt k := rfl
@[simp] theorem State.hash_io : ({ s with io := io } : State).hash = s.hash := rfl

end updates

theorem State.onEnc_some {s : State} {e : Nat} {enc : Enc} (h : s.encAt e = some enc)
    (f : Enc → Host.Outcome State Fault Refusal) : s.onEnc e f = f enc := by
  simp [State.onEnc, h]

theorem State.onDec_some {s : State} {d : Nat} {dec : Dec} (h : s.decAt d = some dec)
    (f : Dec → Host.Outcome State Fault Refusal) : s.onDec d f = f dec := by
  simp [State.onDec, h]

/-- Everything a command to encoder e can do: it is refused where e does not exist, else it does `f`. -/
theorem State.onEnc_cases (s : State) (e : Nat) (f : Enc → Host.Outcome State Fault Refusal) :
    (s.encAt e = none ∧ s.onEnc e f = .refused .noSuchInstance) ∨
    (∃ enc, s.encAt e = some enc ∧ s.onEnc e f = f enc) := by
  unfold State.onEnc
  rcases s.encAt e with _ | enc
  · exact .inl ⟨rfl, rfl⟩
  · exact .inr ⟨enc, rfl, rfl⟩

/-- Everything a command to decoder d can do: it is refused where d does not exist, else it does `f`. -/
theorem State.onDec_cases (s : State) (d : Nat) (f : Dec → Host.Outcome State Fault Refusal) :
    (s.decAt d = none ∧ s.onDec d f = .refused .noSuchInstance) ∨
    (∃ dec, s.decAt d = some dec ∧ s.onDec d f = f dec) := by
  unfold State.onDec
  rcases s.decAt d with _ | dec
  · exact .inl ⟨rfl, rfl⟩
  · exact .inr ⟨dec, rfl, rfl⟩

/-! ### Source reads -/

/-- A read of the source changes the queued replies alone, and only by taking the first. -/
theorem State.readPrefix_frame (s : State) (src : Source) (n : Nat) :
    (s.readPrefix src n).2 = { s with io := { s.io with replies := s.io.replies.tail } } := by
  obtain ⟨encs, decs, work, ⟨pending, results, replies⟩, maxPixels, hashParam⟩ := s
  cases replies <;> rfl

theorem State.readRange_frame (s : State) (src : Source) (a b : Nat) :
    (s.readRange src a b).2 = { s with io := { s.io with replies := s.io.replies.tail } } := by
  obtain ⟨encs, decs, work, ⟨pending, results, replies⟩, maxPixels, hashParam⟩ := s
  cases replies <;> rfl

/-- With no queued reply, a read gives the bytes of the source (R330). -/
theorem State.readPrefix_stable {s : State} (h : s.io.replies = []) (src : Source) (n : Nat) :
    s.readPrefix src n = (src.bytes.take n, s) := by
  simp [State.readPrefix, h]

theorem State.readRange_stable {s : State} (h : s.io.replies = []) (src : Source) (a b : Nat) :
    s.readRange src a b = ((src.bytes.drop a).take (b - a), s) := by
  simp [State.readRange, h]

/-- Everything one token does: it cannot be read and the command aborts, or it runs. -/
theorem tokenStep_cases (s : State) :
    (s.work.fetch = none ∧ tokenStep s = .refused .tokenOutOfPlace) ∨
    (∃ e, s.work.fetch = some (.error e) ∧ tokenStep s = .next (s.finish (.error (s.work.fetchError e)))) ∨
    (∃ i, s.work.fetch = some (.ok i) ∧ tokenStep s = exec i s) := by
  unfold tokenStep
  rcases s.work.fetch with _ | e | i
  · exact .inl ⟨rfl, rfl⟩
  · exact .inr (.inl ⟨e, rfl, rfl⟩)
  · exact .inr (.inr ⟨i, rfl, rfl⟩)

/-- The bytes read of the opcode region never pass its end. -/
theorem Work.opcodeWindow_length (wk : Work) : wk.opcodeWindow.length ≤ wk.endp - wk.ptr := by
  have h : ∀ (m : Memory) (n a : Nat), (m.readBytes a n).length ≤ n := by
    intro m n
    induction n with
    | zero => intro a; simp [Memory.readBytes]
    | succ n ih =>
      intro a
      rw [Memory.readBytes]
      cases m.readByte a with
      | none => simp
      | some b => simpa using ih (a + 1)
  exact (h _ _ _).trans (min_le_right _ _)

end Sys2Proof.Machine
end

