-- ==== Sys2Proof/Laws/PerInstr.lean ====
section
/-! SUPPORT. A law of every instruction as syntax, one lemma per constructor: the encoding has the length R90 and
R110 to R113 give it. -/

namespace Sys2Proof.Laws.EncodedSize

/-- The encoding of an instruction has as many bytes as its size says. -/
def Statement (i : Instr) : Prop := (encode i).length = i.size

theorem index (k : Slot) : Statement (.index k) := rfl
theorem diff (dr dg db : Int) : Statement (.diff dr dg db) := rfl
theorem luma (dg drg dbg : Int) : Statement (.luma dg drg dbg) := rfl
theorem run (n : Nat) : Statement (.run n) := rfl
theorem rgb (r g b : Byte) : Statement (.rgb r g b) := rfl
theorem rgba (r g b a : Byte) : Statement (.rgba r g b a) := rfl
theorem frameIntra : Statement .frameIntra := rfl
theorem framePred : Statement .framePred := rfl
theorem qoif (w h : Word) (ch cs : Byte) : Statement (.qoif w h ch cs) := rfl
theorem terminator : Statement .terminator := rfl

theorem qov1 (hs w h fr : Word) (ch : Byte) (n : Word) (offs : List Word) :
    Statement (.qov1 hs w h fr ch n offs) := by
  have hb : (offs.flatMap be32).length = 4 * offs.length := by
    induction offs with
    | nil => rfl
    | cons o offs ih => rw [List.flatMap_cons, List.length_append, ih, List.length_cons]; simp only [be32, List.length_cons, List.length_nil]; omega
  simp only [Statement, encode, Instr.size, List.length_append, hb]
  rfl

end Sys2Proof.Laws.EncodedSize
end

