-- ==== Sys2Proof/Laws/Step.lean ====
section
/-! SUPPORT. The step of each phase, one equation each, and the laws of a run. -/

namespace Sys2Proof.Machine

theorem step_idle {s : State} (h : s.work.phase = .idle) : step s = hostStep s := by simp [step, h]

theorem step_imageHeader {s : State} (h : s.work.phase = .imageHeader) : step s = tokenStep s := by simp [step, h]

theorem step_containerHeader {s : State} {d : Nat} {src : Source} (h : s.work.phase = .containerHeader d src) :
    step s = tokenStep s := by simp [step, h]

theorem step_frameTag {s : State} {c : FrameCaller} (h : s.work.phase = .frameTag c) : step s = tokenStep s := by
  simp [step, h]

/-- While a coding unit is being decoded, a step reads and runs one opcode. -/
theorem step_walking {s : State} (h : s.work.walking = true) : step s = tokenStep s := by
  unfold Work.walking at h
  split at h <;> simp_all [step]

theorem step_imageUnit_end {s : State} (h : s.work.phase = .imageUnit) (hi : s.work.npx ≤ s.work.i) :
    step s = execTerminator s := by simp [step, h, Nat.not_lt.2 hi, exec]

theorem step_frameUnit_end {s : State} {c : FrameCaller} (h : s.work.phase = .frameUnit c)
    (hi : s.work.npx ≤ s.work.i) : step s = commitFrame c s := by simp [step, h, Nat.not_lt.2 hi]

theorem step_encImage {s : State} (h : s.work.phase = .encImage) (hi : s.work.i < s.work.npx) :
    step s = encodeStep s := by simp [step, h, hi]

theorem step_encImage_end {s : State} (h : s.work.phase = .encImage) (hi : s.work.npx ≤ s.work.i) :
    step s = finishImage s := by simp [step, h, Nat.not_lt.2 hi]

theorem step_encFrame {s : State} {e : Nat} (h : s.work.phase = .encFrame e) (hi : s.work.i < s.work.npx) :
    step s = encodeStep s := by simp [step, h, hi]

theorem step_encFrame_end {s : State} {e : Nat} (h : s.work.phase = .encFrame e) (hi : s.work.npx ≤ s.work.i) :
    step s = finishFrame e s := by simp [step, h, Nat.not_lt.2 hi]

/-- A command issued while none is in progress starts at once. -/
theorem step_issue {s : State} {c : Command} {rest : List HostAction} (h : s.work.phase = .idle)
    (hp : s.io.pending = .issue c :: rest) : step s = issue c { s with io := { s.io with pending := rest } } := by
  simp [step_idle h, hostStep, hp]

/-! ### Runs -/

@[simp] theorem run_zero (s : State) : Host.Core.run core 0 s = .next s := rfl

/-- The first step of a run decides how it goes on. -/
theorem run_succ (s : State) (k : Nat) :
    (∀ t, step s = .next t → Host.Core.run core (k + 1) s = Host.Core.run core k t) ∧
    (∀ r, step s = .fault r → Host.Core.run core (k + 1) s = .fault r) ∧
    (∀ r, step s = .refused r → Host.Core.run core (k + 1) s = .refused r) := by
  have hrun := Host.Core.run.eq_2 core s k
  refine ⟨fun t h => hrun.trans ?_, fun r h => hrun.trans ?_, fun r h => hrun.trans ?_⟩ <;>
    rw [show core.step s = _ from h]

theorem run_succ_of_next {s t : State} (k : Nat) (h : step s = .next t) :
    Host.Core.run core (k + 1) s = Host.Core.run core k t := (run_succ s k).1 t h

/-- A run of j + k steps is a run of j steps followed by one of k. -/
theorem run_add {s t : State} (j k : Nat) (h : Host.Core.run core j s = .next t) :
    Host.Core.run core (j + k) s = Host.Core.run core k t := by
  induction j generalizing s with
  | zero => cases h; rw [Nat.zero_add]
  | succ j ih =>
    rw [Nat.succ_add]
    rcases hs : step s with u | r | r
    · rw [run_succ_of_next _ hs] at h ⊢
      exact ih h
    · rw [(run_succ s j).2.1 r hs] at h; cases h
    · rw [(run_succ s j).2.2 r hs] at h; cases h

end Sys2Proof.Machine
end

