-- ==== Sys2Proof/Tests/Slice0.lean ====
section
/-! SUPPORT. The model's own tests: ill-formed terms that the check refuses, words written out from the spec's bit
layouts, single steps against the vectors of spec/95_test_vectors.md, and for every statement of Obligations.lean that
has hypotheses a witness that meets them. -/

namespace Sys2Proof.Tests

open Sys2Proof Sys2Proof.Machine Sys2Proof.Claims

/-! ### Small states -/

/-- The state after reset of a core whose MAX_PIXELS is 4. -/
def start : State := { State.reset with maxPixels := 4 }

/-- The working registers set. -/
def withWork (wk : Work) : State := { start with work := wk }

/-- A single image of w pixels in one row, 4 channels, whose opcode region holds the given bytes (R150). -/
def imageWork (w : Word) (bs : List Byte) : Work :=
  { Work.idle with phase := .imageUnit, w := w, h := 1, ch := 4, ptr := 14, endp := 14 + bs.length,
                   inp := Memory.ofBytesAt 14 bs }

/-- A Predictive frame of two RGBA pixels with the reference of spec/95 section 2.5 and the given opcodes. -/
def predWork (bs : List Byte) : Work :=
  { Work.idle with phase := .frameUnit .perFrame, kind := .predictive, w := 1, h := 2, ch := 4, ptr := 1,
                   endp := 1 + bs.length, inp := Memory.ofBytes (0x01 :: bs),
                   ref := some (Memory.ofBytes [0x0A, 0x14, 0x1E, 0xFF, 0x0B, 0x15, 0x1F, 0xFF]) }

/-- A frame command whose tag stands next. -/
def tagWork (caller : FrameCaller) (bs : List Byte) (ref : Option Memory) : Work :=
  { Work.idle with phase := .frameTag caller, w := 1, h := 2, ch := 4, inp := Memory.ofBytes bs, ref := ref }

/-- What a test looks at after a step: PREV, I, PTR, and the output bytes; none where the step stops. -/
def unitAfter (o : Host.Outcome State Fault Refusal) : Option (Px × Nat × Nat × List Byte) :=
  match o with
  | .next t => some (t.work.prev, t.work.i, t.work.ptr, t.work.out.toBytes)
  | .fault _ => none
  | .refused _ => none

/-- The last result returned; none where the step stops. -/
def resultAfter (o : Host.Outcome State Fault Refusal) : Option Result :=
  match o with
  | .next t => t.io.results.getLast?
  | .fault _ => none
  | .refused _ => none

/-- Slot k of WCACHE after a step. -/
def slotAfter (o : Host.Outcome State Fault Refusal) (k : Slot) : Option Px :=
  match o with
  | .next t => some (cacheRead t.work.wcache k)
  | .fault _ => none
  | .refused _ => none

/-! ### WellFormed refuses -/

theorem test_diff_below_refused : ∀ i ∈ [Instr.diff (-3) 0 0, .diff 0 (-3) 0, .diff 0 0 (-3)],
    i.wellFormed = false := by decide
theorem test_diff_above_refused : ∀ i ∈ [Instr.diff 2 0 0, .diff 0 2 0, .diff 0 0 2], i.wellFormed = false := by decide
theorem test_luma_dg_refused : ∀ i ∈ [Instr.luma (-33) 0 0, .luma 32 0 0], i.wellFormed = false := by decide
theorem test_luma_differences_refused :
    ∀ i ∈ [Instr.luma 0 (-9) 0, .luma 0 8 0, .luma 0 0 (-9), .luma 0 0 8], i.wellFormed = false := by decide
theorem test_run_length_refused : ∀ i ∈ [Instr.run 0, .run 63], i.wellFormed = false := by decide
theorem test_image_channels_refused : ∀ i ∈ [Instr.qoif 1 1 2 0, .qoif 1 1 5 0], i.wellFormed = false := by decide
theorem test_image_colorspace_refused : (Instr.qoif 1 1 4 2).wellFormed = false := by decide
theorem test_container_channels_refused : (Instr.qov1 25 1 1 0 5 0 []).wellFormed = false := by decide
theorem test_container_size_refused : (Instr.qov1 29 1 1 0 4 0 []).wellFormed = false := by decide
theorem test_container_table_refused : (Instr.qov1 29 1 1 0 4 1 []).wellFormed = false := by decide

/-! ### Decoding: words written out bit by bit from the layouts of spec/30_encoding.md and spec/43_container.md -/

/-- R92: 00 kkkkkk, k = 63. -/
theorem test_decode_index : decodeOpcode [0b00111111] = .ok (.index 63) := by decide
/-- R93: 01 rr gg bb, each biased by 2: -2 is 00, 1 is 11, -1 is 01. -/
theorem test_decode_diff : decodeOpcode [0b01001101] = .ok (.diff (-2) 1 (-1)) := by decide
/-- R94: 10 gggggg, then rrrr bbbb: 20 + 32 = 52, 5 + 8 = 13, -5 + 8 = 3 (spec/95 section 2.4: B4 D3). -/
theorem test_decode_luma : decodeOpcode [0b10110100, 0b11010011] = .ok (.luma 20 5 (-5)) := by decide
/-- R95: 11 nnnnnn, biased by 1: 000000 is a run of 1. -/
theorem test_decode_run : decodeOpcode [0b11000000] = .ok (.run 1) := by decide
/-- R96, R98: the 8-bit tag comes before the 2-bit tag 11. -/
theorem test_decode_rgb : decodeOpcode [0b11111110, 1, 2, 3] = .ok (.rgb 1 2 3) := by decide
/-- R97. -/
theorem test_decode_rgba : decodeOpcode [0b11111111, 1, 2, 3, 4] = .ok (.rgba 1 2 3 4) := by decide
/-- R112. -/
theorem test_decode_tags : decodeAt .tag [0b00000000] = .ok .frameIntra ∧ decodeAt .tag [0b00000001] = .ok .framePred ∧
    decodeAt .tag [0b00000010] = .error .badTag := by decide
/-- R110: the header of spec/95 section 1.1, a 2×1 RGBA image. -/
theorem test_decode_image_header :
    decodeAt .image [0x71, 0x6F, 0x69, 0x66, 0, 0, 0, 2, 0, 0, 0, 1, 4, 0] = .ok (.qoif 2 1 4 0) := by decide
/-- R111. -/
theorem test_decode_terminator : decodeAt .terminator [0, 0, 0, 0, 0, 0, 0, 1] = .ok .terminator := by decide
/-- R230: the header of the 31-byte blob of spec/95 section 2.9, one frame at offset 29. -/
theorem test_decode_container_header :
    decodeAt .container [0x71, 0x6F, 0x76, 0x31, 0, 0, 0, 0x1D, 0, 0, 0, 1, 0, 0, 0, 1, 0, 0, 0, 0, 4, 0, 0, 0, 1,
      0, 0, 0, 0x1D] = .ok (.qov1 29 1 1 0 4 1 [29]) := by decide
/-- Too few bytes for the opcode (R151). -/
theorem test_decode_truncated : decodeOpcode [0xFF, 1, 2, 3] = .error .truncatedOpcode := by decide
/-- One word for each row of spec/opcode_table.json, numbered as the table numbers it (log entry 7). -/
theorem test_table_words :
    decodeTableWord 8 0x09 = some (.index 9) ∧ decodeTableWord 8 0x40 = some (.diff (-2) (-2) (-2)) ∧
    decodeTableWord 16 0x0080 = some (.luma (-32) (-8) (-8)) ∧ decodeTableWord 8 0xC0 = some (.run 1) ∧
    decodeTableWord 32 0x1E140AFE = some (.rgb 10 20 30) ∧
    decodeTableWord 40 0x04030201FF = some (.rgba 1 2 3 4) ∧ decodeTableWord 8 0x00 = some .frameIntra ∧
    decodeTableWord 8 0x01 = some .framePred ∧ decodeTableWord 64 0x1 = some .terminator ∧
    decodeTableWord 112 0x716F6966 = some (.qoif 0 0 0 0) := by decide
/-- The word placed is the word the next step runs: RGB and the first container word after reset. -/
theorem test_placed_words_are_fetched :
    (State.reset.withFetchWord 32 0x1E140AFE).work.fetch = some (.ok (.rgb 10 20 30)) ∧
    (State.reset.withFetchWord 8 0x01).work.fetch = some (.ok .framePred) ∧
    (State.reset.withFetchWord 200 0x716F7631).work.fetch = some (.ok (.qov1 0 0 0 0 0 0 [])) := by decide

/-! ### Single steps against spec/95_test_vectors.md -/

/-- Section 2.2, first row: a hit on the reset value of slot 0. -/
theorem test_index_reset_slot :
    unitAfter (step (withWork (imageWork 1 [0x00]))) = some (⟨0, 0, 0, 0⟩, 1, 15, [0, 0, 0, 0]) := by decide
/-- Section 2.3: 5E wraps red below 0; the slot written is 55. -/
theorem test_diff_wraps :
    unitAfter (step (withWork (imageWork 1 [0x5E]))) = some (⟨255, 1, 0, 255⟩, 1, 15, [255, 1, 0, 255]) := by decide
theorem test_diff_writes_its_slot :
    slotAfter (step (withWork (imageWork 1 [0x5E]))) 55 = some ⟨255, 1, 0, 255⟩ := by decide
/-- Section 2.4: 80 0F, minimum dg and dr-dg, maximum db-dg. -/
theorem test_luma_extremes :
    unitAfter (step (withWork (imageWork 1 [0x80, 0x0F]))) = some (⟨216, 224, 231, 255⟩, 1, 16, [216, 224, 231, 255]) := by
  decide
/-- Section 2.4: the LUMA at 14 whose second byte is missing. -/
theorem test_luma_truncated :
    resultAfter (step (withWork (imageWork 1 [0xB4]))) = some (.error ⟨.truncatedStream, some 14⟩) := by decide
/-- Section 2.5: RUN 4 in an image of two pixels. -/
theorem test_run_overrun :
    unitAfter (step (withWork (imageWork 2 [0xC3]))) = some (⟨0, 0, 0, 255⟩, 2, 15, [0, 0, 0, 255, 0, 0, 0, 255]) := by
  decide
/-- Section 2.5: RUN 2 in a Predictive frame copies REF. -/
theorem test_run_copies_reference :
    unitAfter (step (withWork (predWork [0xC1]))) =
      some (⟨0x0B, 0x15, 0x1F, 0xFF⟩, 2, 2, [0x0A, 0x14, 0x1E, 0xFF, 0x0B, 0x15, 0x1F, 0xFF]) := by decide
/-- Section 2.6: FE 0A 14 1E writes slot 9. -/
theorem test_rgb_writes_its_slot :
    slotAfter (step (withWork (imageWork 1 [0xFE, 0x0A, 0x14, 0x1E]))) 9 = some ⟨10, 20, 30, 255⟩ := by decide
/-- Section 2.6: an RGB keeps the alpha of the pixel before it. -/
theorem test_rgb_keeps_alpha :
    unitAfter (step (withWork { imageWork 1 [0xFE, 1, 2, 3] with prev := ⟨0, 0, 0, 128⟩ })) =
      some (⟨1, 2, 3, 128⟩, 1, 18, [1, 2, 3, 128]) := by decide
/-- Section 2.7: FF 01 02 03 04 writes slot 14. -/
theorem test_rgba_writes_its_slot :
    slotAfter (step (withWork (imageWork 1 [0xFF, 1, 2, 3, 4]))) 14 = some ⟨1, 2, 3, 4⟩ := by decide
/-- R180, R141: an RGBA opcode in a 3-channel unit yields its alpha as PREV and writes three bytes. -/
theorem test_rgba_in_three_channels :
    unitAfter (step (withWork { imageWork 1 [0xFF, 1, 2, 3, 4] with ch := 3 })) = some (⟨1, 2, 3, 4⟩, 1, 19, [1, 2, 3]) := by
  decide
/-- Section 2.8: the tags FF, 01 without a reference, and an empty frame. -/
theorem test_tag_errors :
    resultAfter (step (withWork (tagWork .perFrame [0xFF] none))) = some (.error ⟨.badFrameTag, some 0⟩) ∧
    resultAfter (step (withWork (tagWork .perFrame [0x01, 0xC1] none))) = some (.error ⟨.noReference, none⟩) ∧
    resultAfter (step (withWork (tagWork .perFrame [] none))) = some (.error ⟨.truncatedStream, some 0⟩) := by decide
/-- Section 2.8: the Intra tag starts the unit at position 1. -/
theorem test_intra_tag :
    unitAfter (step (withWork (tagWork .perFrame [0x00, 0xC1] none))) = some (⟨0, 0, 0, 255⟩, 0, 1, []) := by decide
/-- Section 2.10: the image header with channels 5, and its first 21 bytes. -/
theorem test_image_header_errors :
    resultAfter (exec (.qoif 2 1 5 0) (withWork { Work.idle with phase := .imageHeader })) =
      some (.error ⟨.badChannels, some 12⟩) ∧
    resultAfter (exec (.qoif 2 1 4 0) (withWork { Work.idle with phase := .imageHeader, inp := [(20, 0)] })) =
      some (.error ⟨.truncatedStream, some 21⟩) := by decide
/-- Section 2.10: the 0×0 image is complete before any opcode. -/
theorem test_empty_image :
    resultAfter (step (withWork { imageWork 0 [] with h := 0 })) = some (.decodedImage 0 0 4 0 []) := by decide
/-- Section 2.11: P with N = 2, and with its second offset 37. -/
theorem test_container_errors :
    resultAfter (exec (.qov1 37 2 2 0x41F00000 3 2 [37, 51, 55])
      (withWork { Work.idle with phase := .containerHeader 0 ⟨[], 57⟩ })) = some (.error ⟨.badHeaderSize, some 4⟩) ∧
    resultAfter (exec (.qov1 37 2 2 0x41F00000 3 3 [37, 37, 55])
      (withWork { Work.idle with phase := .containerHeader 0 ⟨[], 57⟩ })) = some (.error ⟨.badOffsets, some 29⟩) := by
  decide
/-- Section 2.11, last row. -/
theorem test_container_opens :
    resultAfter (exec (.qov1 37 2 2 0x41F00000 3 3 [37, 51, 55])
      (withWork { Work.idle with phase := .containerHeader 0 ⟨[], 57⟩ })) = some (.opened 2 2 3 0x41F00000 3) := by decide
/-- Section 2.9: the 25-byte blob of a session without frames. -/
theorem test_flush_empty_session :
    resultAfter (issue (.encFlush 0) (start.putEnc 0 (some { Enc.reset with mode := .opened, w := 1, h := 1, ch := 4 }))) =
      some (.blob [0x71, 0x6F, 0x76, 0x31, 0, 0, 0, 0x19, 0, 0, 0, 1, 0, 0, 0, 1, 0, 0, 0, 0, 4, 0, 0, 0, 0]) := by decide
/-- Section 1.3, row 4, and program P1: the opcode chosen. -/
theorem test_choice_of_opcode :
    selectOpcode defaultHash Cache.zero ⟨10, 20, 30, 255⟩ ⟨0, 0, 0, 255⟩ = .rgb 0 0 0 ∧
    selectOpcode defaultHash Cache.zero ⟨0, 0, 0, 255⟩ ⟨1, 255, 0, 255⟩ = .diff 1 (-1) 0 ∧
    selectOpcode defaultHash Cache.zero ⟨1, 255, 0, 255⟩ ⟨1, 255, 0, 128⟩ = .rgba 1 255 0 128 := by decide
/-- Section 2.1: the wrapping subtraction. -/
theorem test_wrapping_subtraction :
    delta 255 0 = -1 ∧ delta 0 255 = 1 ∧ delta 128 0 = -128 ∧ delta 0 128 = -128 ∧ delta 127 0 = 127 := by decide
/-- R133 with another HASH (R7): 5E writes the slot that the parameter gives the pixel, and slot 55 stays. -/
theorem test_other_hash_writes_its_slot :
    slotAfter (step { withWork (imageWork 1 [0x5E]) with hashParam := [(⟨255, 1, 0, 255⟩, 7)] }) 7 =
      some ⟨255, 1, 0, 255⟩ ∧
    slotAfter (step { withWork (imageWork 1 [0x5E]) with hashParam := [(⟨255, 1, 0, 255⟩, 7)] }) 55 =
      some ⟨0, 0, 0, 0⟩ := by decide
/-- R333, R340: a second encoder is created beside the first, and discarding the first leaves the second. -/
theorem test_two_encoders :
    (match step { start with io := ⟨[.newEncoder], [], []⟩ } with
     | .next t => t.encs = [some Enc.reset, some Enc.reset]
     | .fault _ => False
     | .refused _ => False) ∧
    (match step { start with encs := [some Enc.reset, some Enc.reset], io := ⟨[.discardEncoder 0], [], []⟩ } with
     | .next t => t.encs = [none, some Enc.reset]
     | .fault _ => False
     | .refused _ => False) := ⟨rfl, rfl⟩
/-- The table of HASH values at the head of spec/95. -/
theorem test_hash_values :
    defaultHash ⟨0, 0, 0, 255⟩ = 53 ∧ defaultHash ⟨10, 20, 30, 255⟩ = 9 ∧
    defaultHash ⟨1, 255, 0, 128⟩ = 62 ∧ defaultHash ⟨1, 2, 3, 4⟩ = 14 := by decide

/-! ### Witnesses: states and operands that meet the hypotheses of each statement -/

/-- A Predictive frame's unit in place of an image's. -/
def predState (bs : List Byte) : State := withWork (predWork bs)

def imageState (bs : List Byte) : State := withWork (imageWork 1 bs)

/-- One well-formed instruction of every constructor, at the ends of its operand ranges. -/
theorem witness_DecodeOfEncodeIsTheInstruction :
    ∀ i ∈ [Instr.index 0, .index 63, .diff (-2) 1 (-2), .diff 1 (-2) 1, .luma (-32) 7 (-8), .luma 31 (-8) 7, .run 1,
      .run 62, .rgb 0 1 255, .rgba 0 1 2 255, .frameIntra, .framePred, .qoif 0 1 3 0, .qoif 1 0 4 1, .terminator,
      .qov1 25 1 1 0 3 0 [], .qov1 29 1 1 0 4 1 [29]], i.wellFormed = true := by decide
theorem witness_EncodeOfDecodedOpcodeIsTheBytesRead :
    decodeOpcode [0x7F, 9] = .ok (.diff 1 1 1) ∧ decodeOpcode [0xFF, 1, 2, 3, 4] = .ok (.rgba 1 2 3 4) := by decide
/-- The last length that reads an opcode and the first that does not, for each length. -/
theorem witness_FirstByteDecidesTheLength :
    (0x7F : Byte).toNat < 128 ∧ (0xBF : Byte).toNat < 192 ∧ (0xFD : Byte).toNat ≤ 253 ∧
    4 ≤ [(1 : Byte), 2, 3].length + 1 ∧ [(1 : Byte), 2].length + 1 < 4 ∧ 5 ≤ [(1 : Byte), 2, 3, 4].length + 1 ∧
    [(1 : Byte), 2, 3].length + 1 < 5 := by decide
/-- The tag values next to the two legal ones and at the end, and a frame of no bytes. -/
theorem witness_FrameTagSelectsTheKind :
    (∀ t ∈ [(0x02 : Byte), 0xFF],
      (tagWork (.session 0) [t] none).phase = .frameTag (.session 0) ∧
      (tagWork (.session 0) [t] none).inp.readByte 0 = some t ∧ t ≠ 0x00 ∧ t ≠ 0x01) ∧
    (tagWork (.session 0) [] none).phase = .frameTag (.session 0) ∧
    (tagWork (.session 0) [] none).inp.readByte 0 = none := by decide
/-- A state whose parameter is given, with a HASH that is not the default. -/
theorem witness_HashIsTheWeightedSumModulo64 :
    { start with hashParam := [(Px.start, 7)] }.hashParam = [(Px.start, 7)] ∧
    { start with hashParam := [(Px.start, 7)] }.hash Px.start = 7 ∧
    { start with hashParam := [(Px.start, 7)] }.hash Px.zero = 0 := by decide
theorem witness_ChannelDeltasAreSignedAndExact :
    ((0x80 : Byte).toNat : Int) = (((0 : Byte).toNat : Int) + (-128)) % 256 ∧
    ((0x7F : Byte).toNat : Int) = (((0 : Byte).toNat : Int) + 127) % 256 ∧
    inRange (-8) 7 ((-40 : Int) - (-32)) = true ∧ inRange (-8) 7 ((38 : Int) - 31) = true := by decide
theorem witness_PredictionIsPrevOrTheColocatedPixel :
    (imageWork 1 []).kind = .intra ∧
    (∃ ref, (predWork []).kind = .predictive ∧ (predWork []).ref = some ref ∧ (predWork []).ch = 4 ∧
      ref.readByte 0 = some 0x0A ∧ ref.readByte 1 = some 0x14 ∧ ref.readByte 2 = some 0x1E ∧
      ref.readByte 3 = some 0xFF) ∧
    (∃ ref, { predWork [] with ch := 3, i := 1 }.kind = .predictive ∧ { predWork [] with ch := 3, i := 1 }.ref = some ref ∧
      ref.readByte (1 * (3 : Byte).toNat) = some 0xFF ∧ ref.readByte (1 * (3 : Byte).toNat + 1) = some 0x0B ∧
      ref.readByte (1 * (3 : Byte).toNat + 2) = some 0x15) :=
  ⟨by decide, ⟨_, rfl, rfl, by decide⟩, ⟨_, rfl, rfl, by decide⟩⟩
/-- An opcode of one byte that ends at the end of its region, and one that passes it; byte values at both ends. -/
theorem witness_IndexYieldsItsSlot :
    (0x3F : Byte).toNat ≤ 0x3F ∧ (imageState [0x3F]).work.walking = true ∧
    (imageState [0x3F]).work.ptr + 1 ≤ (imageState [0x3F]).work.endp ∧
    (imageState []).work.walking = true ∧ (imageState []).work.endp < (imageState []).work.ptr + 1 := by decide
theorem witness_DiffMovesEachChannel :
    (∀ b0 ∈ [(0x40 : Byte), 0x7F], 0x40 ≤ b0.toNat ∧ b0.toNat ≤ 0x7F) ∧ (predState [0x40]).work.walking = true ∧
    (predState [0x40]).work.ptr + 1 ≤ (predState [0x40]).work.endp ∧
    (predState [0x40]).work.pred = some ⟨0x0A, 0x14, 0x1E, 0xFF⟩ ∧
    (predState []).work.walking = true ∧ (predState []).work.endp < (predState []).work.ptr + 1 := by decide
theorem witness_LumaMovesTheChannelsTogether :
    (∀ b0 ∈ [(0x80 : Byte), 0xBF], 0x80 ≤ b0.toNat ∧ b0.toNat ≤ 0xBF) ∧ (predState [0x80, 0]).work.walking = true ∧
    (predState [0x80, 0]).work.ptr + 2 ≤ (predState [0x80, 0]).work.endp ∧
    (predState [0x80, 0]).work.pred = some ⟨0x0A, 0x14, 0x1E, 0xFF⟩ ∧
    (predState [0x80]).work.walking = true ∧ (predState [0x80]).work.endp < (predState [0x80]).work.ptr + 2 := by decide
/-- RUN 62 in a unit of one pixel, RUN 1 in a unit of two, and RUN 2 over a reference of two pixels. -/
theorem witness_RunCopiesThePredictions :
    (∀ b0 ∈ [(0xC0 : Byte), 0xFD], 0xC0 ≤ b0.toNat ∧ b0.toNat ≤ 0xFD) ∧
    ((imageState [0xFD]).work.walking = true ∧ (imageState [0xFD]).work.ptr + 1 ≤ (imageState [0xFD]).work.endp ∧
      channelsLegal (imageState [0xFD]).work.ch = true ∧
      1 = min 62 ((imageState [0xFD]).work.npx - (imageState [0xFD]).work.i) ∧
      (imageState [0xFD]).work.kind = .intra) ∧
    ((predState [0xC1]).work.walking = true ∧ (predState [0xC1]).work.kind = .predictive ∧
      2 = min 2 ((predState [0xC1]).work.npx - (predState [0xC1]).work.i) ∧
      ∃ r, (predState [0xC1]).work.ref = some r ∧
        ∀ j < 2, r.readPixel 4 (0 + j) = some (if j = 0 then ⟨0x0A, 0x14, 0x1E, 0xFF⟩ else ⟨0x0B, 0x15, 0x1F, 0xFF⟩)) ∧
    ((predState []).work.walking = true ∧ (predState []).work.endp < (predState []).work.ptr + 1) :=
  ⟨by decide, by decide, ⟨by decide, by decide, by decide, _, rfl, by decide⟩, by decide⟩
theorem witness_RgbKeepsThePredictedAlpha :
    (predState [0xFE, 1, 2, 3]).work.walking = true ∧
    (predState [0xFE, 1, 2, 3]).work.ptr + 4 ≤ (predState [0xFE, 1, 2, 3]).work.endp ∧
    (predState [0xFE, 1, 2, 3]).work.pred = some ⟨0x0A, 0x14, 0x1E, 0xFF⟩ ∧
    (predState [0xFE, 1, 2]).work.walking = true ∧
    (predState [0xFE, 1, 2]).work.endp < (predState [0xFE, 1, 2]).work.ptr + 4 := by decide
theorem witness_RgbaYieldsTheLiteralPixel :
    (predState [0xFF, 1, 2, 3, 4]).work.walking = true ∧
    (predState [0xFF, 1, 2, 3, 4]).work.ptr + 5 ≤ (predState [0xFF, 1, 2, 3, 4]).work.endp ∧
    (predState [0xFF, 1, 2, 3]).work.walking = true ∧
    (predState [0xFF, 1, 2, 3]).work.endp < (predState [0xFF, 1, 2, 3]).work.ptr + 5 := by decide
theorem witness_ExhaustedRegionRaisesTruncatedStream :
    ((imageState []).work.walking = true ∧ (imageState []).work.endp ≤ (imageState []).work.ptr) ∧
    ((imageState [0xB4]).work.walking = true ∧ (imageState [0xB4]).work.inp.readByte 14 = some 0xB4 ∧
      decodeOpcode [0xB4, 0] = .ok (.luma 20 (-8) (-8)) ∧
      (imageState [0xB4]).work.endp < (imageState [0xB4]).work.ptr + (Instr.luma 20 (-8) (-8)).size) := by decide
/-- While idle no token stands at its place; after the last pixel no opcode does. -/
theorem witness_TokenOutOfPlaceIsRefused :
    start.work.walking = false ∧ (∀ c, start.work.phase ≠ .frameTag c) ∧ start.work.phase ≠ .imageHeader ∧
    (∀ d src, start.work.phase ≠ .containerHeader d src) ∧ start.work.phase ≠ .imageUnit ∧
    { imageWork 1 [0x00] with i := 1 }.walking = false :=
  ⟨by decide, fun _ => by simp [start, State.reset, Work.idle], by decide,
    fun _ _ => by simp [start, State.reset, Work.idle], by decide, by decide⟩
theorem witness_IntraTagStartsAResetUnit : ∀ c ∈ [FrameCaller.session 0, .perFrame],
    (withWork (tagWork c [0x00] none)).work.phase = .frameTag c := by decide
theorem witness_PredictiveTagStartsFromTheCarriedState :
    (withWork (tagWork (.session 0) [0x01] (some []))).work.phase = .frameTag (.session 0) ∧
    (withWork (tagWork (.session 0) [0x01] (some []))).work.ref = some [] := by decide
/-- An open encoder of 1×1 RGBA with the given reference and frames. -/
def openEnc (ref : Option Memory) (frames : List (List Byte)) : Enc :=
  { Enc.reset with mode := .opened, w := 1, h := 1, ch := 4, ref := ref, frames := frames }

theorem witness_PredictiveFrameWithoutReferenceIsAnError :
    ((withWork (tagWork (.session 0) [0x01] none)).work.phase = .frameTag (.session 0) ∧
      (withWork (tagWork (.session 0) [0x01] none)).decAt 0 = some Dec.reset ∧
      (withWork (tagWork (.session 0) [0x01] none)).work.ref = none) ∧
    (withWork (tagWork .perFrame [0x01] none)).work.phase = .frameTag .perFrame ∧
    ((start.putEnc 0 (some (openEnc none []))).encAt 0 = some (openEnc none []) ∧ (openEnc none []).mode = .opened ∧
      (openEnc none []).ref = none ∧
      [(0 : Byte), 0, 0, 0].length = bufferLength (openEnc none []).w (openEnc none []).h (openEnc none []).ch) := by
  decide
theorem witness_IntraFramesAreContextFree :
    start.work = Work.idle ∧ frameArgumentsLegal none 1 1 4 = true ∧
    frameArgumentsLegal (some [1, 2, 3, 4]) 1 1 4 = true := by decide
/-- The least and the greatest image a core of MAX_PIXELS 4 takes. -/
theorem witness_ImageHeaderStartsItsUnit :
    (0 : Word).toNat * (0 : Word).toNat ≤ start.maxPixels ∧ (2 : Word).toNat * (2 : Word).toNat ≤ start.maxPixels ∧
    (withWork { Work.idle with phase := .imageHeader, inp := [(21, 1)] }).work.inp.size = 22 := by decide
/-- "qoif", W = 2, H = h, CH, CS, then n zero bytes. -/
def imageBytes (h : Byte) (ch cs : Byte) (n : Nat) : List Byte :=
  [0x71, 0x6F, 0x69, 0x66, 0, 0, 0, 2, 0, 0, 0, h, ch, cs] ++ List.replicate n 0

theorem witness_ImageHeaderChecksComeInOrder :
    ((imageBytes 2 4 0 0).take 13).length = 13 ∧
    (0x00 :: (imageBytes 2 4 0 0).tail).take 4 ≠ [0x71, 0x6F, 0x69, 0x66] ∧
    (imageBytes 2 5 0 0)[12]? = some 5 ∧ ((imageBytes 2 3 2 0)[12]? = some 3 ∧ (imageBytes 2 3 2 0)[13]? = some 2) ∧
    (imageBytes 2 4 0 7).length = 21 ∧
    ((imageBytes 3 4 1 8).length = 22 ∧
      start.maxPixels < (u32At (imageBytes 3 4 1 8) 4).toNat * (u32At (imageBytes 3 4 1 8) 8).toNat) ∧
    ((imageBytes 2 4 1 8).length = 22 ∧
      (u32At (imageBytes 2 4 1 8) 4).toNat * (u32At (imageBytes 2 4 1 8) 8).toNat ≤ start.maxPixels) := by decide
theorem witness_TerminatorReturnsTheImage :
    ({ imageWork 1 [0x00] with i := 1 }.phase = .imageUnit ∧
      { imageWork 1 [0x00] with i := 1 }.npx ≤ { imageWork 1 [0x00] with i := 1 }.i) ∧
    ((imageWork 1 []).i < (imageWork 1 []).npx ∧ (imageWork 1 []).endp ≤ (imageWork 1 []).ptr) := by decide
theorem witness_ContainerHeaderOpensTheSession :
    (25 : Word).toNat = 25 + 4 * (0 : Word).toNat ∧ firstBadOffset 25 0 (25 : Word).toNat [] = none ∧
    (withWork { Work.idle with phase := .containerHeader 0 ⟨[], 25⟩ }).decAt 0 = some Dec.reset ∧
    (37 : Word).toNat = 25 + 4 * (3 : Word).toNat ∧ firstBadOffset 57 0 (37 : Word).toNat [37, 51, 56] = none ∧
    (2 : Word).toNat * (2 : Word).toNat ≤ start.maxPixels := by decide
/-- A container header of one frame: headerSize, height, channels, frameCount and offset as given; width 2. -/
def containerBytes (hs h ch n off : Byte) : List Byte :=
  [0x71, 0x6F, 0x76, 0x31, 0, 0, 0, hs, 0, 0, 0, 2, 0, 0, 0, h, 0, 0, 0, 0, ch, 0, 0, 0, n, 0, 0, 0, off]

theorem witness_ContainerHeaderChecksComeInOrder :
    ((containerBytes 29 2 4 1 29).take 7).length = 7 ∧
    (0x00 :: (containerBytes 29 2 4 1 29).tail).take 4 ≠ [0x71, 0x6F, 0x76, 0x31] ∧
    (u32At (containerBytes 24 2 4 1 29) 4).toNat = 24 ∧
    ((u32At (containerBytes 29 2 4 1 29) 4).toNat = 29 ∧ ((containerBytes 29 2 4 1 29).take 28).length = 28) ∧
    (containerBytes 29 2 5 1 29)[20]? = some 5 ∧ 29 ≠ 25 + 4 * (u32At (containerBytes 29 2 4 2 29) 21).toNat ∧
    29 = 25 + 4 * (u32At (containerBytes 29 2 4 1 29) 21).toNat ∧
    [(29 : Word)].length = (u32At (containerBytes 29 2 4 1 29) 21).toNat ∧
    (∀ k < 1, [(29 : Word)][k]? = some (u32At (containerBytes 29 2 4 1 29) (25 + 4 * k))) ∧
    firstBadOffset 29 0 29 [29] = some 0 ∧ firstBadOffset 30 0 29 [29] = none ∧
    start.maxPixels < (u32At (containerBytes 29 3 4 1 29) 8).toNat * (u32At (containerBytes 29 3 4 1 29) 12).toNat ∧
    (u32At (containerBytes 29 2 4 1 29) 8).toNat * (u32At (containerBytes 29 2 4 1 29) 12).toNat ≤ start.maxPixels := by
  decide
/-- Each of the three ways an offset is bad, and a table without one. -/
theorem witness_LowestBadOffsetIsReported :
    firstBadOffset 57 0 37 [36, 51, 55] = some 0 ∧ firstBadOffset 57 0 37 [37, 37, 55] = some 1 ∧
    firstBadOffset 57 0 37 [37, 51, 57] = some 2 ∧ firstBadOffset 57 0 37 [37, 51, 56] = none := by decide
theorem witness_DecodedFrameCommits : ∀ c ∈ [FrameCaller.session 0, .perFrame],
    { predWork [0xC1] with phase := .frameUnit c, i := 2 }.npx ≤ { predWork [0xC1] with phase := .frameUnit c, i := 2 }.i ∧
    (withWork { predWork [0xC1] with phase := .frameUnit c, i := 2 }).decAt 0 = some Dec.reset := by decide

/-- An image of two RGBA pixels Px(0,0,0,255), Px(1,255,0,255) being encoded. -/
def encodeWork : Work :=
  { Work.idle with phase := .encImage, w := 2, h := 1, ch := 4, inp := Memory.ofBytes [0, 0, 0, 255, 1, 255, 0, 255] }

/-- Below the run limit in mid-unit; at the limit; at the last pixel of the unit. -/
theorem witness_EncoderAbsorbsAndFlushesRuns :
    encodeWork.i < encodeWork.npx ∧ encodeWork.inp.readPixel encodeWork.ch encodeWork.i = some ⟨0, 0, 0, 255⟩ ∧
    encodeWork.pred = some ⟨0, 0, 0, 255⟩ ∧ encodeWork.out = Memory.ofBytes [] ∧ encodeWork.run < 62 ∧
    (encodeWork.run + 1 < 62 ∧ encodeWork.i + 1 < encodeWork.npx) ∧ { encodeWork with run := 61 }.run + 1 = 62 ∧
    { encodeWork with w := 1 }.i + 1 = { encodeWork with w := 1 }.npx := by decide
/-- Pixel 1 differs from its prediction, with a run of 1 pending, and with none. -/
theorem witness_EncoderCodesADifferentPixel :
    { encodeWork with i := 1, run := 1 }.i < { encodeWork with i := 1, run := 1 }.npx ∧
    encodeWork.inp.readPixel 4 1 = some ⟨1, 255, 0, 255⟩ ∧
    { encodeWork with i := 1, run := 1 }.pred = some ⟨0, 0, 0, 255⟩ ∧
    (⟨1, 255, 0, 255⟩ : Px) ≠ ⟨0, 0, 0, 255⟩ ∧ { encodeWork with i := 1, run := 0 }.run < 62 := by decide
/-- A hit, another alpha, deltas at the ends of DIFF, deltas at the ends of LUMA, and neither. -/
theorem witness_EncoderPicksTheFirstApplicableOpcode :
    cacheRead Cache.zero (defaultHash ⟨0, 0, 0, 0⟩) = ⟨0, 0, 0, 0⟩ ∧
    cacheRead Cache.zero (defaultHash ⟨1, 254, 0, 255⟩) ≠ ⟨1, 254, 0, 255⟩ ∧
    ((1 : Byte).toNat : Int) = (((0 : Byte).toNat : Int) + 1) % 256 ∧
    ((254 : Byte).toNat : Int) = (((0 : Byte).toNat : Int) + (-2)) % 256 ∧
    ((216 : Byte).toNat : Int) = (((0 : Byte).toNat : Int) + ((-32) + (-8))) % 256 ∧
    (∀ d ∈ [(-2 : Int), -1, 0, 1], ((32 : Byte).toNat : Int) ≠ (((0 : Byte).toNat : Int) + d) % 256) ∧
    (∀ d : Fin 64, ((32 : Byte).toNat : Int) ≠ (((0 : Byte).toNat : Int) + ((d : Int) - 32)) % 256) := by decide
/-- The opcode the encoder picks for the pixel of spec/95 section 2.3, with its one byte in the region and a HASH that
is not the default. -/
theorem witness_DecoderInvertsTheEncodersChoice :
    (imageState [0x5E]).work.walking = true ∧ (imageState [0x5E]).work.pred = some ⟨0, 0, 0, 255⟩ ∧
    selectOpcode (slotOf [(⟨255, 1, 0, 255⟩, 7)]) Cache.zero ⟨0, 0, 0, 255⟩ ⟨255, 1, 0, 255⟩ = .diff (-1) 1 0 ∧
    (imageState [0x5E]).work.ptr + (Instr.diff (-1) 1 0).size ≤ (imageState [0x5E]).work.endp ∧
    opcodePixel Cache.zero ⟨0, 0, 0, 255⟩ (.diff (-1) 1 0) = some ⟨255, 1, 0, 255⟩ := by decide
theorem witness_EncodedImageIsHeaderBodyTerminator :
    { encodeWork with i := 2 }.npx ≤ { encodeWork with i := 2 }.i ∧
    { encodeWork with i := 2 }.out = Memory.ofBytes [] := by decide
/-- A frame within the size limit; a session of one frame whose length alone is past the limit. -/
theorem witness_EncodedFrameCommits :
    { encodeWork with phase := .encFrame 0, i := 2 }.npx ≤ { encodeWork with phase := .encFrame 0, i := 2 }.i ∧
    (withWork { encodeWork with phase := .encFrame 0, i := 2 }).encAt 0 = some Enc.reset ∧
    (25 + 4 * (0 + 1) + 0 + [(0x00 : Byte)].length ≤ 2 ^ 32 - 1) ∧
    ∃ f : List Byte, 25 + 4 * ([f].length + 1) + ([f].map List.length).sum + [(0x00 : Byte)].length > 2 ^ 32 - 1 :=
  ⟨by decide, by decide, by decide, by
    obtain ⟨f, hf⟩ : ∃ f : List Byte, f.length = 2 ^ 32 := ⟨List.replicate _ 0, List.length_replicate⟩
    exact ⟨f, by simp [hf]⟩⟩
/-- Each action queued in an idle core, with the instance it addresses there (0) and not there (1); a command in
progress. -/
theorem witness_HostActionsTakeEffectInOrder :
    start.work.phase = .idle ∧ start.io.pending = [] ∧
    (queue start (.encFlush 0)).io.pending = .issue (.encFlush 0) :: [] ∧
    (start.encAt 0 = some Enc.reset ∧ start.encAt 1 = none) ∧ (start.decAt 0 = some Dec.reset ∧ start.decAt 1 = none) ∧
    (imageState [0x00]).work.phase ≠ .idle ∧ ∃ t, step (imageState [0x00]) = .next t :=
  ⟨by decide, by decide, by decide, by decide, by decide, by decide, _, rfl⟩
/-- Each clause at a boundary: 3 × 2 pixels are more than MAX_PIXELS. -/
theorem witness_EncodeImageChecksAndStarts :
    ((2 : Byte) ≠ 3 ∧ (2 : Byte) ≠ 4) ∧ ((2 : Byte) ≠ 0 ∧ (2 : Byte) ≠ 1) ∧
    [(0 : Byte), 0, 0].length ≠ (1 : Word).toNat * (1 : Word).toNat * (4 : Byte).toNat ∧
    [(0 : Byte), 0, 0, 0].length = (1 : Word).toNat * (1 : Word).toNat * (4 : Byte).toNat ∧
    (1 : Word).toNat * (1 : Word).toNat ≤ start.maxPixels ∧
    ((List.replicate 18 (0 : Byte)).length = (3 : Word).toNat * (2 : Word).toNat * (3 : Byte).toNat ∧
      start.maxPixels < (3 : Word).toNat * (2 : Word).toNat) := by decide
theorem witness_EncBeginOpensASession :
    start.encAt 0 = some Enc.reset ∧ start.maxPixels < (3 : Word).toNat * (2 : Word).toNat ∧
    (2 : Word).toNat * (2 : Word).toNat ≤ start.maxPixels := by decide
theorem witness_EncFrameChecksAndStarts :
    (start.encAt 0 = some Enc.reset ∧ Enc.reset.mode = .idle) ∧
    (start.putEnc 0 (some (openEnc (some []) [[0]]))).encAt 0 = some (openEnc (some []) [[0]]) ∧
    (openEnc (some []) [[0]]).mode = .opened ∧ (openEnc (some []) [[0]]).ref = some [] ∧
    [(0 : Byte), 0, 0].length ≠ bufferLength (openEnc (some []) [[0]]).w (openEnc (some []) [[0]]).h (openEnc (some []) [[0]]).ch ∧
    [(0 : Byte), 0, 0, 0].length = bufferLength (openEnc (some []) [[0]]).w (openEnc (some []) [[0]]).h (openEnc (some []) [[0]]).ch := by
  decide
theorem witness_EncFlushReturnsTheBlobAndResets :
    (start.encAt 0 = some Enc.reset ∧ Enc.reset.mode = .idle) ∧
    (start.putEnc 0 (some (openEnc none []))).encAt 0 = some (openEnc none []) ∧ (openEnc none []).mode = .opened := by
  decide

/-- A session of one frame `00 00`, one transparent black pixel (spec/95 section 2.9). -/
def sessionEnc : Enc := openEnc (some (Memory.ofBytes [0, 0, 0, 0])) [[0x00, 0x00]]

theorem sessionEnc_good : sessionEnc.Good 4 where
  idle := by decide
  channels := by decide
  pixels := by decide
  reference := fun r h => ⟨[0, 0, 0, 0], by decide, by simpa [sessionEnc, openEnc] using h.symm⟩
  resident := by decide
  tagged := by decide
  blob := by decide

/-- The session that opens the blob of that encoder: one frame at offset 29 of 31 bytes. -/
def sessionDec : Dec :=
  { Dec.reset with mode := .opened, w := 1, h := 1, ch := 4, n := 1, hs := 29, off := [29], len := 31,
                   src := some ⟨sessionEnc.blob, 31⟩ }

theorem sessionDec_good : sessionDec.Good 4 where
  closed := by decide
  channels := by decide
  pixels := by decide
  size := by decide
  table := by decide
  offsets := by decide
  source := fun _ => ⟨_, rfl, rfl⟩
  next := by decide
  fresh := by decide
  positioned := fun h => absurd rfl h

/-- Both sessions open, no command in progress, and a second instance of each kind just created. -/
def sessions : State :=
  { start with encs := [some sessionEnc, some Enc.reset], decs := [some sessionDec, some Dec.reset] }

theorem Enc.reset_good (m : Nat) : Enc.reset.Good m where
  idle := fun _ => rfl
  channels := nofun
  pixels := nofun
  reference := nofun
  resident := by decide
  tagged := nofun
  blob := by decide

theorem Dec.reset_good (m : Nat) : Dec.reset.Good m where
  closed := fun _ => rfl
  channels := nofun
  pixels := nofun
  size := nofun
  table := nofun
  offsets := nofun
  source := nofun
  next := by decide
  fresh := by decide
  positioned := fun h => absurd rfl h

/-- The encoders of `sessions`. -/
theorem sessions_encs {e : Nat} {enc : Enc} (h : sessions.encAt e = some enc) : enc = sessionEnc ∨ enc = Enc.reset := by
  match e, h with
  | 0, h => exact .inl (Option.some.inj h).symm
  | 1, h => exact .inr (Option.some.inj h).symm

/-- The decoders of `sessions`. -/
theorem sessions_decs {d : Nat} {dec : Dec} (h : sessions.decAt d = some dec) : dec = sessionDec ∨ dec = Dec.reset := by
  match d, h with
  | 0, h => exact .inl (Option.some.inj h).symm
  | 1, h => exact .inr (Option.some.inj h).symm

theorem witness_BlobHoldsHeaderTableAndFrames : sessionEnc.Good 4 ∧ sessionEnc.mode = .opened ∧
    sessionEnc.frames[0]? = some [0x00, 0x00] := ⟨sessionEnc_good, rfl, rfl⟩
/-- Reads of the source, and queued replies: none, one too short, one that passes phase 1 alone, and two. -/
theorem witness_DecOpenReadsInTwoPhases :
    (start.decAt 0 = some Dec.reset ∧ start.io.replies = []) ∧ ((containerBytes 29 2 4 1 29).take 7).length < 8 ∧
    (0x00 :: (containerBytes 29 2 4 1 29).tail).take 4 ≠ [0x71, 0x6F, 0x76, 0x31] ∧
    (u32At ((containerBytes 24 2 4 1 29).take 8) 4).toNat < 25 ∧
    25 ≤ (u32At ((containerBytes 25 2 4 0 29).take 8) 4).toNat ∧
    (8 ≤ (containerBytes 25 2 4 0 29).length ∧
      (containerBytes 25 2 4 0 29).take 4 = [0x71, 0x6F, 0x76, 0x31] ∧
      25 ≤ (u32At (containerBytes 25 2 4 0 29) 4).toNat ∧
      { start with io := ⟨[], [], [containerBytes 25 2 4 0 29]⟩ }.io.replies = containerBytes 25 2 4 0 29 :: [] ∧
      { start with io := ⟨[], [], [containerBytes 25 2 4 0 29, []]⟩ }.io.replies =
        containerBytes 25 2 4 0 29 :: [] :: []) := by decide
/-- The last frame's span; a span followed by another; a source one byte short; an exhausted and a closed decoder. -/
theorem witness_DecNextFetchesTheFrameSpan :
    (start.decAt 0 = some Dec.reset ∧ Dec.reset.mode = .closed) ∧
    (sessions.decAt 0 = some sessionDec ∧ sessionDec.mode = .opened ∧ sessions.io.replies = []) ∧
    { sessionDec with next := 1 }.next = { sessionDec with next := 1 }.n ∧
    (sessionDec.next.toNat < sessionDec.n.toNat ∧ sessionDec.off[0]? = some 29 ∧
      sessionDec.next.toNat + 1 = sessionDec.n.toNat ∧ sessionDec.len = 31 ∧ 31 ≤ sessionEnc.blob.length) ∧
    ({ sessionDec with n := 2, off := [29, 31] }.next.toNat + 1 < { sessionDec with n := 2, off := [29, 31] }.n.toNat ∧
      { sessionDec with n := 2, off := [29, 31] }.off[1]? = some 31) ∧
    (min 31 (sessionEnc.blob.take 30).length) - 29 < 31 - 29 ∧
    ({ sessions with io := ⟨[], [], [[0x00]]⟩ }.io.replies = [0x00] :: [] ∧ [(0x00 : Byte)].length < 31 - 29 ∧
      31 - 29 ≤ [(0x00 : Byte), 0x00].length) := by decide
theorem witness_DecRestartReturnsToFresh :
    (start.decAt 0 = some Dec.reset ∧ Dec.reset.mode = .closed) ∧
    (sessions.decAt 0 = some sessionDec ∧ sessionDec.mode = .opened) ∧
    (∃ t opened, exec (.qov1 25 1 1 0 4 0 []) (withWork { Work.idle with phase := .containerHeader 0 ⟨[], 25⟩ }) =
        .next t ∧ t.io.results = [] ++ [.opened 1 1 4 0 0] ∧ t.decAt 0 = some opened ∧
      (t.putDec 0 (some { opened with next := 1 })).decAt 0 = some { opened with next := 1 }) :=
  ⟨by decide, by decide, _, _, rfl, rfl, rfl, rfl⟩
theorem witness_DecFrameTakesItsOwnState :
    ((5 : Byte) ≠ 3 ∧ (5 : Byte) ≠ 4) ∧
    [(0 : Byte), 0, 0].length ≠ (1 : Word).toNat * (1 : Word).toNat * (4 : Byte).toNat ∧
    [(0 : Byte), 0, 0].length = (1 : Word).toNat * (1 : Word).toNat * (3 : Byte).toNat := by decide
/-- An error result, from an encoder that is not open. -/
theorem witness_ErrorsChangeNoInstanceState :
    ∃ t, step (queue start (.encFlush 0)) = .next t ∧
      t.io.results = (queue start (.encFlush 0)).io.results ++ [.error ⟨.notOpen, none⟩] := ⟨_, rfl, rfl⟩
/-- A step that changes an encoder by a command, and one that creates a decoder. -/
theorem witness_InstancesChangeOnlyAtACommit :
    (∃ t, step (queue sessions (.encFlush 0)) = .next t ∧ t.encs ≠ sessions.encs) ∧
    (∃ t, step { sessions with io := ⟨[.newDecoder], [], []⟩ } = .next t ∧ t.decs ≠ sessions.decs) :=
  ⟨⟨_, rfl, by decide⟩, ⟨_, rfl, by decide⟩⟩
theorem witness_DecoderHeaderIsConstantAndNextMovesByOne :
    (∃ t, step (queue sessions (.decRestart 0)) = .next t ∧ t.decAt 0 = some sessionDec ∧
      t.decAt 1 = some Dec.reset) ∧
    (queue sessions (.decRestart 0)).decAt 0 = some sessionDec ∧
    (∀ src, (queue sessions (.decRestart 0)).work.phase ≠ .containerHeader 0 src) :=
  ⟨⟨_, rfl, rfl, rfl⟩, rfl, fun _ => by simp [queue, sessions, start, State.reset, Work.idle]⟩
/-- A decoder command uses no encoder and no other decoder, and an encoder command no decoder and no other encoder. -/
theorem witness_InstancesAreIsolated :
    (¬ UsesEncoder (queue sessions (.decRestart 0)) 0 ∧ ¬ UsesDecoder (queue sessions (.decRestart 0)) 1 ∧
      1 < sessions.decs.length) ∧
    (¬ UsesDecoder (queue sessions (.encFlush 0)) 0 ∧ ¬ UsesEncoder (queue sessions (.encFlush 0)) 1 ∧
      1 < sessions.encs.length) ∧
    (∃ t, step (queue sessions (.decRestart 0)) = .next t) ∧ (∃ t, step (queue sessions (.encFlush 0)) = .next t) :=
  ⟨⟨id, nofun, by decide⟩, ⟨id, nofun, by decide⟩, ⟨_, rfl⟩, ⟨_, rfl⟩⟩
theorem witness_ResultsAreNeverReadBack :
    (∃ t, step (queue sessions (.decRestart 0)) = .next t) ∧
    step (queue sessions (.other 9)) = .refused .unknownCommand := ⟨⟨_, rfl⟩, rfl⟩
theorem witness_OnlyDecodersRaiseFormatErrors :
    ∃ t, step (withWork (tagWork .perFrame [0xFF] none)) = .next t ∧
      t.io.results = [] ++ [.error ⟨.badFrameTag, some 0⟩] ∧ ErrorCode.badFrameTag.errorClass = .formatError :=
  ⟨_, rfl, rfl, rfl⟩
theorem witness_StepRunsTheDecodedInstruction :
    ((imageState [0x3F]).work.walking = true ∧
      decodeOpcode ((imageState [0x3F]).work.inp.readBytes (imageState [0x3F]).work.ptr
        (min 5 ((imageState [0x3F]).work.endp - (imageState [0x3F]).work.ptr))) = .ok (.index 63)) ∧
    decodeAt .image ((Memory.ofBytes (imageBytes 2 4 0 8)).readBytes 0 14) = .ok (.qoif 2 2 4 0) ∧
    decodeAt .tag ((tagWork (.session 0) [0x01] none).inp.readBytes 0 1) = .ok .framePred ∧
    decodeContainerHeader ((containerBytes 29 2 4 1 29).take 8) (Memory.ofBytes (containerBytes 29 2 4 1 29)).toBytes =
      .ok (.qov1 29 2 2 0 4 1 [29]) ∧
    ((imageState []).work.walking = true ∧
      decodeOpcode ((imageState []).work.inp.readBytes (imageState []).work.ptr
        (min 5 ((imageState []).work.endp - (imageState []).work.ptr))) = .error .truncatedOpcode) ∧
    decodeAt .tag ((tagWork (.session 0) [0x02] none).inp.readBytes 0 1) = .error .badTag ∧
    decodeAt .image ((Memory.ofBytes ((imageBytes 2 4 0 8).take 13)).readBytes 0 14) = .error (.truncatedHeader 13) ∧
    decodeContainerHeader [] (Memory.ofBytes []).toBytes = .error (.truncatedHeader 0) ∧
    { imageWork 1 [0x00] with i := 1 }.npx ≤ { imageWork 1 [0x00] with i := 1 }.i := by decide
theorem witness_EncodedOpcodeAtPtrIsRun :
    (predState [0xBF, 0xF0]).work.walking = true ∧ (Instr.luma 31 7 (-8)).place = .opcode ∧
    (Instr.luma 31 7 (-8)).wellFormed = true ∧
    (predState [0xBF, 0xF0]).work.ptr + (Instr.luma 31 7 (-8)).size ≤ (predState [0xBF, 0xF0]).work.endp ∧
    (predState [0xBF, 0xF0]).work.inp.readBytes 1 2 = encode (.luma 31 7 (-8)) := by decide
/-- A pixel of a Predictive frame is decoded in a state whose byte spaces are canonical. -/
theorem witness_EveryStepKeepsMemoryCanonical :
    (predState [0x40]).MemoryWf ∧ ∃ t, step (predState [0x40]) = .next t := by
  refine ⟨⟨Memory.wf_ofBytes _, List.Pairwise.nil, fun _ h => Option.some.inj h ▸ Memory.wf_ofBytes _, ?_, ?_⟩, _, rfl⟩
  · rintro (_ | e) enc r h hr
    · cases h; cases hr
    · cases h
  · rintro (_ | d) dec r h hr
    · cases h; cases hr
    · cases h

/-- The decoder session with the frame of its blob being decoded. -/
def decoding : State :=
  { sessions with work := { Work.idle with phase := .frameUnit (.session 0), w := 1, h := 1, ch := 4, ptr := 1,
                                           endp := 2, base := 29, inp := Memory.ofBytes [0x00, 0x00] } }

theorem sessions_enc_good (e : Nat) (enc : Enc) (h : sessions.encAt e = some enc) : enc.Good 4 := by
  rcases sessions_encs h with rfl | rfl
  exacts [sessionEnc_good, Enc.reset_good 4]

theorem sessions_dec_good (d : Nat) (dec : Dec) (h : sessions.decAt d = some dec) : dec.Good 4 := by
  rcases sessions_decs h with rfl | rfl
  exacts [sessionDec_good, Dec.reset_good 4]

theorem decoding_inv : decoding.Inv where
  enc := sessions_enc_good
  dec := sessions_dec_good
  work := ⟨{ channels := by decide
             index := by decide
             reference := fun h => FrameKind.noConfusion h
             input := ⟨_, rfl⟩
             output := ⟨[], by decide, rfl⟩ }, by rintro d ⟨⟩; exact ⟨_, rfl, rfl, by decide, rfl, rfl, rfl⟩⟩

theorem sessions_inv : sessions.Inv where
  enc := sessions_enc_good
  dec := sessions_dec_good
  work := rfl

theorem witness_EveryStepKeepsTheInvariant : decoding.Inv ∧ ∃ t, step decoding = .next t := ⟨decoding_inv, _, rfl⟩
theorem witness_GoodStatesNeverFault :
    decoding.Inv ∧ (∃ s, s.Inv ∧ step s = .refused .unknownCommand) ∧
    ∃ s, s.Inv ∧ step s = .refused .noSuchInstance :=
  ⟨decoding_inv, ⟨queue sessions (.other 9), ⟨sessions_enc_good, sessions_dec_good, rfl⟩, rfl⟩,
    queue sessions (.encFlush 2), ⟨sessions_enc_good, sessions_dec_good, rfl⟩, rfl⟩
/-- A command in a unit, and one whose image header is still to be read. -/
theorem witness_EveryCommandCompletes :
    (decoding.Inv ∧ decoding.work.phase ≠ .idle ∧ decoding.work.phase ≠ .imageHeader) ∧
    ∃ s : State, s.Inv ∧ s.work.phase = .imageHeader :=
  ⟨⟨decoding_inv, by decide, by decide⟩,
    { sessions with work := { Work.idle with phase := .imageHeader, inp := Memory.ofBytes [0x71] } },
    ⟨sessions_enc_good, sessions_dec_good, ⟨_, rfl⟩⟩, rfl⟩
theorem witness_ImageRoundTrip :
    start.work = Work.idle ∧ channelsLegal 3 = true ∧ colorspaceLegal 1 = true ∧
    [(1 : Byte), 2, 3].length = bufferLength 1 1 3 ∧ pixelCount 1 1 ≤ start.maxPixels ∧
    ([] : List Byte).length = bufferLength 0 0 3 := by decide
/-- The open encoder; and a good one whose frames leave no room, whatever the next frame is. -/
theorem witness_EncoderAndDecoderStaySynchronized :
    (sessions.Inv ∧ sessions.work = Work.idle ∧ sessions.encAt 0 = some sessionEnc ∧ sessionEnc.mode = .opened ∧
      [(1 : Byte), 2, 3, 4].length = bufferLength sessionEnc.w sessionEnc.h sessionEnc.ch ∧ sessionEnc.ref ≠ none ∧
      25 + 4 * (sessionEnc.frames.length + 1) + (sessionEnc.frames.map List.length).sum + (5 * 1 + 1) ≤ 2 ^ 32 - 1) ∧
    ∃ f : List Byte, (openEnc (some (Memory.ofBytes [0, 0, 0, 0])) [f]).Good 4 ∧
      25 + 4 * ([f].length + 1) + ([f].map List.length).sum > 2 ^ 32 - 1 := by
  refine ⟨⟨sessions_inv, rfl, rfl, rfl, rfl, by decide, by decide⟩, ?_⟩
  obtain ⟨f, hf⟩ : ∃ f : List Byte, f.length = 2 ^ 32 - 1 - 29 := ⟨List.replicate _ 0, List.length_replicate⟩
  refine ⟨f, ?_, by simp [hf]⟩
  exact
    { idle := nofun
      channels := fun _ => rfl
      pixels := fun _ => (by decide : pixelCount 1 1 ≤ 4)
      reference := fun r h => ⟨[0, 0, 0, 0], rfl, by simpa [openEnc] using h.symm⟩
      resident := by simp [openEnc]
      tagged := by
        rintro g hg rfl
        have : f = [] := by simpa [openEnc, eq_comm] using hg
        simp [this] at hf
      blob := by simp [openEnc, blobLength, hf, Config.containerFixedBytes, Config.blobMax] }
theorem witness_FlushedContainerOpensWithItsFrames :
    sessions.Inv ∧ sessions.work = Work.idle ∧ sessions.encAt 0 = some sessionEnc ∧ sessionEnc.mode = .opened ∧
    sessions.decAt 1 = some Dec.reset ∧ sessions.io.replies = [] ∧ sessionEnc.frames[0]? = some [0x00, 0x00] :=
  ⟨sessions_inv, rfl, rfl, rfl, rfl, rfl, rfl⟩

end Sys2Proof.Tests
end

section
/-! PROOF. HASH of the machine (R7, R133): the default at reset, and every function from pixel values to slots as the
reading of some table. -/

namespace Sys2Proof.Machine

theorem toNat_defaultHash (p : Px) :
    (defaultHash p).toNat = (3 * p.r.toNat + 5 * p.g.toNat + 7 * p.b.toNat + 11 * p.a.toNat) % 64 :=
  BitVec.toNat_ofNat _ 6

@[simp] theorem State.hash_reset : State.reset.hash = defaultHash := rfl

@[simp] theorem slotOf_cons (q : Px) (k : Slot) (rest : HashParam) (p : Px) :
    slotOf ((q, k) :: rest) p = if p = q then k else slotOf rest p := rfl

/-- There are finitely many pixel values: a pixel is its four bytes. -/
theorem finite_px : Finite Px :=
  .of_injective (fun p : Px => (p.r, p.g, p.b, p.a)) fun p q h => by cases p; cases q; simpa using h

/-- The parameter that lists the slot of each of the given pixel values under `f`. -/
def HashParam.tabulate (f : Px → Slot) (ps : List Px) : HashParam := ps.map fun p => (p, f p)

@[simp] theorem HashParam.tabulate_cons (f : Px → Slot) (q : Px) (qs : List Px) :
    tabulate f (q :: qs) = (q, f q) :: tabulate f qs := rfl

theorem slotOf_tabulate (f : Px → Slot) {p : Px} {ps : List Px} (hp : p ∈ ps) :
    slotOf (HashParam.tabulate f ps) p = f p := by
  induction ps with
  | nil => cases hp
  | cons q qs ih =>
    rw [HashParam.tabulate_cons, slotOf_cons]
    split
    case isTrue heq => rw [heq]
    case isFalse hne => exact ih (List.mem_of_ne_of_mem hne hp)

/-- A table of all pixel values, of which there are finitely many, leaves nothing to the default. -/
theorem exists_slotOf_eq (f : Px → Slot) : ∃ table : HashParam, slotOf table = f := by
  have := finite_px
  obtain ⟨ps, -, hps⟩ := Finite.exists_univ_list Px
  exact ⟨.tabulate f ps, funext fun p => slotOf_tabulate f (hps p)⟩

/-- Settles O6: the reset parameter is the empty table, which is the default formula, and a table of all pixel values
gives any function. -/
theorem hashIsTheWeightedSumModulo64 : Obligations.HashIsTheWeightedSumModulo64 := by
  refine ⟨fun p => ?_, fun f => ?_⟩
  · rw [State.hash_reset, toNat_defaultHash]
  · obtain ⟨table, htable⟩ := exists_slotOf_eq f
    exact ⟨table, fun s hs => by rw [State.hash, hs, htable]⟩

end Sys2Proof.Machine
end

section
/-! PROOF. The prediction of the next pixel (R34, R132): PREV in an INTRA unit, the co-located pixel of the reference
in a PRED unit. -/

namespace Sys2Proof.Machine

theorem Work.pred_intra {wk : Work} (h : wk.kind = .intra) : wk.pred = some wk.prev := by simp [Work.pred, h]

theorem Work.pred_predictive {wk : Work} {ref : Memory} (hk : wk.kind = .predictive) (hr : wk.ref = some ref) :
    wk.pred = ref.readPixel wk.ch wk.i := by simp [Work.pred, hk, hr]

section
variable {m : Memory} {i : Nat} {r g b : Byte}

theorem Memory.readPixel_four {a : Byte} (hr : m.readByte (i * (4 : Byte).toNat) = some r)
    (hg : m.readByte (i * (4 : Byte).toNat + 1) = some g) (hb : m.readByte (i * (4 : Byte).toNat + 2) = some b)
    (ha : m.readByte (i * (4 : Byte).toNat + 3) = some a) : m.readPixel 4 i = some ⟨r, g, b, a⟩ := by
  simp only [Memory.readPixel, hr, hg, hb, ha]
  rfl

theorem Memory.readPixel_three (hr : m.readByte (i * (3 : Byte).toNat) = some r)
    (hg : m.readByte (i * (3 : Byte).toNat + 1) = some g) (hb : m.readByte (i * (3 : Byte).toNat + 2) = some b) :
    m.readPixel 3 i = some ⟨r, g, b, 255⟩ := by
  simp only [Memory.readPixel, hr, hg, hb]
  rfl

end

/-- Settles O8: the kind of the unit decides between PREV and REF[I], and the channel count whether the alpha of REF[I]
is read or 255. -/
theorem predictionIsPrevOrTheColocatedPixel : Obligations.PredictionIsPrevOrTheColocatedPixel := by
  refine fun wk => ⟨Work.pred_intra, fun ref r g b a hkind href hr hg hb => ?_⟩
  rw [Work.pred_predictive hkind href]
  constructor
  · intro hch ha
    rw [hch] at hr hg hb ha ⊢
    exact Memory.readPixel_four hr hg hb ha
  · intro hch
    rw [hch] at hr hg hb ⊢
    exact Memory.readPixel_three hr hg hb

end Sys2Proof.Machine
end

section
/-! PROOF. What a step can do to a decoder, and from it the constancy of the header of an open session and the
moves of DEC.NEXT (R28, R278). -/

namespace Sys2Proof.Machine

/-! ### Claims about the next state of an outcome -/

/-- The next state, where there is one, satisfies `P`. -/
def Ensures (P : State → Prop) : Host.Outcome State Fault Refusal → Prop
  | .next t => P t
  | .fault _ => True
  | .refused _ => True

section
variable {P Q : State → Prop} {s t : State}

@[simp] theorem ensures_next : Ensures P (.next t) ↔ P t := Iff.rfl
@[simp] theorem ensures_fault (r : Fault) : Ensures P (.fault r) := trivial
@[simp] theorem ensures_refused (r : Refusal) : Ensures P (.refused r) := trivial

theorem Ensures.mono {o : Host.Outcome State Fault Refusal} (hPQ : ∀ t, P t → Q t) (h : Ensures P o) :
    Ensures Q o := by
  cases o with
  | next t => exact hPQ t h
  | fault r => trivial
  | refused r => trivial

theorem ensures_ite {c : Prop} [Decidable c] {o o' : Host.Outcome State Fault Refusal} (h : c → Ensures P o)
    (h' : ¬ c → Ensures P o') : Ensures P (if c then o else o') := by
  split_ifs with hc
  · exact h hc
  · exact h' hc

theorem ensures_onEnc {e : Nat} {f : Enc → Host.Outcome State Fault Refusal}
    (h : ∀ enc, s.encAt e = some enc → Ensures P (f enc)) : Ensures P (s.onEnc e f) := by
  obtain ⟨-, ho⟩ | ⟨enc, henc, ho⟩ := s.onEnc_cases e f
  · simp [ho]
  · exact ho ▸ h enc henc

theorem ensures_onDec {d : Nat} {f : Dec → Host.Outcome State Fault Refusal}
    (h : ∀ dec, s.decAt d = some dec → Ensures P (f dec)) : Ensures P (s.onDec d f) := by
  obtain ⟨-, ho⟩ | ⟨dec, hdec, ho⟩ := s.onDec_cases d f
  · simp [ho]
  · exact ho ▸ h dec hdec

theorem ensures_tokenStep (hfinish : ∀ r, P (s.finish r)) (hexec : ∀ i, Ensures P (exec i s)) :
    Ensures P (tokenStep s) := by
  obtain ⟨-, ho⟩ | ⟨e, -, ho⟩ | ⟨i, -, ho⟩ := tokenStep_cases s
  · simp [ho]
  · exact ho ▸ hfinish _
  · exact ho ▸ hexec i

end

/-! ### The operations that leave every decoder as it is -/

/-- The outcome leaves the decoders of `s` as they are. -/
abbrev KeepsDecs (s : State) (o : Host.Outcome State Fault Refusal) : Prop := Ensures (fun t => t.decs = s.decs) o

section
variable (s : State)

theorem onePixel_keepsDecs (n : Nat) (writes : Bool) (px : Option Px) : KeepsDecs s (s.onePixel n writes px) := by
  obtain ⟨-, ho⟩ | ⟨-, -, ho⟩ | ⟨-, -, -, ho⟩ | ⟨-, -, p, -, ho⟩ := s.onePixel_cases n writes px
  · simp [ho]
  · exact ho ▸ State.abort_decs ..
  · simp [ho]
  · simp [ho]

theorem execRun_keepsDecs (n : Nat) : KeepsDecs s (execRun n s) := by
  unfold execRun
  split_ifs
  · split <;> simp
  · exact State.abort_decs ..
  · simp

theorem execQoif_keepsDecs (w h : Word) (ch cs : Byte) : KeepsDecs s (execQoif w h ch cs s) := by
  unfold execQoif
  split
  · split_ifs <;> simp
  all_goals simp

theorem execTerminator_keepsDecs : KeepsDecs s (execTerminator s) := by
  unfold execTerminator
  split
  · split_ifs
    · simp
    · exact State.abort_decs ..
    · simp
  all_goals simp

theorem execFrameIntra_keepsDecs : KeepsDecs s (execFrameIntra s) := by
  unfold execFrameIntra
  split <;> simp

theorem execFramePred_keepsDecs : KeepsDecs s (execFramePred s) := by
  unfold execFramePred
  split
  · split_ifs <;> simp
  all_goals simp

theorem encodeStep_keepsDecs : KeepsDecs s (encodeStep s) := by
  unfold encodeStep
  split
  · simp
  · split <;> simp

theorem finishFrame_keepsDecs (e : Nat) : KeepsDecs s (finishFrame e s) := by
  unfold finishFrame
  split
  · simp
  · dsimp only
    split_ifs <;> simp

theorem issueEncodeImage_keepsDecs (w h : Word) (ch cs : Byte) (pixels : List Byte) :
    KeepsDecs s (issueEncodeImage w h ch cs pixels s) := by
  unfold issueEncodeImage
  split_ifs <;> simp

theorem issueEncBegin_keepsDecs (e : Nat) (w h : Word) (ch : Byte) (fr : Word) :
    KeepsDecs s (issueEncBegin e w h ch fr s) :=
  ensures_onEnc fun enc _ => by split_ifs <;> simp

theorem issueEncFrame_keepsDecs (e : Nat) (kind : FrameKind) (pixels : List Byte) :
    KeepsDecs s (issueEncFrame e kind pixels s) :=
  ensures_onEnc fun enc _ => by
    split_ifs
    case neg => cases kind <;> simp
    all_goals simp

theorem issueEncFlush_keepsDecs (e : Nat) : KeepsDecs s (issueEncFlush e s) :=
  ensures_onEnc fun enc _ => by split_ifs <;> simp

/-- The reads of DEC_OPEN take queued replies alone; its header is still to be read. -/
theorem issueDecOpen_keepsDecs (d : Nat) (src : Source) : KeepsDecs s (issueDecOpen d src s) :=
  ensures_onDec fun dec _ => by
    dsimp only
    split <;> simp [State.readPrefix_frame]

theorem issueDecNext_keepsDecs (d : Nat) : KeepsDecs s (issueDecNext d s) :=
  ensures_onDec fun dec _ => by
    dsimp only
    split_ifs
    · simp
    · simp
    · split
      · simp
      · split
        · split_ifs <;> simp [State.readRange_frame]
        · simp

theorem issueDecFrame_keepsDecs (cache : Cache) (ref : Option (List Byte)) (w h : Word) (ch : Byte)
    (frame : List Byte) : KeepsDecs s (issueDecFrame cache ref w h ch frame s) := by
  unfold issueDecFrame
  split_ifs <;> simp

end

/-! ### What a step can do to one decoder -/

/-- Everything a step from `s` can leave as decoder d: what it was, the session of a header just read (R263), the
session with one frame more decoded (R274), the session rewound (R276), a new decoder (R340), or none (R256). -/
inductive DecoderStep (s : State) (d : Nat) : Option Dec → Prop
  | kept : DecoderStep s d (s.decAt d)
  | opened (src : Source) (w h : Word) (ch : Byte) (fr n hs : Word) (off : List Word)
      (hphase : s.work.phase = .containerHeader d src) :
      DecoderStep s d (some { mode := .opened, w, h, ch, fr, n, hs, off, len := src.len, src := some src,
                              next := 0, cache := Cache.zero, ref := none })
  | advanced (dec : Dec) (hphase : s.work.phase = .frameUnit (.session d)) (hdec : s.decAt d = some dec) :
      DecoderStep s d (some { dec with cache := s.work.wcache, ref := some s.work.out, next := dec.next + 1 })
  | restarted (dec : Dec) (rest : List HostAction) (hphase : s.work.phase = .idle)
      (hpending : s.io.pending = .issue (.decRestart d) :: rest) (hdec : s.decAt d = some dec) :
      DecoderStep s d (some { dec with next := 0, cache := Cache.zero, ref := none })
  | created (rest : List HostAction) (hphase : s.work.phase = .idle) (hpending : s.io.pending = .newDecoder :: rest)
      (hnew : d = s.decs.length) : DecoderStep s d (some Dec.reset)
  | discarded (rest : List HostAction) (hphase : s.work.phase = .idle)
      (hpending : s.io.pending = .discardDecoder d :: rest) : DecoderStep s d none

/-- The outcome does to decoder d what a step from `s` can do. -/
abbrev StepsDecoder (s : State) (d : Nat) (o : Host.Outcome State Fault Refusal) : Prop :=
  Ensures (fun t => DecoderStep s d (t.decAt d)) o

section
variable {s t : State} {d : Nat}

theorem State.decAt_congr (h : t.decs = s.decs) (d : Nat) : t.decAt d = s.decAt d := by simp only [State.decAt, h]

theorem DecoderStep.of_decs_eq (h : t.decs = s.decs) : DecoderStep s d (t.decAt d) :=
  State.decAt_congr h d ▸ .kept

theorem KeepsDecs.decoderStep {o : Host.Outcome State Fault Refusal} (h : KeepsDecs s o) : StepsDecoder s d o :=
  h.mono fun _ => .of_decs_eq

/-- A write to decoder k is a step of decoder d if it is one in case k is d (R333). -/
theorem DecoderStep.putDec {k : Nat} {x : Option Dec} (h : k = d → DecoderStep s d x)
    (ht : t.decs = (s.putDec k x).decs) : DecoderStep s d (t.decAt d) := by
  rw [State.decAt_congr ht, State.decAt_putDec]
  split_ifs with hk
  · exact h hk.1.symm
  · exact .kept

/-- A new decoder is a step of decoder d if it is one in case d is the number it takes (R340). -/
theorem DecoderStep.append {x : Option Dec} (h : d = s.decs.length → DecoderStep s d x)
    (ht : t.decs = s.decs ++ [x]) : DecoderStep s d (t.decAt d) := by
  rw [State.decAt, ht]
  obtain hd | rfl | hd := Nat.lt_trichotomy d s.decs.length
  · rw [List.getD_append _ _ _ _ hd]
    exact .kept
  · rw [List.getD_append_right _ _ _ _ le_rfl, Nat.sub_self]
    exact h rfl
  · rw [List.getD_eq_default _ _ (by simpa using hd), ← List.getD_eq_default s.decs none hd.le]
    exact .kept

theorem execQov1_decoderStep (hs w h fr : Word) (ch : Byte) (n : Word) (offs : List Word) :
    StepsDecoder s d (execQov1 hs w h fr ch n offs s) := by
  unfold execQov1
  cases hphase : s.work.phase with
  | containerHeader k src =>
    refine ensures_ite (fun _ => .of_decs_eq rfl) fun _ => ensures_ite (fun _ => .of_decs_eq rfl) fun _ =>
      ensures_ite (fun _ => .of_decs_eq rfl) fun _ => ?_
    split
    · exact .of_decs_eq rfl
    · refine ensures_ite (fun _ => .of_decs_eq rfl) fun _ => ?_
      split
      · trivial
      · exact .putDec (fun hk => .opened src w h ch fr n hs offs (hk ▸ hphase)) rfl
  | _ => trivial

theorem exec_decoderStep (i : Instr) : StepsDecoder s d (exec i s) := by
  cases i with
  | index k => exact (onePixel_keepsDecs s 1 false (some (cacheRead s.work.wcache k))).decoderStep
  | diff dr dg db => exact (onePixel_keepsDecs s _ _ _).decoderStep
  | luma dg drg dbg => exact (onePixel_keepsDecs s _ _ _).decoderStep
  | run n => exact (execRun_keepsDecs s n).decoderStep
  | rgb r g b => exact (onePixel_keepsDecs s _ _ _).decoderStep
  | rgba r g b a => exact (onePixel_keepsDecs s 5 true (some ⟨r, g, b, a⟩)).decoderStep
  | frameIntra => exact (execFrameIntra_keepsDecs s).decoderStep
  | framePred => exact (execFramePred_keepsDecs s).decoderStep
  | qoif w h ch cs => exact (execQoif_keepsDecs s w h ch cs).decoderStep
  | terminator => exact (execTerminator_keepsDecs s).decoderStep
  | qov1 hs w h fr ch n offs => exact execQov1_decoderStep hs w h fr ch n offs

theorem tokenStep_decoderStep : StepsDecoder s d (tokenStep s) :=
  ensures_tokenStep (fun _ => .of_decs_eq rfl) exec_decoderStep

theorem commitFrame_decoderStep {caller : FrameCaller} (hphase : s.work.phase = .frameUnit caller) :
    StepsDecoder s d (commitFrame caller s) := by
  cases caller with
  | session k =>
    simp only [commitFrame]
    cases hdec : s.decAt k with
    | none => trivial
    | some dec => exact .putDec (fun hk => .advanced dec (hk ▸ hphase) (hk ▸ hdec)) rfl
  | perFrame => exact .of_decs_eq rfl

theorem issue_decoderStep {c : Command} {rest : List HostAction} (hphase : s.work.phase = .idle)
    (hpending : s.io.pending = .issue c :: rest) :
    StepsDecoder s d (issue c { s with io := { s.io with pending := rest } }) := by
  cases c with
  | encodeImage w h ch cs pixels => exact KeepsDecs.decoderStep (issueEncodeImage_keepsDecs _ w h ch cs pixels)
  | decodeImage bytes => exact .of_decs_eq rfl
  | encBegin e w h ch fr => exact KeepsDecs.decoderStep (issueEncBegin_keepsDecs _ e w h ch fr)
  | encFrame e kind pixels => exact KeepsDecs.decoderStep (issueEncFrame_keepsDecs _ e kind pixels)
  | encFlush e => exact KeepsDecs.decoderStep (issueEncFlush_keepsDecs _ e)
  | decOpen k src => exact KeepsDecs.decoderStep (issueDecOpen_keepsDecs _ k src)
  | decNext k => exact KeepsDecs.decoderStep (issueDecNext_keepsDecs _ k)
  | decRestart k =>
    exact ensures_onDec fun dec hdec => ensures_ite (fun _ => .of_decs_eq rfl) fun _ =>
      .putDec (fun hk => .restarted dec rest hphase (hk ▸ hpending) (hk ▸ hdec)) rfl
  | decFrame cache ref w h ch frame => exact KeepsDecs.decoderStep (issueDecFrame_keepsDecs _ cache ref w h ch frame)
  | other code => trivial

theorem hostStep_decoderStep (hphase : s.work.phase = .idle) : StepsDecoder s d (hostStep s) := by
  unfold hostStep
  cases hpending : s.io.pending with
  | nil => exact .kept
  | cons action rest =>
    cases action with
    | issue c => exact issue_decoderStep hphase hpending
    | newEncoder => exact .of_decs_eq rfl
    | newDecoder => exact .append (.created rest hphase hpending) rfl
    | discardEncoder e => exact ensures_onEnc fun _ _ => .of_decs_eq rfl
    | discardDecoder k =>
      exact ensures_onDec fun _ _ => .putDec (fun hk => .discarded rest hphase (hk ▸ hpending)) rfl

/-- Everything a step can do to a decoder. -/
theorem step_decoderStep (d : Nat) (h : step s = .next t) : DecoderStep s d (t.decAt d) := by
  suffices hstep : StepsDecoder s d (step s) by rwa [h] at hstep
  unfold step
  cases hphase : s.work.phase with
  | idle => exact hostStep_decoderStep hphase
  | imageHeader => exact tokenStep_decoderStep
  | imageUnit => exact ensures_ite (fun _ => tokenStep_decoderStep) fun _ => exec_decoderStep .terminator
  | containerHeader k src => exact tokenStep_decoderStep
  | frameTag caller => exact tokenStep_decoderStep
  | frameUnit caller => exact ensures_ite (fun _ => tokenStep_decoderStep) fun _ => commitFrame_decoderStep hphase
  | encImage => exact ensures_ite (fun _ => (encodeStep_keepsDecs s).decoderStep) fun _ => .of_decs_eq rfl
  | encFrame e =>
    exact ensures_ite (fun _ => (encodeStep_keepsDecs s).decoderStep) fun _ => (finishFrame_keepsDecs s e).decoderStep

end

/-- Settles O47: of the things a step can do to a decoder, only the commit of a header writes more than NEXT, cache and
reference; NEXT moves by one with a decoded frame and to 0 with a header or a restart. -/
theorem decoderHeaderIsConstantAndNextMovesByOne : Obligations.DecoderHeaderIsConstantAndNextMovesByOne := by
  intro s t d before after hstep hbefore hafter
  have hd := step_decoderStep d hstep
  rw [hafter] at hd
  generalize hx : some after = x at hd
  cases hd with
  | kept =>
    obtain rfl : after = before := Option.some.inj (hx.trans hbefore)
    exact ⟨.inl rfl, fun _ => rfl⟩
  | opened src w h ch fr n hs off hphase =>
    cases hx
    exact ⟨.inr (.inr rfl), fun hne => absurd hphase (hne src)⟩
  | advanced dec hphase hdec =>
    obtain rfl : dec = before := Option.some.inj (hdec.symm.trans hbefore)
    cases hx
    exact ⟨.inr (.inl rfl), fun _ => rfl⟩
  | restarted dec rest hphase hpending hdec =>
    obtain rfl : dec = before := Option.some.inj (hdec.symm.trans hbefore)
    cases hx
    exact ⟨.inr (.inr rfl), fun _ => rfl⟩
  | created rest hphase hpending hnew => exact absurd (State.decAt_lt hbefore) hnew.not_lt
  | discarded rest hphase hpending => cases hx

end Sys2Proof.Machine
end

section
/-! PROOF. What one step of a command can change in the machine, and from it that instances change at a commit alone
(R70) and that a command in progress leaves the host's queue alone (R74). -/

namespace Sys2Proof.Machine

/-! ### What a step of a command can do to the machine -/

/-- Everything one step of a command can leave of `s`: the command goes on, and only its working registers and the
source's replies are new; it returns a result and leaves all encoders and decoders as they are; or it commits them
together with a result that is no error. -/
inductive CommandStep (s : State) : State → Prop
  | goesOn (wk : Work) (replies : List (List Byte)) :
      CommandStep s { s with work := wk, io := { s.io with replies } }
  | returns (r : Result) (replies : List (List Byte)) :
      CommandStep s ({ s with io := { s.io with replies } }.finish r)
  | commits (encs : List (Option Enc)) (decs : List (Option Dec)) (r : Result) (hr : ∀ e, r ≠ .error e) :
      CommandStep s ({ s with encs, decs }.finish r)

/-- The next state of the outcome, where there is one, is what a step of a command can leave of `s`. -/
abbrev StepsCommand (s : State) (o : Host.Outcome State Fault Refusal) : Prop := Ensures (CommandStep s) o

section
variable (s : State)

@[simp] theorem CommandStep.work (wk : Work) : CommandStep s { s with work := wk } := .goesOn wk s.io.replies
@[simp] theorem CommandStep.finish (r : Result) : CommandStep s (s.finish r) := .returns r s.io.replies
@[simp] theorem CommandStep.abort (code : ErrorCode) (info : Option Nat) : CommandStep s (s.abort code info) :=
  .finish s _
@[simp] theorem CommandStep.abortTruncated : CommandStep s s.abortTruncated := .finish s _
@[simp] theorem CommandStep.putEnc {r : Result} (hr : ∀ e, r ≠ .error e) (e : Nat) (x : Option Enc) :
    CommandStep s ((s.putEnc e x).finish r) := .commits (s.encs.set e x) s.decs r hr
@[simp] theorem CommandStep.putDec {r : Result} (hr : ∀ e, r ≠ .error e) (d : Nat) (x : Option Dec) :
    CommandStep s ((s.putDec d x).finish r) := .commits s.encs (s.decs.set d x) r hr

/-! ### The tokens -/

theorem onePixel_stepsCommand (n : Nat) (writes : Bool) (px : Option Px) :
    StepsCommand s (s.onePixel n writes px) := by
  obtain ⟨-, ho⟩ | ⟨-, -, ho⟩ | ⟨-, -, -, ho⟩ | ⟨-, -, p, -, ho⟩ := s.onePixel_cases n writes px <;> simp [ho]

theorem execRun_stepsCommand (n : Nat) : StepsCommand s (execRun n s) := by
  unfold execRun
  split_ifs
  · split <;> simp
  all_goals simp

theorem execQoif_stepsCommand (w h : Word) (ch cs : Byte) : StepsCommand s (execQoif w h ch cs s) := by
  unfold execQoif
  split
  · split_ifs <;> simp
  all_goals simp

theorem execTerminator_stepsCommand : StepsCommand s (execTerminator s) := by
  unfold execTerminator
  split
  · split_ifs <;> simp
  all_goals simp

theorem execFrameIntra_stepsCommand : StepsCommand s (execFrameIntra s) := by
  unfold execFrameIntra
  split <;> simp

theorem execFramePred_stepsCommand : StepsCommand s (execFramePred s) := by
  unfold execFramePred
  split
  · split_ifs <;> simp
  all_goals simp

/-- A container header passes its checks and commits the decoder, or the command aborts (R260, R263). -/
theorem execQov1_stepsCommand (hs w h fr : Word) (ch : Byte) (n : Word) (offs : List Word) :
    StepsCommand s (execQov1 hs w h fr ch n offs s) := by
  unfold execQov1
  split
  · refine ensures_ite (fun _ => .abort s _ _) fun _ => ensures_ite (fun _ => .abort s _ _) fun _ =>
      ensures_ite (fun _ => .abort s _ _) fun _ => ?_
    split
    · simp
    · refine ensures_ite (fun _ => .abort s _ _) fun _ => ?_
      split <;> simp
  all_goals simp

theorem exec_stepsCommand (i : Instr) : StepsCommand s (exec i s) := by
  cases i with
  | index k => exact onePixel_stepsCommand s 1 false (some (cacheRead s.work.wcache k))
  | diff dr dg db => exact onePixel_stepsCommand s _ _ _
  | luma dg drg dbg => exact onePixel_stepsCommand s _ _ _
  | run n => exact execRun_stepsCommand s n
  | rgb r g b => exact onePixel_stepsCommand s _ _ _
  | rgba r g b a => exact onePixel_stepsCommand s 5 true (some ⟨r, g, b, a⟩)
  | frameIntra => exact execFrameIntra_stepsCommand s
  | framePred => exact execFramePred_stepsCommand s
  | qoif w h ch cs => exact execQoif_stepsCommand s w h ch cs
  | terminator => exact execTerminator_stepsCommand s
  | qov1 hs w h fr ch n offs => exact execQov1_stepsCommand s hs w h fr ch n offs

theorem tokenStep_stepsCommand : StepsCommand s (tokenStep s) :=
  ensures_tokenStep (.finish s) (exec_stepsCommand s)

/-! ### The encoder's walk and the ends of the units -/

theorem encodeStep_stepsCommand : StepsCommand s (encodeStep s) := by
  unfold encodeStep
  split
  · simp
  · split <;> simp

theorem commitFrame_stepsCommand (caller : FrameCaller) : StepsCommand s (commitFrame caller s) := by
  unfold commitFrame
  split
  · split <;> simp
  · simp

theorem finishFrame_stepsCommand (e : Nat) : StepsCommand s (finishFrame e s) := by
  unfold finishFrame
  split
  · simp
  · dsimp only
    split_ifs <;> simp

/-! ### The starts of the commands -/

theorem issueEncodeImage_stepsCommand (w h : Word) (ch cs : Byte) (pixels : List Byte) :
    StepsCommand s (issueEncodeImage w h ch cs pixels s) := by
  unfold issueEncodeImage
  split_ifs <;> simp

theorem issueEncBegin_stepsCommand (e : Nat) (w h : Word) (ch : Byte) (fr : Word) :
    StepsCommand s (issueEncBegin e w h ch fr s) :=
  ensures_onEnc fun enc _ => by split_ifs <;> simp

theorem issueEncFrame_stepsCommand (e : Nat) (kind : FrameKind) (pixels : List Byte) :
    StepsCommand s (issueEncFrame e kind pixels s) :=
  ensures_onEnc fun enc _ => by
    split_ifs
    case neg => cases kind <;> simp
    all_goals simp

theorem issueEncFlush_stepsCommand (e : Nat) : StepsCommand s (issueEncFlush e s) :=
  ensures_onEnc fun enc _ => by split_ifs <;> simp

/-- The reads of DEC_OPEN take queued replies, at most one each. -/
theorem issueDecOpen_stepsCommand (d : Nat) (src : Source) : StepsCommand s (issueDecOpen d src s) :=
  ensures_onDec fun dec _ => by
    dsimp only
    split
    · rw [State.readPrefix_frame]
      exact .goesOn _ _
    · rw [State.readPrefix_frame, State.readPrefix_frame]
      exact .goesOn _ _

/-- The fetch of DEC_NEXT takes one queued reply, and a short one aborts the command. -/
theorem issueDecNext_stepsCommand (d : Nat) : StepsCommand s (issueDecNext d s) :=
  ensures_onDec fun dec _ => by
    dsimp only
    split_ifs
    · simp
    · simp
    · split
      · simp
      · split
        · rw [State.readRange_frame]
          exact ensures_ite (fun _ => .returns _ _) fun _ => .goesOn _ _
        · simp

theorem issueDecRestart_stepsCommand (d : Nat) : StepsCommand s (issueDecRestart d s) :=
  ensures_onDec fun dec _ => by split_ifs <;> simp

theorem issueDecFrame_stepsCommand (cache : Cache) (ref : Option (List Byte)) (w h : Word) (ch : Byte)
    (frame : List Byte) : StepsCommand s (issueDecFrame cache ref w h ch frame s) := by
  unfold issueDecFrame
  split_ifs <;> simp

theorem issue_stepsCommand (c : Command) : StepsCommand s (issue c s) := by
  cases c with
  | encodeImage w h ch cs pixels => exact issueEncodeImage_stepsCommand s w h ch cs pixels
  | decodeImage bytes => exact .work s _
  | encBegin e w h ch fr => exact issueEncBegin_stepsCommand s e w h ch fr
  | encFrame e kind pixels => exact issueEncFrame_stepsCommand s e kind pixels
  | encFlush e => exact issueEncFlush_stepsCommand s e
  | decOpen d src => exact issueDecOpen_stepsCommand s d src
  | decNext d => exact issueDecNext_stepsCommand s d
  | decRestart d => exact issueDecRestart_stepsCommand s d
  | decFrame cache ref w h ch frame => exact issueDecFrame_stepsCommand s cache ref w h ch frame
  | other code => trivial

end

/-! ### The step of the core -/

section
variable {s t : State} {rest : List HostAction}

/-- While a command is in progress, a step of the core is a step of that command. -/
theorem step_commandStep (hphase : s.work.phase ≠ .idle) (h : step s = .next t) : CommandStep s t := by
  suffices hstep : StepsCommand s (step s) by rwa [h] at hstep
  have htoken := tokenStep_stepsCommand s
  have hencode := encodeStep_stepsCommand s
  unfold step
  cases hp : s.work.phase with
  | idle => exact absurd hp hphase
  | imageHeader => exact htoken
  | imageUnit => exact ensures_ite (fun _ => htoken) fun _ => exec_stepsCommand s .terminator
  | containerHeader d src => exact htoken
  | frameTag caller => exact htoken
  | frameUnit caller => exact ensures_ite (fun _ => htoken) fun _ => commitFrame_stepsCommand s caller
  | encImage => exact ensures_ite (fun _ => hencode) fun _ => .finish s _
  | encFrame e => exact ensures_ite (fun _ => hencode) fun _ => finishFrame_stepsCommand s e

theorem step_idle_nil (hphase : s.work.phase = .idle) (hpending : s.io.pending = []) : step s = .next s := by
  simp [step_idle hphase, hostStep, hpending]

theorem step_newEncoder (hphase : s.work.phase = .idle) (hpending : s.io.pending = .newEncoder :: rest) :
    step s = .next { s with encs := s.encs ++ [some Enc.reset], io := { s.io with pending := rest } } := by
  simp [step_idle hphase, hostStep, hpending]

theorem step_newDecoder (hphase : s.work.phase = .idle) (hpending : s.io.pending = .newDecoder :: rest) :
    step s = .next { s with decs := s.decs ++ [some Dec.reset], io := { s.io with pending := rest } } := by
  simp [step_idle hphase, hostStep, hpending]

/-- A discard is done with the encoder addressed, so it is refused where that does not exist (`step_discardDecoder`
likewise). -/
theorem step_discardEncoder {e : Nat} (hphase : s.work.phase = .idle)
    (hpending : s.io.pending = .discardEncoder e :: rest) :
    step s = s.onEnc e fun _ =>
      .next { s with encs := s.encs.set e none, io := { s.io with pending := rest } } := by
  rw [step_idle hphase, hostStep, hpending]
  rfl

theorem step_discardDecoder {d : Nat} (hphase : s.work.phase = .idle)
    (hpending : s.io.pending = .discardDecoder d :: rest) :
    step s = s.onDec d fun _ =>
      .next { s with decs := s.decs.set d none, io := { s.io with pending := rest } } := by
  rw [step_idle hphase, hostStep, hpending]
  rfl

theorem State.onEnc_none {e : Nat} (h : s.encAt e = none) (f : Enc → Host.Outcome State Fault Refusal) :
    s.onEnc e f = .refused .noSuchInstance := by simp [State.onEnc, h]

theorem State.onDec_none {d : Nat} (h : s.decAt d = none) (f : Dec → Host.Outcome State Fault Refusal) :
    s.onDec d f = .refused .noSuchInstance := by simp [State.onDec, h]

theorem issue_encoder_none {e : Nat} (h : s.encAt e = none) (w ht fr : Word) (ch : Byte) (kind : FrameKind)
    (pixels : List Byte) :
    ∀ c ∈ [Command.encBegin e w ht ch fr, .encFrame e kind pixels, .encFlush e],
      issue c s = .refused .noSuchInstance := by
  simp only [List.forall_mem_cons]
  exact ⟨State.onEnc_none h _, State.onEnc_none h _, State.onEnc_none h _, List.forall_mem_nil _⟩

theorem issue_decoder_none {d : Nat} (h : s.decAt d = none) (src : Source) :
    ∀ c ∈ [Command.decOpen d src, .decNext d, .decRestart d], issue c s = .refused .noSuchInstance := by
  simp only [List.forall_mem_cons]
  exact ⟨State.onDec_none h _, State.onDec_none h _, State.onDec_none h _, List.forall_mem_nil _⟩

/-- A step of a command leaves the host's queue as it is (R74). -/
theorem CommandStep.pending_eq (h : CommandStep s t) : t.io.pending = s.io.pending := by
  cases h <;> rfl

/-- A step of a command that changes an encoder or decoder ends it with one result that is no error (R70). -/
theorem CommandStep.commit_of_instances_ne (h : CommandStep s t) (hne : t.encs ≠ s.encs ∨ t.decs ≠ s.decs) :
    t.work = Work.idle ∧ ∃ r, t.io.results = s.io.results ++ [r] ∧ ∀ e, r ≠ .error e := by
  cases h with
  | goesOn wk replies => simp at hne
  | returns r replies => simp at hne
  | commits encs decs r hr => exact ⟨rfl, r, rfl, hr⟩

end

/-- Settles O46: the step of a command in progress is a `CommandStep`, and so is the step that issues one; every other
step that changes an encoder or decoder is a creation or a discard. -/
theorem instancesChangeOnlyAtACommit : Obligations.InstancesChangeOnlyAtACommit := by
  intro s t hstep hne
  by_cases hphase : s.work.phase = .idle
  case neg => exact .inr ((step_commandStep hphase hstep).commit_of_instances_ne hne)
  cases hpending : s.io.pending with
  | nil =>
    obtain rfl : s = t := by simpa [step_idle_nil hphase hpending] using hstep
    simp at hne
  | cons action rest =>
    by_cases hissue : ∃ c, action = .issue c
    · obtain ⟨c, rfl⟩ := hissue
      have hcmd := issue_stepsCommand { s with io := { s.io with pending := rest } } c
      rw [← step_issue hphase hpending, hstep] at hcmd
      exact .inr (hcmd.commit_of_instances_ne hne)
    · exact .inl ⟨hphase, action, rest, rfl, not_exists.1 hissue⟩

/-- Settles O34: the step of an idle core by the oldest queued action, the untouched queue of a command in progress, and
the refusal of what addresses an encoder or decoder that does not exist. -/
theorem hostActionsTakeEffectInOrder : Obligations.HostActionsTakeEffectInOrder := by
  refine ⟨fun s rest hphase => ⟨fun c => step_issue hphase, step_newEncoder hphase, step_newDecoder hphase,
      fun e hpending => ?_, fun d hpending => ?_⟩,
    fun s => step_idle_nil, fun s t hphase hstep => (step_commandStep hphase hstep).pending_eq,
    fun s e w h fr ch kind pixels hnone => issue_encoder_none hnone w h fr ch kind pixels,
    fun s d src hnone => issue_decoder_none hnone src⟩
  · rw [step_discardEncoder hphase hpending]
    exact ⟨fun hnone => State.onEnc_none hnone _, fun enc henc => State.onEnc_some henc _⟩
  · rw [step_discardDecoder hphase hpending]
    exact ⟨fun hnone => State.onDec_none hnone _, fun dec hdec => State.onDec_some hdec _⟩

end Sys2Proof.Machine
end

section
/-! PROOF. The tag of a frame (R112, R215): what the decoder makes of it, and the step of a frame command whose tag
cannot be read (R210). -/

namespace Sys2Proof.Machine

/-! ### The tag decoder -/

theorem decodeTag_intra (rest : List Byte) : decodeTag (0x00 :: rest) = .ok .frameIntra := rfl

theorem decodeTag_pred (rest : List Byte) : decodeTag (0x01 :: rest) = .ok .framePred := rfl

theorem decodeTag_other {t : Byte} (hintra : t ≠ 0x00) (hpred : t ≠ 0x01) (rest : List Byte) :
    decodeTag (t :: rest) = .error .badTag := by
  rw [decodeTag, if_neg hintra, if_neg hpred]

/-! ### The byte read as the tag -/

theorem Memory.readBytes_one (m : Memory) (a : Nat) : m.readBytes a 1 = (m.readByte a).toList := by
  cases h : m.readByte a <;> simp [Memory.readBytes, h]

theorem Work.fetch_frameTag {wk : Work} {caller : FrameCaller} (hphase : wk.phase = .frameTag caller) :
    wk.fetch = some (decodeTag (wk.inp.readByte 0).toList) := by
  rw [Work.fetch, hphase, Memory.readBytes_one]

/-! ### A frame whose tag cannot be read -/

theorem tokenStep_of_fetch_error {s : State} {e : DecodeError} (h : s.work.fetch = some (.error e)) :
    tokenStep s = .next (s.finish (.error (s.work.fetchError e))) := by
  rw [tokenStep, h]

theorem step_frameTag_of_error {s : State} {caller : FrameCaller} {e : DecodeError}
    (hphase : s.work.phase = .frameTag caller) (htag : decodeTag (s.work.inp.readByte 0).toList = .error e) :
    step s = .next (s.finish (.error (s.work.fetchError e))) := by
  rw [step_frameTag hphase, tokenStep_of_fetch_error (by rw [Work.fetch_frameTag hphase, htag])]

/-- Settles O4: the tag decoder by the value of the byte, and the abort of a frame command by why its tag cannot be
read, a byte that is no tag or no byte at all. -/
theorem frameTagSelectsTheKind : Obligations.FrameTagSelectsTheKind := by
  refine ⟨decodeTag_intra, decodeTag_pred, fun s caller t hphase hbyte hintra hpred => ?_,
    fun s caller hphase hbyte => ?_⟩
  · have htag : decodeTag (s.work.inp.readByte 0).toList = .error .badTag := by
      rw [hbyte]
      exact decodeTag_other hintra hpred []
    exact step_frameTag_of_error hphase htag
  · have htag : decodeTag (s.work.inp.readByte 0).toList = .error .emptyFrame := by
      rw [hbyte]
      rfl
    exact step_frameTag_of_error hphase htag

end Sys2Proof.Machine
end

section
/-! PROOF. The channel deltas (R134 to R136): the signed reading of eight bits, and the one delta that moves a
prediction to a channel. -/

namespace Sys2Proof.Machine

open Sys2Proof.Claims

/-! ### The signed reading of eight bits -/

theorem sext8_eq_bmod (v : Int) : sext8 v = v.bmod 256 := BitVec.toInt_ofInt v

/-- `sext8 v` lies in -128..127 and equals `v` modulo 256. -/
theorem sext8_spec (v : Int) : -128 ≤ sext8 v ∧ sext8 v ≤ 127 ∧ sext8 v % 256 = v % 256 := by
  rw [sext8_eq_bmod]
  refine ⟨Int.le_bmod (by decide), Int.le_of_lt_add_one (Int.bmod_lt (by decide)), Int.bmod_emod⟩

theorem sext8_of_range {v : Int} (hlo : -128 ≤ v) (hhi : v ≤ 127) : sext8 v = v := by
  have := sext8_spec v
  omega

theorem inRange_iff {lo hi v : Int} : inRange lo hi v = true ↔ lo ≤ v ∧ v ≤ hi := by simp [inRange]

/-- The inference in R135: a difference of deltas that leaves -128..127 is still outside -8..7 when read modulo 256. -/
theorem inRange_sext8_sub {d dg : Int} (hd : -128 ≤ d ∧ d ≤ 127) (hdg : -32 ≤ dg ∧ dg ≤ 31) :
    inRange (-8) 7 (sext8 (d - dg)) = inRange (-8) 7 (d - dg) := by
  have := sext8_spec (d - dg)
  rw [Bool.eq_iff_iff, inRange_iff, inRange_iff]
  omega

/-! ### The delta of a channel -/

theorem toNat_addDelta (ch : Byte) (d : Int) : ((addDelta ch d).toNat : Int) = ((ch.toNat : Int) + d) % 256 := by
  rw [addDelta, BitVec.toNat_ofInt]
  omega

theorem moved_iff_addDelta {before after : Byte} {d : Int} : Moved before after d ↔ addDelta before d = after := by
  rw [Moved, ← toNat_addDelta, Int.natCast_inj, BitVec.toNat_inj, eq_comm]

theorem moved_delta (cur pred : Byte) : Moved pred cur (delta cur pred) := by
  have hmod := (sext8_spec (cur.toNat - pred.toNat)).2.2
  have hcur := cur.isLt
  rw [Moved, delta]
  omega

/-- Two values of -128..127 that move a prediction to the same channel are equal modulo 256, so equal. -/
theorem eq_delta_of_moved {cur pred : Byte} {d : Int} (hlo : -128 ≤ d) (hhi : d ≤ 127) (h : Moved pred cur d) :
    d = delta cur pred := by
  obtain ⟨hlo', hhi', hmod⟩ := sext8_spec (cur.toNat - pred.toNat)
  rw [Moved] at h
  rw [delta]
  omega

/-- A difference of deltas read modulo 256 reaches the channel the deltas reach. -/
theorem moved_add_sext8_sub {before after : Byte} {d : Int} (h : Moved before after d) (dg : Int) :
    Moved before after (dg + sext8 (d - dg)) := by
  have := sext8_spec (d - dg)
  rw [Moved] at h ⊢
  omega

/-- Settles O7: the signed reading gives range and residue of a delta, and a residue has one value in that range. -/
theorem channelDeltasAreSignedAndExact : Obligations.ChannelDeltasAreSignedAndExact := by
  refine ⟨fun cur pred => ?_, fun d dg hd hd' hdg hdg' => ⟨inRange_sext8_sub ⟨hd, hd'⟩ ⟨hdg, hdg'⟩, fun h => ?_⟩⟩
  · obtain ⟨hlo, hhi, -⟩ := sext8_spec (cur.toNat - pred.toNat)
    exact ⟨hlo, hhi, moved_delta cur pred, moved_iff_addDelta.1 (moved_delta cur pred),
      fun d hd hd' => eq_delta_of_moved hd hd'⟩
  · rw [inRange_iff] at h
    exact sext8_of_range (by omega) (by omega)

end Sys2Proof.Machine
end

section
/-! PROOF. The encoder's choice of opcode (R145): which opcode is picked when, and that its decode rule gives the pixel
back (R157). -/

namespace Sys2Proof.Machine

open Sys2Proof.Claims

section
variable {hashOf : Px → Slot} {cache : Cache} {pred cur : Px}

/-! ### The priority of the opcodes -/

theorem selectOpcode_hit (hhit : cacheRead cache (hashOf cur) = cur) :
    selectOpcode hashOf cache pred cur = .index (hashOf cur) := if_pos hhit

theorem selectOpcode_miss (hmiss : cacheRead cache (hashOf cur) ≠ cur) :
    selectOpcode hashOf cache pred cur = selectDelta pred cur := if_neg hmiss

theorem selectDelta_alpha (ha : cur.a ≠ pred.a) : selectDelta pred cur = .rgba cur.r cur.g cur.b cur.a := if_neg ha

theorem diffFits_iff {dr dg db : Int} :
    diffFits dr dg db = true ↔ (-2 ≤ dr ∧ dr ≤ 1) ∧ (-2 ≤ dg ∧ dg ≤ 1) ∧ (-2 ≤ db ∧ db ≤ 1) := by
  simp only [diffFits, Bool.and_eq_true, inRange_iff, and_assoc]

theorem lumaFits_iff {dg drg dbg : Int} :
    lumaFits dg drg dbg = true ↔ (-32 ≤ dg ∧ dg ≤ 31) ∧ (-8 ≤ drg ∧ drg ≤ 7) ∧ (-8 ≤ dbg ∧ dbg ≤ 7) := by
  simp only [lumaFits, Bool.and_eq_true, inRange_iff, and_assoc]

/-- The operands of DIFF that code `cur`: three deltas in -2..1 that reach its channels (R145.2). -/
def DiffCodes (pred cur : Px) (dr dg db : Int) : Prop :=
  diffFits dr dg db = true ∧ Moved pred.r cur.r dr ∧ Moved pred.g cur.g dg ∧ Moved pred.b cur.b db

/-- The operands of LUMA that code `cur`: in their ranges, and reaching its channels together (R145.3). -/
def LumaCodes (pred cur : Px) (dg drg dbg : Int) : Prop :=
  lumaFits dg drg dbg = true ∧ Moved pred.r cur.r (dg + drg) ∧ Moved pred.g cur.g dg ∧ Moved pred.b cur.b (dg + dbg)

theorem selectDelta_diff {dr dg db : Int} (ha : cur.a = pred.a) (h : DiffCodes pred cur dr dg db) :
    selectDelta pred cur = .diff dr dg db := by
  obtain ⟨hfits, hr, hg, hb⟩ := h
  obtain ⟨⟨hr1, hr2⟩, ⟨hg1, hg2⟩, hb1, hb2⟩ := diffFits_iff.1 hfits
  obtain rfl := eq_delta_of_moved (by omega) (by omega) hr
  obtain rfl := eq_delta_of_moved (by omega) (by omega) hg
  obtain rfl := eq_delta_of_moved (by omega) (by omega) hb
  rw [selectDelta, if_pos ha]
  exact if_pos hfits

/-- Where no operands of DIFF code the pixel, its deltas do not fit DIFF, and LUMA is tried. -/
theorem selectDelta_not_diff (ha : cur.a = pred.a) (h : ∀ dr dg db, ¬ DiffCodes pred cur dr dg db) :
    selectDelta pred cur =
      let dg := delta cur.g pred.g
      let drg := sext8 (delta cur.r pred.r - dg)
      let dbg := sext8 (delta cur.b pred.b - dg)
      if lumaFits dg drg dbg then .luma dg drg dbg else .rgb cur.r cur.g cur.b := by
  rw [selectDelta, if_pos ha]
  exact if_neg fun hfits => h _ _ _ ⟨hfits, moved_delta _ _, moved_delta _ _, moved_delta _ _⟩

theorem selectDelta_luma {dg drg dbg : Int} (ha : cur.a = pred.a) (hdiff : ∀ dr dg db, ¬ DiffCodes pred cur dr dg db)
    (h : LumaCodes pred cur dg drg dbg) : selectDelta pred cur = .luma dg drg dbg := by
  obtain ⟨hfits, hr, hg, hb⟩ := h
  obtain ⟨⟨hg1, hg2⟩, ⟨hr1, hr2⟩, hb1, hb2⟩ := lumaFits_iff.1 hfits
  obtain rfl := eq_delta_of_moved (by omega) (by omega) hg
  rw [selectDelta_not_diff ha hdiff, ← eq_delta_of_moved (by omega) (by omega) hr,
    ← eq_delta_of_moved (by omega) (by omega) hb]
  simp only [add_sub_cancel_left]
  rw [sext8_of_range (by omega) (by omega), sext8_of_range (by omega) (by omega)]
  exact if_pos hfits

theorem selectDelta_rgb (ha : cur.a = pred.a) (hdiff : ∀ dr dg db, ¬ DiffCodes pred cur dr dg db)
    (hluma : ∀ dg drg dbg, ¬ LumaCodes pred cur dg drg dbg) : selectDelta pred cur = .rgb cur.r cur.g cur.b := by
  rw [selectDelta_not_diff ha hdiff]
  exact if_neg fun hfits => hluma _ _ _ ⟨hfits, moved_add_sext8_sub (moved_delta _ _) _, moved_delta _ _,
    moved_add_sext8_sub (moved_delta _ _) _⟩

/-- Everything the encoder can pick (R145): each opcode with the reason it codes the pixel. -/
theorem selectOpcode_cases (hashOf : Px → Slot) (cache : Cache) (pred cur : Px) :
    (cacheRead cache (hashOf cur) = cur ∧ selectOpcode hashOf cache pred cur = .index (hashOf cur)) ∨
    (cacheRead cache (hashOf cur) ≠ cur ∧
      (selectOpcode hashOf cache pred cur = .rgba cur.r cur.g cur.b cur.a ∨
      (cur.a = pred.a ∧
        ((∃ dr dg db, DiffCodes pred cur dr dg db ∧ selectOpcode hashOf cache pred cur = .diff dr dg db) ∨
        (∃ dg drg dbg, LumaCodes pred cur dg drg dbg ∧ selectOpcode hashOf cache pred cur = .luma dg drg dbg) ∨
        selectOpcode hashOf cache pred cur = .rgb cur.r cur.g cur.b)))) := by
  by_cases hhit : cacheRead cache (hashOf cur) = cur
  · exact .inl ⟨hhit, selectOpcode_hit hhit⟩
  rw [selectOpcode_miss hhit]
  refine .inr ⟨hhit, ?_⟩
  by_cases ha : cur.a = pred.a
  case neg => exact .inl (selectDelta_alpha ha)
  refine .inr ⟨ha, ?_⟩
  by_cases hdiff : ∃ dr dg db, DiffCodes pred cur dr dg db
  · obtain ⟨dr, dg, db, h⟩ := hdiff
    exact .inl ⟨dr, dg, db, h, selectDelta_diff ha h⟩
  push Not at hdiff
  by_cases hluma : ∃ dg drg dbg, LumaCodes pred cur dg drg dbg
  · obtain ⟨dg, drg, dbg, h⟩ := hluma
    exact .inr (.inl ⟨dg, drg, dbg, h, selectDelta_luma ha hdiff h⟩)
  push Not at hluma
  exact .inr (.inr (selectDelta_rgb ha hdiff hluma))

end

/-- Settles O30: the test of each opcode is that operands in its ranges reach the pixel, and such operands are the
deltas themselves. -/
theorem encoderPicksTheFirstApplicableOpcode : Obligations.EncoderPicksTheFirstApplicableOpcode := by
  refine fun hashOf cache pred cur _ => ⟨selectOpcode_hit, fun hmiss => ?_⟩
  rw [selectOpcode_miss hmiss]
  refine ⟨selectDelta_alpha, fun ha => ⟨fun dr dg db hr hr' hg hg' hb hb' mr mg mb =>
    selectDelta_diff ha ⟨diffFits_iff.2 ⟨⟨hr, hr'⟩, ⟨hg, hg'⟩, hb, hb'⟩, mr, mg, mb⟩, fun hdiff => ?_⟩⟩
  have hnodiff : ∀ dr dg db, ¬ DiffCodes pred cur dr dg db := by
    rintro dr dg db ⟨hfits, hmoved⟩
    obtain ⟨⟨hr, hr'⟩, ⟨hg, hg'⟩, hb, hb'⟩ := diffFits_iff.1 hfits
    exact hdiff dr dg db hr hr' hg hg' hb hb' hmoved
  refine ⟨fun dg drg dbg hg hg' hr hr' hb hb' mr mg mb =>
    selectDelta_luma ha hnodiff ⟨lumaFits_iff.2 ⟨⟨hg, hg'⟩, ⟨hr, hr'⟩, hb, hb'⟩, mr, mg, mb⟩, fun hluma => ?_⟩
  refine selectDelta_rgb ha hnodiff ?_
  rintro dg drg dbg ⟨hfits, hmoved⟩
  obtain ⟨⟨hg, hg'⟩, ⟨hr, hr'⟩, hb, hb'⟩ := lumaFits_iff.1 hfits
  exact hluma dg drg dbg hg hg' hr hr' hb hb' hmoved

end Sys2Proof.Machine
end

section
/-! PROOF. The opcodes that produce one pixel (R152, R155, R156): `exec` of each by the pixel of its decode rule, and
the opcode the encoder picks decoded to the pixel it coded (R157). -/

namespace Sys2Proof.Machine

open Sys2Proof.Claims

/-! ### The pixel written -/

theorem Memory.pixelAt_writePixel (m : Memory) (ch : Byte) (i : Nat) (p : Px) :
    PixelAt (m.writePixel ch i p) ch i p := by
  unfold PixelAt Memory.writePixel pixelBytes
  split_ifs with hch
  · simp [Memory.readByte_writeBytes]
  · simpa [Memory.readByte_writeBytes] using fun h => absurd h hch

theorem Memory.sameOutside_writePixel (m : Memory) (ch : Byte) (i : Nat) (p : Px) :
    SameOutside m (m.writePixel ch i p) (i * ch.toNat) (i * ch.toNat + (pixelBytes ch p).length) := by
  intro a ha
  rw [Memory.writePixel, Memory.readByte_writeBytes, if_neg (by omega)]

/-! ### `State.onePixel` where it completes -/

/-- The state after an opcode of n bytes that produces the pixel p. -/
def State.afterPixel (s : State) (n : Nat) (writes : Bool) (p : Px) : State :=
  { s with work := { (if writes then s.work.remember s.hash p else s.work).emit1 p with ptr := s.work.ptr + n } }

section
variable {s : State} {n : Nat}

theorem State.onePixel_some (writes : Bool) (p : Px) (hwalk : s.work.walking = true)
    (hfits : s.work.ptr + n ≤ s.work.endp) : s.onePixel n writes (some p) = .next (s.afterPixel n writes p) := by
  rw [State.onePixel, if_pos hwalk, if_pos hfits]
  rfl

@[simp] theorem State.afterPixel_prev (writes : Bool) (p : Px) : (s.afterPixel n writes p).work.prev = p := rfl

theorem State.afterPixel_wcache (writes : Bool) (p : Px) :
    (s.afterPixel n writes p).work.wcache =
      if writes then cacheWrite s.work.wcache (s.hash p) p else s.work.wcache := by
  cases writes <;> rfl

theorem State.onePixel_afterPixel (writes : Bool) (p : Px) : OnePixel s (s.afterPixel n writes p) n p := by
  have hout : (s.afterPixel n writes p).work.out = s.work.out.writePixel s.work.ch s.work.i p := by
    cases writes <;> rfl
  refine ⟨by cases writes <;> rfl, ?_, ?_⟩ <;> rw [hout]
  · exact Memory.pixelAt_writePixel ..
  · exact Memory.sameOutside_writePixel _ _ _ _

/-! ### `exec` of the one-pixel opcodes -/

theorem exec_of_opcodePixel {i : Instr} {pred p : Px} (hpred : s.work.pred = some pred)
    (hpx : opcodePixel s.work.wcache pred i = some p) :
    exec i s = s.onePixel i.size (writesCache i) (some p) := by
  cases i with
  | index k => rw [← hpx]; rfl
  | diff dr dg db => rw [← hpx, exec, execDiff, hpred]; rfl
  | luma dg drg dbg => rw [← hpx, exec, execLuma, hpred]; rfl
  | rgb r g b => rw [← hpx, exec, execRgb, hpred]; rfl
  | rgba r g b a => rw [← hpx]; rfl
  | run n => cases hpx
  | frameIntra => cases hpx
  | framePred => cases hpx
  | qoif w h ch cs => cases hpx
  | terminator => cases hpx
  | qov1 hs w h fr ch n offs => cases hpx

theorem exec_onePixel {i : Instr} {pred p : Px} (hwalk : s.work.walking = true) (hpred : s.work.pred = some pred)
    (hfits : s.work.ptr + i.size ≤ s.work.endp) (hpx : opcodePixel s.work.wcache pred i = some p) :
    exec i s = .next (s.afterPixel i.size (writesCache i) p) := by
  rw [exec_of_opcodePixel hpred hpx, State.onePixel_some _ _ hwalk hfits]

end

/-! ### The opcode the encoder picks -/

section
variable {pred cur : Px}

theorem DiffCodes.diffPixel_eq {dr dg db : Int} (h : DiffCodes pred cur dr dg db) (ha : cur.a = pred.a) :
    diffPixel dr dg db pred = cur := by
  obtain ⟨-, hr, hg, hb⟩ := h
  rw [diffPixel, moved_iff_addDelta.1 hr, moved_iff_addDelta.1 hg, moved_iff_addDelta.1 hb, ← ha]

theorem LumaCodes.lumaPixel_eq {dg drg dbg : Int} (h : LumaCodes pred cur dg drg dbg) (ha : cur.a = pred.a) :
    lumaPixel dg drg dbg pred = cur := by
  obtain ⟨-, hr, hg, hb⟩ := h
  rw [lumaPixel, moved_iff_addDelta.1 hr, moved_iff_addDelta.1 hg, moved_iff_addDelta.1 hb, ← ha]

variable (hashOf : Px → Slot) (cache : Cache) (pred cur : Px)

theorem wellFormed_selectOpcode : (selectOpcode hashOf cache pred cur).wellFormed = true := by
  obtain ⟨-, ho⟩ | ⟨-, ho | ⟨-, ⟨dr, dg, db, h, ho⟩ | ⟨dg, drg, dbg, h, ho⟩ | ho⟩⟩ :=
    selectOpcode_cases hashOf cache pred cur <;> rw [ho]
  · rfl
  · rfl
  · exact h.1
  · exact h.1
  · rfl

theorem opcodePixel_selectOpcode : opcodePixel cache pred (selectOpcode hashOf cache pred cur) = some cur := by
  obtain ⟨hhit, ho⟩ | ⟨-, ho | ⟨ha, ⟨dr, dg, db, h, ho⟩ | ⟨dg, drg, dbg, h, ho⟩ | ho⟩⟩ :=
    selectOpcode_cases hashOf cache pred cur <;> rw [ho]
  · exact congrArg some hhit
  · rfl
  · exact congrArg some (h.diffPixel_eq ha)
  · exact congrArg some (h.lumaPixel_eq ha)
  · rw [opcodePixel, rgbPixel, ← ha]

/-- The decoder writes the cache after exactly the opcodes after which the encoder does: all but INDEX. -/
theorem cacheAfter_eq_writesCache :
    cacheAfter hashOf cache cur =
      if writesCache (selectOpcode hashOf cache pred cur) then cacheWrite cache (hashOf cur) cur else cache := by
  obtain ⟨hhit, ho⟩ | ⟨hmiss, ho⟩ := selectOpcode_cases hashOf cache pred cur
  · rw [ho, cacheAfter, if_pos hhit]
    rfl
  · rw [cacheAfter, if_neg hmiss]
    obtain ho | ⟨-, ⟨dr, dg, db, -, ho⟩ | ⟨dg, drg, dbg, -, ho⟩ | ho⟩ := ho <;> rw [ho] <;> rfl

end

/-- Settles O31: the reason an opcode is picked is that its decode rule gives the pixel, and `exec` produces the pixel
of that rule. -/
theorem decoderInvertsTheEncodersChoice : Obligations.DecoderInvertsTheEncodersChoice := by
  refine ⟨fun hashOf cache pred cur => ⟨wellFormed_selectOpcode .., opcodePixel_selectOpcode ..,
      cacheAfter_eq_writesCache ..⟩, fun s i pred p hwalk hpred hfits hpx => ?_, ?_⟩
  · exact ⟨_, exec_onePixel hwalk hpred hfits hpx, State.onePixel_afterPixel _ _, State.afterPixel_wcache _ _⟩
  · rintro s pred cur i hwalk hpred rfl hfits
    refine ⟨_, exec_onePixel hwalk hpred hfits (opcodePixel_selectOpcode ..), State.onePixel_afterPixel _ _, rfl, ?_⟩
    rw [State.afterPixel_wcache, cacheAfter_eq_writesCache]

end Sys2Proof.Machine
end

section
/-! PROOF. The token that stands next (R150 to R154): a step reads it and is `exec` of it, or aborts where no token can
be read. -/

namespace Sys2Proof.Machine

section
variable {s : State}

theorem tokenStep_of_fetch_ok {i : Instr} (h : s.work.fetch = some (.ok i)) : tokenStep s = exec i s := by
  rw [tokenStep, h]

theorem Work.fetch_walking {wk : Work} (h : wk.walking = true) : wk.fetch = some (decodeOpcode wk.opcodeWindow) := by
  unfold Work.walking at h
  split at h <;> simp_all [Work.fetch]

theorem Work.fetch_imageHeader {wk : Work} (h : wk.phase = .imageHeader) :
    wk.fetch = some (decodeImageHeader (wk.inp.readBytes 0 Config.imageHeaderBytes)) := by simp [Work.fetch, h]

theorem Work.fetch_containerHeader {wk : Work} {d : Nat} {src : Source} (h : wk.phase = .containerHeader d src) :
    wk.fetch = some (decodeContainerHeader wk.pre wk.inp.toBytes) := by simp [Work.fetch, h]

theorem step_of_fetch {token : Except DecodeError Instr} (hstep : step s = tokenStep s)
    (hfetch : s.work.fetch = some token) :
    (∀ i, token = .ok i → step s = exec i s) ∧
    (∀ e, token = .error e → step s = .next (s.finish (.error (s.work.fetchError e)))) := by
  rw [hstep]
  exact ⟨fun i hi => tokenStep_of_fetch_ok (hi ▸ hfetch), fun e he => tokenStep_of_fetch_error (he ▸ hfetch)⟩

end

/-- Settles O51: at each of the four places a step is the step of a token, and the token fetched is the decoding of the
bytes there; the end of an image's unit fetches nothing. -/
theorem stepRunsTheDecodedInstruction : Obligations.StepRunsTheDecodedInstruction := by
  refine ⟨fun s token htoken => ?_, fun s hphase hend => step_imageUnit_end hphase hend⟩
  obtain ⟨hwalk, rfl⟩ | ⟨hphase, rfl⟩ | ⟨⟨c, hphase⟩, rfl⟩ | ⟨⟨d, src, hphase⟩, rfl⟩ := htoken
  · exact step_of_fetch (step_walking hwalk) (Work.fetch_walking hwalk)
  · exact step_of_fetch (step_imageHeader hphase) (Work.fetch_imageHeader hphase)
  · exact step_of_fetch (step_frameTag hphase) (by rw [Work.fetch_frameTag hphase, Memory.readBytes_one]; rfl)
  · exact step_of_fetch (step_containerHeader hphase) (Work.fetch_containerHeader hphase)

end Sys2Proof.Machine
end

section
/-! PROOF. Encoded opcodes are read back (R90 to R106): the fields of each byte, and the opcode its tag selects. -/

namespace Sys2Proof.Machine

/-! ### Operands as fields -/

/-- An operand within its range is a field of `w` bits with the bias removed. -/
theorem exists_field (w : Nat) {v bias : Int} (hlo : -bias ≤ v) (hhi : v < 2 ^ w - bias) :
    ∃ x : BitVec w, v = x.toNat - bias := by
  refine ⟨BitVec.ofInt w (v + bias), ?_⟩
  rw [BitVec.toNat_ofInt, Int.emod_eq_of_lt (by omega) (by push_cast; omega)]
  omega

theorem rebias_field {w : Nat} (x : BitVec w) (bias : Int) : rebias (x.toNat - bias) bias = x.setWidth 8 := by
  apply BitVec.eq_of_toNat_eq
  rw [rebias, sub_add_cancel, BitVec.ofInt_natCast, BitVec.toNat_ofNat, BitVec.toNat_setWidth]

/-! ### The fields of the encoded bytes -/

theorem indexByte_fields : ∀ k : Slot,
    (k.setWidth 8 : Byte).extractLsb' 6 2 = 0 ∧ (k.setWidth 8 : Byte).extractLsb' 0 6 = k := by decide

theorem diffByte_fields : ∀ (x y z : BitVec 2) (b : Byte),
    b = 0x40 ||| (x.setWidth 8 <<< 4) ||| (y.setWidth 8 <<< 2) ||| z.setWidth 8 →
    b.extractLsb' 6 2 = 1 ∧ b.extractLsb' 4 2 = x ∧ b.extractLsb' 2 2 = y ∧ b.extractLsb' 0 2 = z := by
  simp only [forall_eq]
  decide

theorem lumaByte_fields : ∀ (x : BitVec 6) (b : Byte), b = 0x80 ||| x.setWidth 8 →
    b.extractLsb' 6 2 = 2 ∧ b.extractLsb' 0 6 = x := by
  simp only [forall_eq]
  decide

theorem nibbles_fields : ∀ (x y : BitVec 4) (b : Byte), b = (x.setWidth 8 <<< 4) ||| y.setWidth 8 →
    b.extractLsb' 4 4 = x ∧ b.extractLsb' 0 4 = y := by
  simp only [forall_eq]
  decide

theorem runByte_fields : ∀ (x : BitVec 6) (b : Byte), b = 0xC0 ||| x.setWidth 8 →
    b.extractLsb' 6 2 = 3 ∧ b.extractLsb' 0 6 = x ∧ (x.toNat < 62 → b ≠ 0xFE ∧ b ≠ 0xFF) := by
  simp only [forall_eq]
  decide

/-! ### The opcode a tag selects -/

section
variable {b0 : Byte}

theorem ne_literal_of_tag (h : b0.extractLsb' 6 2 ≠ 3) : b0 ≠ 0xFE ∧ b0 ≠ 0xFF := by
  constructor <;> rintro rfl <;> exact h rfl

theorem decodeOpcode_index (h : b0.extractLsb' 6 2 = 0) (rest : List Byte) :
    decodeOpcode (b0 :: rest) = .ok (.index (b0.extractLsb' 0 6)) := by
  obtain ⟨hrgb, hrgba⟩ := ne_literal_of_tag (b0 := b0) (by rw [h]; decide)
  simp only [decodeOpcode, if_neg hrgb, if_neg hrgba, if_pos h]

theorem decodeOpcode_diff (h : b0.extractLsb' 6 2 = 1) (rest : List Byte) :
    decodeOpcode (b0 :: rest) = .ok (.diff (unbias b0 4 2 2) (unbias b0 2 2 2) (unbias b0 0 2 2)) := by
  obtain ⟨hrgb, hrgba⟩ := ne_literal_of_tag (b0 := b0) (by rw [h]; decide)
  simp only [decodeOpcode, if_neg hrgb, if_neg hrgba, h]
  rfl

theorem decodeOpcode_luma (h : b0.extractLsb' 6 2 = 2) (b1 : Byte) (rest : List Byte) :
    decodeOpcode (b0 :: b1 :: rest) = .ok (.luma (unbias b0 0 6 32) (unbias b1 4 4 8) (unbias b1 0 4 8)) := by
  obtain ⟨hrgb, hrgba⟩ := ne_literal_of_tag (b0 := b0) (by rw [h]; decide)
  simp only [decodeOpcode, if_neg hrgb, if_neg hrgba, h]
  rfl

theorem decodeOpcode_run (h : b0.extractLsb' 6 2 = 3) (hrgb : b0 ≠ 0xFE) (hrgba : b0 ≠ 0xFF) (rest : List Byte) :
    decodeOpcode (b0 :: rest) = .ok (.run ((b0.extractLsb' 0 6).toNat + 1)) := by
  simp only [decodeOpcode, if_neg hrgb, if_neg hrgba, h]
  rfl

end

/-! ### Decoding what was encoded -/

theorem wellFormed_diff_iff {dr dg db : Int} :
    (Instr.diff dr dg db).wellFormed = true ↔ (-2 ≤ dr ∧ dr ≤ 1) ∧ (-2 ≤ dg ∧ dg ≤ 1) ∧ (-2 ≤ db ∧ db ≤ 1) :=
  diffFits_iff

theorem wellFormed_luma_iff {dg drg dbg : Int} :
    (Instr.luma dg drg dbg).wellFormed = true ↔ (-32 ≤ dg ∧ dg ≤ 31) ∧ (-8 ≤ drg ∧ drg ≤ 7) ∧ (-8 ≤ dbg ∧ dbg ≤ 7) :=
  lumaFits_iff

theorem wellFormed_run_iff {n : Nat} : (Instr.run n).wellFormed = true ↔ 1 ≤ n ∧ n ≤ 62 := by
  simp only [Instr.wellFormed, Bool.and_eq_true, decide_eq_true_eq]
  rfl

section
variable (rest : List Byte)

theorem decodeOpcode_encode_index (k : Slot) : decodeOpcode (encode (.index k) ++ rest) = .ok (.index k) := by
  obtain ⟨htag, hk⟩ := indexByte_fields k
  exact (decodeOpcode_index htag rest).trans (by rw [hk])

theorem decodeOpcode_encode_diff {dr dg db : Int} (h : (Instr.diff dr dg db).wellFormed = true) :
    decodeOpcode (encode (.diff dr dg db) ++ rest) = .ok (.diff dr dg db) := by
  obtain ⟨⟨hr, hr'⟩, ⟨hg, hg'⟩, hb, hb'⟩ := wellFormed_diff_iff.1 h
  obtain ⟨x, rfl⟩ := exists_field 2 hr (by omega)
  obtain ⟨y, rfl⟩ := exists_field 2 hg (by omega)
  obtain ⟨z, rfl⟩ := exists_field 2 hb (by omega)
  obtain ⟨htag, hx, hy, hz⟩ := diffByte_fields x y z _ rfl
  simp only [encode, rebias_field, List.cons_append, List.nil_append]
  rw [decodeOpcode_diff htag]
  simp only [unbias, hx, hy, hz]

theorem decodeOpcode_encode_luma {dg drg dbg : Int} (h : (Instr.luma dg drg dbg).wellFormed = true) :
    decodeOpcode (encode (.luma dg drg dbg) ++ rest) = .ok (.luma dg drg dbg) := by
  obtain ⟨⟨hg, hg'⟩, ⟨hr, hr'⟩, hb, hb'⟩ := wellFormed_luma_iff.1 h
  obtain ⟨x, rfl⟩ := exists_field 6 hg (by omega)
  obtain ⟨y, rfl⟩ := exists_field 4 hr (by omega)
  obtain ⟨z, rfl⟩ := exists_field 4 hb (by omega)
  obtain ⟨htag, hx⟩ := lumaByte_fields x _ rfl
  obtain ⟨hy, hz⟩ := nibbles_fields y z _ rfl
  simp only [encode, rebias_field, List.cons_append, List.nil_append]
  rw [decodeOpcode_luma htag]
  simp only [unbias, hx, hy, hz]

/-- The length of a run is read from the six bits below the tag, and 63 and 64 are the tags of RGB and RGBA (R95). -/
theorem decodeOpcode_encode_run {n : Nat} (h : (Instr.run n).wellFormed = true) :
    decodeOpcode (encode (.run n) ++ rest) = .ok (.run n) := by
  obtain ⟨hn, hn'⟩ := wellFormed_run_iff.1 h
  obtain ⟨x, hx⟩ := exists_field (v := n) (bias := -1) 6 (by omega) (by omega)
  obtain ⟨htag, hfield, hne⟩ := runByte_fields x _ rfl
  obtain ⟨hrgb, hrgba⟩ := hne (by omega)
  simp only [encode, hx, rebias_field, List.cons_append, List.nil_append]
  rw [decodeOpcode_run htag hrgb hrgba, hfield, show x.toNat + 1 = n by omega]

theorem decodeOpcode_encode {i : Instr} (hplace : i.place = .opcode) (hwf : i.wellFormed = true) :
    decodeOpcode (encode i ++ rest) = .ok i := by
  cases i with
  | index k => exact decodeOpcode_encode_index rest k
  | diff dr dg db => exact decodeOpcode_encode_diff rest hwf
  | luma dg drg dbg => exact decodeOpcode_encode_luma rest hwf
  | run n => exact decodeOpcode_encode_run rest hwf
  | rgb r g b => rfl
  | rgba r g b a => rfl
  | frameIntra => cases hplace
  | framePred => cases hplace
  | qoif w h ch cs => cases hplace
  | terminator => cases hplace
  | qov1 hs w h fr ch n offs => cases hplace

end

end Sys2Proof.Machine
end

section
/-! PROOF. The opcode region (R150, R151): an opcode that stands whole before END is read, whatever follows it, and one
that would pass END is not. -/

namespace Sys2Proof.Machine

/-! ### Opcodes cut short -/

/-- The first byte alone decides how many bytes an opcode needs (R99), so with fewer no opcode is read. -/
theorem decodeOpcode_short {b0 : Byte} {rest bs : List Byte} {i : Instr} (h : decodeOpcode (b0 :: rest) = .ok i)
    (hshort : bs.length + 1 < i.size) : decodeOpcode (b0 :: bs) = .error .truncatedOpcode := by
  simp only [decodeOpcode] at h ⊢
  split_ifs at h ⊢
  · split at h <;> cases h
    split
    · simp only [Instr.size, List.length_cons] at hshort
      omega
    · rfl
  · split at h <;> cases h
    split
    · simp only [Instr.size, List.length_cons] at hshort
      omega
    · rfl
  · cases h
    simp [Instr.size] at hshort
  · cases h
    simp [Instr.size] at hshort
  · split at h <;> cases h
    split
    · simp only [Instr.size, List.length_cons] at hshort
      omega
    · rfl
  · cases h
    simp [Instr.size] at hshort

/-! ### The bytes read from PTR on -/

theorem Memory.readBytes_cons {m : Memory} {a : Nat} {b : Byte} (h : m.readByte a = some b) (n : Nat) :
    m.readBytes a (n + 1) = b :: m.readBytes (a + 1) n := by
  rw [Memory.readBytes, h]

/-- A read that gives all the bytes asked for is the beginning of every longer read. -/
theorem Memory.readBytes_add {m : Memory} {a n : Nat} (h : (m.readBytes a n).length = n) (k : Nat) :
    m.readBytes a (n + k) = m.readBytes a n ++ m.readBytes (a + n) k := by
  induction n generalizing a with
  | zero => rw [Nat.zero_add]; rfl
  | succ n ih =>
    cases hb : m.readByte a with
    | none => simp [Memory.readBytes, hb] at h
    | some b =>
      rw [Memory.readBytes_cons hb] at h ⊢
      rw [Nat.add_right_comm, Memory.readBytes_cons hb, ih (by simpa using h), List.cons_append, Nat.add_right_comm,
        Nat.add_assoc]

theorem Work.opcodeWindow_of_le {wk : Work} (h : wk.endp ≤ wk.ptr) : wk.opcodeWindow = [] := by
  rw [Work.opcodeWindow, Nat.sub_eq_zero_of_le h]
  rfl

theorem Work.opcodeWindow_of_byte {wk : Work} {b0 : Byte} (hlt : wk.ptr < wk.endp)
    (hb : wk.inp.readByte wk.ptr = some b0) : ∃ bs, wk.opcodeWindow = b0 :: bs := by
  obtain ⟨n, hn⟩ : ∃ n, min longestOpcode (wk.endp - wk.ptr) = n + 1 :=
    ⟨min longestOpcode (wk.endp - wk.ptr) - 1, by simp only [longestOpcode]; omega⟩
  exact ⟨_, by rw [Work.opcodeWindow, hn, Memory.readBytes_cons hb]⟩

/-- No opcode is longer than the window in which one is read (R90). -/
theorem size_le_longestOpcode {i : Instr} (hplace : i.place = .opcode) : i.size ≤ longestOpcode := by
  cases i <;> simp_all [Instr.place, Instr.size, longestOpcode]

theorem length_encode (i : Instr) : (encode i).length = i.size := by
  cases i with
  | qov1 hs w h fr ch n offs => exact Laws.EncodedSize.qov1 hs w h fr ch n offs
  | _ => rfl

/-- The encoding of an opcode that stands whole within the region begins the bytes the decoder is given. -/
theorem Work.opcodeWindow_of_encode {wk : Work} {i : Instr} (hplace : i.place = .opcode)
    (hfits : wk.ptr + i.size ≤ wk.endp) (hbytes : wk.inp.readBytes wk.ptr i.size = encode i) :
    ∃ rest, wk.opcodeWindow = encode i ++ rest := by
  have hsize := size_le_longestOpcode hplace
  obtain ⟨k, hk⟩ : ∃ k, min longestOpcode (wk.endp - wk.ptr) = i.size + k :=
    Nat.exists_eq_add_of_le (le_min hsize (by omega))
  refine ⟨wk.inp.readBytes (wk.ptr + i.size) k, ?_⟩
  rw [Work.opcodeWindow, hk, Memory.readBytes_add (by rw [hbytes, length_encode]), hbytes]

/-! ### The step of a unit being decoded -/

section
variable {s : State} (hwalk : s.work.walking = true)
include hwalk

theorem step_of_opcodeWindow_error (h : decodeOpcode s.work.opcodeWindow = .error .truncatedOpcode) :
    step s = .next s.abortTruncated := by
  rw [step_walking hwalk, tokenStep_of_fetch_error (by rw [Work.fetch_walking hwalk, h])]
  rfl

theorem step_of_opcodeWindow_ok {i : Instr} (h : decodeOpcode s.work.opcodeWindow = .ok i) : step s = exec i s := by
  rw [step_walking hwalk, tokenStep_of_fetch_ok (by rw [Work.fetch_walking hwalk, h])]

theorem step_of_region_exhausted (hend : s.work.endp ≤ s.work.ptr) : step s = .next s.abortTruncated :=
  step_of_opcodeWindow_error hwalk (by rw [Work.opcodeWindow_of_le hend]; rfl)

/-- The window holds fewer bytes than the opcode at PTR needs, whichever bytes stand after the region. -/
theorem step_of_opcode_passes_end {b0 : Byte} {rest : List Byte} {i : Instr}
    (hb : s.work.inp.readByte s.work.ptr = some b0) (hi : decodeOpcode (b0 :: rest) = .ok i)
    (hend : s.work.endp < s.work.ptr + i.size) : step s = .next s.abortTruncated := by
  by_cases hlt : s.work.ptr < s.work.endp
  case neg => exact step_of_region_exhausted hwalk (Nat.not_lt.1 hlt)
  obtain ⟨bs, hbs⟩ := Work.opcodeWindow_of_byte hlt hb
  have hlen := s.work.opcodeWindow_length
  rw [hbs, List.length_cons] at hlen
  exact step_of_opcodeWindow_error hwalk (by rw [hbs]; exact decodeOpcode_short hi (by omega))

end

/-- Settles O15: the window ends at END, so it is empty at the end of the region and too short for an opcode that would
pass it. -/
theorem exhaustedRegionRaisesTruncatedStream : Obligations.ExhaustedRegionRaisesTruncatedStream :=
  fun _ hwalk => ⟨step_of_region_exhausted hwalk, fun _ _ _ => step_of_opcode_passes_end hwalk⟩

/-- Settles O52: the window begins with the encoding, which decodes to the opcode whatever follows it. -/
theorem encodedOpcodeAtPtrIsRun : Obligations.EncodedOpcodeAtPtrIsRun := by
  intro s i hwalk hplace hwf hfits hbytes
  obtain ⟨rest, hrest⟩ := Work.opcodeWindow_of_encode hplace hfits hbytes
  exact step_of_opcodeWindow_ok hwalk (by rw [hrest, decodeOpcode_encode rest hplace hwf])

end Sys2Proof.Machine
end

section
/-! PROOF. The encoder's walk (R142 to R147): a pixel that joins the run, and a pixel that is coded by an opcode. -/

namespace Sys2Proof.Machine

open Sys2Proof.Claims

/-! ### The bytes of a run -/

theorem runByte_eq : ∀ x : BitVec 6, (0xC0 ||| x.setWidth 8 : Byte) = BitVec.ofNat 8 (0xC0 + x.toNat) := by decide

/-- The bias of RUN is 1 (R103): the byte of a run of n pixels is 0xC0 + (n - 1). -/
theorem encode_run {n : Nat} (hn : n < 62) : encode (.run (n + 1)) = [BitVec.ofNat 8 (0xC0 + n)] := by
  obtain ⟨x, hx⟩ := exists_field (v := (n + 1 : Nat)) (bias := -1) 6 (by omega) (by omega)
  rw [encode, hx, rebias_field, runByte_eq, show x.toNat = n by omega]

/-! ### One pixel of the walk -/

section
variable {wk : Work} {bs : List Byte}

theorem Work.absorb_pending (hrun : wk.run + 1 ≠ 62) (hlast : wk.i + 1 ≠ wk.npx) :
    wk.absorb = { wk with run := wk.run + 1 } := if_neg (not_or.2 ⟨hrun, hlast⟩)

theorem Work.absorb_flushed (hout : wk.out = Memory.ofBytes bs) (hrun : wk.run < 62)
    (hflush : wk.run + 1 = 62 ∨ wk.i + 1 = wk.npx) :
    wk.absorb = { wk with run := 0, out := Memory.ofBytes (bs ++ [BitVec.ofNat 8 (0xC0 + wk.run)]) } := by
  rw [← encode_run hrun, ← Memory.emit_ofBytes, ← hout]
  exact if_pos hflush

theorem Work.encodePixel_predicted (hashOf : Px → Slot) (cur : Px) :
    wk.encodePixel hashOf cur cur = { wk.absorb with prev := cur, i := wk.i + 1 } := by
  rw [Work.encodePixel, if_pos rfl]

variable {hashOf : Px → Slot} {pred cur : Px}

theorem Work.encodePixel_coded (hne : cur ≠ pred) :
    wk.encodePixel hashOf pred cur = { wk.codePixel hashOf pred cur with prev := cur, i := wk.i + 1 } := by
  rw [Work.encodePixel, if_neg hne]

/-- Coding a pixel by its opcode leaves no run pending, and changes RUN, WCACHE and OUT alone. -/
theorem Work.codePixel_frame (wk : Work) (hashOf : Px → Slot) (pred cur : Px) :
    wk.codePixel hashOf pred cur =
      { wk with run := 0, wcache := (wk.codePixel hashOf pred cur).wcache,
                out := (wk.codePixel hashOf pred cur).out } := by
  unfold Work.codePixel
  split_ifs with hrun
  · rfl
  · have hzero : wk.run = 0 := Nat.eq_zero_of_not_pos hrun
    simp [Work.emit, hzero]

/-- A pending run is emitted before the opcode (R144). -/
theorem Work.codePixel_out (hout : wk.out = Memory.ofBytes bs) (hrun : wk.run < 62) :
    (wk.codePixel hashOf pred cur).out = Memory.ofBytes (bs ++
      (if wk.run = 0 then [] else [BitVec.ofNat 8 (0xBF + wk.run)]) ++
      encode (selectOpcode hashOf wk.wcache pred cur)) := by
  unfold Work.codePixel
  cases hr : wk.run with
  | zero => simp [hout]
  | succ n =>
    rw [hr] at hrun
    simp [hout, hr, encode_run (Nat.lt_of_succ_lt hrun), show 0xBF + (n + 1) = 0xC0 + n by omega]

theorem cacheWritten_cacheAfter (cache : Cache) : CacheWritten hashOf cache (cacheAfter hashOf cache cur) cur := by
  intro k
  rw [cacheAfter]
  split_ifs with hhit hk hk
  · rw [hk, hhit]
  · rfl
  · rw [cacheRead_cacheWrite, if_pos hk]
  · rw [cacheRead_cacheWrite, if_neg hk]

end

/-! ### The step of a unit being encoded -/

theorem step_encoding {s : State} {cur pred : Px} (hphase : s.work.phase = .encImage ∨ ∃ e, s.work.phase = .encFrame e)
    (hi : s.work.i < s.work.npx) (hcur : s.work.inp.readPixel s.work.ch s.work.i = some cur)
    (hpred : s.work.pred = some pred) : step s = .next { s with work := s.work.encodePixel s.hash pred cur } := by
  have hstep : step s = encodeStep s := by
    obtain hphase | ⟨e, hphase⟩ := hphase
    · exact step_encImage hphase hi
    · exact step_encFrame hphase hi
  rw [hstep, encodeStep, hcur, hpred]

/-- Settles O28: the step codes one pixel, and a predicted pixel is absorbed. -/
theorem encoderAbsorbsAndFlushesRuns : Obligations.EncoderAbsorbsAndFlushesRuns := by
  intro s cur bs hphase hi hcur hpred hout hrun
  rw [step_encoding hphase hi hcur hpred, Work.encodePixel_predicted]
  constructor
  · intro hrun' hlast
    rw [Work.absorb_pending hrun'.ne hlast.ne]
  · intro hflush
    rw [Work.absorb_flushed hout hrun hflush]

/-- Settles O29: the step codes one pixel, and one that is not predicted is coded by the opcode selected, which leaves
no run pending. -/
theorem encoderCodesADifferentPixel : Obligations.EncoderCodesADifferentPixel := by
  intro s cur pred bs hphase hi hcur hpred hne hout hrun
  have hstep := step_encoding hphase hi hcur hpred
  rw [Work.encodePixel_coded hne] at hstep
  exact ⟨_, hstep, by rw [Work.codePixel_frame], Work.codePixel_out hout hrun, cacheWritten_cacheAfter _,
    fun hhit => if_pos hhit⟩

end Sys2Proof.Machine
end

section
/-! PROOF. ENCODE_IMAGE (R160, R313): its checks, the start of its unit and its result. -/

namespace Sys2Proof.Machine

theorem channelsLegal_iff {ch : Byte} : channelsLegal ch = true ↔ ch = 3 ∨ ch = 4 := by simp [channelsLegal]

theorem colorspaceLegal_iff {cs : Byte} : colorspaceLegal cs = true ↔ cs = 0 ∨ cs = 1 := by simp [colorspaceLegal]

theorem channelsLegal_eq_false_iff {ch : Byte} : channelsLegal ch = false ↔ ch ≠ 3 ∧ ch ≠ 4 := by
  rw [Bool.eq_false_iff, Ne, channelsLegal_iff, not_or]

theorem colorspaceLegal_eq_false_iff {cs : Byte} : colorspaceLegal cs = false ↔ cs ≠ 0 ∧ cs ≠ 1 := by
  rw [Bool.eq_false_iff, Ne, colorspaceLegal_iff, not_or]

/-- A legal configuration is checked for its length and its size (R313). -/
theorem issueEncodeImage_legal {ch cs : Byte} (hch : ch = 3 ∨ ch = 4) (hcs : cs = 0 ∨ cs = 1) (w h : Word)
    (pixels : List Byte) (s : State) :
    issueEncodeImage w h ch cs pixels s =
      if pixels.length ≠ bufferLength w h ch then .next (s.abort .bufferLength (some pixels.length))
      else if pixelCount w h > s.maxPixels then .next (s.abort .tooLarge none)
      else .next { s with work := { Work.idle with phase := .encImage, w, h, ch, cs, inp := Memory.ofBytes pixels } } :=
  if_neg (by simp [channelsLegal_iff.2 hch, colorspaceLegal_iff.2 hcs])

/-- Settles O35: the checks are the conditions of the command in their order. -/
theorem encodeImageChecksAndStarts : Obligations.EncodeImageChecksAndStarts := by
  intro s w h ch cs pixels
  refine ⟨fun hbad => ?_, fun hch hcs => ?_⟩
  · rw [← channelsLegal_eq_false_iff, ← colorspaceLegal_eq_false_iff] at hbad
    exact if_pos hbad
  · rw [issue, issueEncodeImage_legal hch hcs]
    exact ⟨fun hlen => if_pos hlen, fun hlen hbig => (if_neg (not_not.2 hlen)).trans (if_pos hbig),
      fun hlen hle => (if_neg (not_not.2 hlen)).trans (if_neg (Nat.not_lt.2 hle))⟩

/-- Settles O32: the end of the command lays the two framing tokens around the opcode bytes. -/
theorem encodedImageIsHeaderBodyTerminator : Obligations.EncodedImageIsHeaderBodyTerminator := by
  intro s body hphase hend hout
  rw [step_encImage_end hphase hend, finishImage, hout, Memory.toBytes_ofBytes]
  rfl

end Sys2Proof.Machine
end

section
/-! PROOF. DECODE_IMAGE (R150 to R154, R161, R313): the checks of the header, the start of the unit, and its end. -/

namespace Sys2Proof.Machine

/-! ### The header token -/

section
variable {s : State} {w h : Word} {ch cs : Byte} (hphase : s.work.phase = .imageHeader)
include hphase

theorem execQoif_badChannels (hch : ch ≠ 3) (hch' : ch ≠ 4) :
    execQoif w h ch cs s = .next (s.abort .badChannels (some 12)) := by
  simp only [execQoif, hphase, if_pos (channelsLegal_eq_false_iff.2 ⟨hch, hch'⟩)]

variable (hch : ch = 3 ∨ ch = 4)
include hch

theorem execQoif_badColorspace (hcs : cs ≠ 0) (hcs' : cs ≠ 1) :
    execQoif w h ch cs s = .next (s.abort .badColorspace (some 13)) := by
  simp [execQoif, hphase, channelsLegal_iff.2 hch, colorspaceLegal_eq_false_iff.2 ⟨hcs, hcs'⟩]

variable (hcs : cs = 0 ∨ cs = 1)
include hcs

/-- A header with legal channels and colorspace is checked for the length of the image and its size, in this order. -/
theorem execQoif_legal : execQoif w h ch cs s =
    if s.work.inp.size < 22 then .next (s.abort .truncatedStream (some s.work.inp.size))
    else if pixelCount w h > s.maxPixels then .next (s.abort .tooLarge none)
    else .next { s with work := { s.work with w, h, ch, cs }.startUnit .imageUnit .intra 14 (s.work.inp.size - 8)
                          Cache.zero none } := by
  simp only [execQoif, hphase, channelsLegal_iff.2 hch, colorspaceLegal_iff.2 hcs]
  rfl

theorem execQoif_truncated (hlen : s.work.inp.size < 22) :
    execQoif w h ch cs s = .next (s.abort .truncatedStream (some s.work.inp.size)) := by
  rw [execQoif_legal hphase hch hcs, if_pos hlen]

theorem execQoif_tooLarge (hlen : 22 ≤ s.work.inp.size) (hbig : s.maxPixels < pixelCount w h) :
    execQoif w h ch cs s = .next (s.abort .tooLarge none) := by
  rw [execQoif_legal hphase hch hcs, if_neg (Nat.not_lt.2 hlen), if_pos hbig]

theorem execQoif_starts (hlen : 22 ≤ s.work.inp.size) (hle : pixelCount w h ≤ s.maxPixels) :
    execQoif w h ch cs s =
      .next { s with work := { s.work with w, h, ch, cs }.startUnit .imageUnit .intra 14 (s.work.inp.size - 8)
                       Cache.zero none } := by
  rw [execQoif_legal hphase hch hcs, if_neg (Nat.not_lt.2 hlen), if_neg (Nat.not_lt.2 hle)]

end

/-- Settles O21: with every check passed the header token starts the unit. -/
theorem imageHeaderStartsItsUnit : Obligations.ImageHeaderStartsItsUnit :=
  fun _ _ _ _ _ hphase hch hcs hlen hle => execQoif_starts hphase hch hcs hlen hle

/-! ### The bytes of the header -/

section
variable {bs : List Byte}

theorem decodeImageHeader_short (h : bs.length < 14) :
    decodeImageHeader bs = .error (.truncatedHeader bs.length) := if_pos h

theorem decodeImageHeader_badMagic (hlen : 14 ≤ bs.length) (hmagic : bs.take 4 ≠ magicQoif) :
    decodeImageHeader bs = .error .badMagic := (if_neg (Nat.not_lt.2 hlen)).trans (if_pos hmagic)

theorem decodeImageHeader_fields (hlen : 14 ≤ bs.length) (hmagic : bs.take 4 = magicQoif) :
    decodeImageHeader bs = .ok (.qoif (u32At bs 4) (u32At bs 8) (bs.getD 12 0) (bs.getD 13 0)) :=
  (if_neg (Nat.not_lt.2 hlen)).trans (if_neg (not_not.2 hmagic))

/-- The header is read from the first 14 bytes, and no byte after them changes what is read (R110). -/
theorem decodeImageHeader_take (bs : List Byte) : decodeImageHeader (bs.take 14) = decodeImageHeader bs := by
  by_cases hlen : bs.length < 14
  · rw [List.take_of_length_le hlen.le]
  · have hlen' : (bs.take 14).length = 14 := by rw [List.length_take]; omega
    by_cases hmagic : bs.take 4 = magicQoif
    · rw [decodeImageHeader_fields hlen'.ge (by rwa [List.take_take]), decodeImageHeader_fields (by omega) hmagic]
      simp [u32At]
    · rw [decodeImageHeader_badMagic hlen'.ge (by rwa [List.take_take]), decodeImageHeader_badMagic (by omega) hmagic]

end

section
variable {s : State} {bs : List Byte} (hphase : s.work.phase = .imageHeader) (hinp : s.work.inp = Memory.ofBytes bs)
include hphase hinp

theorem Work.fetch_image : s.work.fetch = some (decodeImageHeader bs) := by
  rw [Work.fetch_imageHeader hphase, hinp, Memory.readBytes_ofBytes, List.drop_zero, Config.imageHeaderBytes,
    decodeImageHeader_take]

theorem step_image_short (hlen : bs.length < 14) :
    step s = .next (s.abort .truncatedHeader (some bs.length)) := by
  rw [step_imageHeader hphase,
    tokenStep_of_fetch_error (by rw [Work.fetch_image hphase hinp, decodeImageHeader_short hlen])]
  rfl

theorem step_image_badMagic (hlen : 14 ≤ bs.length) (hmagic : bs.take 4 ≠ magicQoif) :
    step s = .next (s.abort .badMagic (some 0)) := by
  rw [step_imageHeader hphase,
    tokenStep_of_fetch_error (by rw [Work.fetch_image hphase hinp, decodeImageHeader_badMagic hlen hmagic])]
  rfl

theorem step_image_token (hlen : 14 ≤ bs.length) (hmagic : bs.take 4 = magicQoif) :
    step s = execQoif (u32At bs 4) (u32At bs 8) (bs.getD 12 0) (bs.getD 13 0) s := by
  rw [step_imageHeader hphase,
    tokenStep_of_fetch_ok (by rw [Work.fetch_image hphase hinp, decodeImageHeader_fields hlen hmagic])]
  rfl

end

/-- Settles O22: the bytes that cannot be read as a header abort the command, and the others run the header token, whose
checks follow. -/
theorem imageHeaderChecksComeInOrder : Obligations.ImageHeaderChecksComeInOrder := by
  intro s bs hphase hinp
  refine ⟨step_image_short hphase hinp, step_image_badMagic hphase hinp, fun hlen hmagic => ?_⟩
  have hsize : s.work.inp.size = bs.length := by rw [hinp, Memory.size_ofBytes]
  rw [step_image_token hphase hinp hlen hmagic, ← hsize, List.getD_eq_getElem?_getD, List.getD_eq_getElem?_getD]
  refine ⟨fun ch h12 hch hch' => ?_, fun ch cs h12 hch h13 hcs hcs' => ?_, fun ch cs h12 hch h13 hcs => ?_⟩
  · rw [h12]
    exact execQoif_badChannels hphase hch hch'
  · rw [h12, h13]
    exact execQoif_badColorspace hphase hch hcs hcs'
  · rw [h12, h13]
    exact ⟨execQoif_truncated hphase hch hcs, execQoif_tooLarge hphase hch hcs, fun _ _ => rfl⟩

/-! ### The terminator -/

section
variable {s : State} (hphase : s.work.phase = .imageUnit)
include hphase

theorem execTerminator_complete (hend : s.work.npx ≤ s.work.i) : execTerminator s =
    .next (s.finish (.decodedImage s.work.w s.work.h s.work.ch s.work.cs s.work.out.toBytes)) := by
  simp only [execTerminator, hphase, if_pos hend]

theorem step_image_complete (hend : s.work.npx ≤ s.work.i) : step s =
    .next (s.finish (.decodedImage s.work.w s.work.h s.work.ch s.work.cs s.work.out.toBytes)) := by
  rw [step_imageUnit_end hphase hend, execTerminator_complete hphase hend]

theorem execTerminator_missing (hi : s.work.i < s.work.npx) (hend : s.work.endp ≤ s.work.ptr) :
    execTerminator s = .next s.abortTruncated := by
  simp only [execTerminator, hphase, if_neg (Nat.not_le.2 hi), if_pos hend]

end

/-- Settles O23: the result is made of the working registers alone, and the input is not among them. -/
theorem terminatorReturnsTheImage : Obligations.TerminatorReturnsTheImage := by
  refine fun s hphase => ⟨fun hend => ?_, execTerminator_missing hphase⟩
  have hstep (m : Memory) := step_image_complete (s := { s with work := { s.work with inp := m } }) hphase hend
  exact ⟨_, execTerminator_complete hphase hend, step_image_complete hphase hend, rfl, hstep⟩

end Sys2Proof.Machine
end

section
/-! PROOF. The opcodes of one pixel as the decoder meets them (R151, R152; spec/41_opcodes.md): the first bytes that
select each, its completion within the region, and its stop at the end of it. -/

namespace Sys2Proof.Machine

open Sys2Proof.Claims

/-! ### The fields of a first byte as arithmetic -/

theorem toNat_field (b : Byte) (lo width : Nat) : (b.extractLsb' lo width).toNat = b.toNat / 2 ^ lo % 2 ^ width := by
  rw [BitVec.extractLsb'_toNat, Nat.shiftRight_eq_div_pow]

theorem unbias_eq (b : Byte) (lo width : Nat) (bias : Int) :
    unbias b lo width bias = ((b.toNat / 2 ^ lo % 2 ^ width : Nat) : Int) - bias := by rw [unbias, toNat_field]

/-- The two tag bits tell which quarter of the byte values a first byte lies in (R98). -/
theorem tag_of_quarter {b : Byte} {tag : BitVec 2} (hlo : 64 * tag.toNat ≤ b.toNat)
    (hhi : b.toNat < 64 * (tag.toNat + 1)) : b.extractLsb' 6 2 = tag := by
  apply BitVec.eq_of_toNat_eq
  rw [toNat_field]
  have := tag.isLt
  omega

/-! ### The end of the region -/

theorem State.onePixel_truncated {s : State} {n : Nat} (hwalk : s.work.walking = true)
    (hend : s.work.endp < s.work.ptr + n) (writes : Bool) (px : Option Px) :
    s.onePixel n writes px = .next s.abortTruncated := by
  unfold State.onePixel
  rw [if_pos hwalk, if_neg (Nat.not_le.2 hend)]

theorem execRun_truncated {s : State} (hwalk : s.work.walking = true) (hend : s.work.endp < s.work.ptr + 1) (n : Nat) :
    execRun n s = .next s.abortTruncated := by
  rw [execRun, if_pos hwalk, if_neg (Nat.not_le.2 hend)]

/-- Every opcode checks its bounds before anything else (R151). -/
theorem raisesWhenTruncated_size {i : Instr} (hplace : i.place = .opcode) : RaisesWhenTruncated i i.size := by
  intro s hwalk hend
  cases i with
  | index k => exact State.onePixel_truncated hwalk hend false (some (cacheRead s.work.wcache k))
  | diff dr dg db => exact State.onePixel_truncated hwalk hend true _
  | luma dg drg dbg => exact State.onePixel_truncated hwalk hend true _
  | run n => exact execRun_truncated hwalk hend n
  | rgb r g b => exact State.onePixel_truncated hwalk hend true _
  | rgba r g b a => exact State.onePixel_truncated hwalk hend true (some ⟨r, g, b, a⟩)
  | frameIntra => cases hplace
  | framePred => cases hplace
  | qoif w h ch cs => cases hplace
  | terminator => cases hplace
  | qov1 hs w h fr ch n offs => cases hplace

/-! ### Completion -/

theorem cacheWritten_cacheWrite (hashOf : Px → Slot) (c : Cache) (p : Px) :
    CacheWritten hashOf c (cacheWrite c (hashOf p) p) p := fun k => cacheRead_cacheWrite c (hashOf p) k p

section
variable {s : State} (hwalk : s.work.walking = true)
include hwalk

/-- A pixel that is remembered goes to its own slot and no other (R155). -/
theorem State.onePixel_remembers {n : Nat} (hfits : s.work.ptr + n ≤ s.work.endp) (p : Px) :
    ∃ t, s.onePixel n true (some p) = .next t ∧ OnePixel s t n p ∧
      CacheWritten s.hash s.work.wcache t.work.wcache p := by
  refine ⟨_, State.onePixel_some true p hwalk hfits, State.onePixel_afterPixel true p, ?_⟩
  rw [State.afterPixel_wcache, if_pos rfl]
  exact cacheWritten_cacheWrite s.hash s.work.wcache p

theorem exec_remembers {i : Instr} {pred p : Px} (hfits : s.work.ptr + i.size ≤ s.work.endp)
    (hpred : s.work.pred = some pred) (hpx : opcodePixel s.work.wcache pred i = some p)
    (hwrites : writesCache i = true) :
    ∃ t, exec i s = .next t ∧ OnePixel s t i.size p ∧ CacheWritten s.hash s.work.wcache t.work.wcache p := by
  rw [exec_of_opcodePixel hpred hpx, hwrites]
  exact State.onePixel_remembers hwalk hfits p

end

theorem moved_addDelta (before : Byte) (d : Int) : Moved before (addDelta before d) d := moved_iff_addDelta.2 rfl

/-! ### The obligations -/

/-- Settles O9: `exec` never asks for the prediction, and the pixel is not remembered. -/
theorem indexYieldsItsSlot : Obligations.IndexYieldsItsSlot := by
  refine ⟨fun b0 rest hb0 => ?_, fun s k hwalk hfits => ?_, fun k => raisesWhenTruncated_size rfl⟩
  · refine ⟨_, ?_, decodeOpcode_index (tag_of_quarter (Nat.zero_le _) (Nat.lt_succ_of_le hb0)) rest⟩
    rw [toNat_field]
    omega
  · exact ⟨_, State.onePixel_some false _ hwalk hfits, State.onePixel_afterPixel .., State.afterPixel_wcache ..⟩

/-- Settles O10: the pixel of the decode rule moves each channel by its delta, and is remembered. -/
theorem diffMovesEachChannel : Obligations.DiffMovesEachChannel := by
  refine ⟨fun b0 rest hlo hhi => ?_, fun s dr dg db pred hwalk hfits hpred => ?_,
    fun dr dg db => raisesWhenTruncated_size rfl⟩
  · rw [decodeOpcode_diff (tag_of_quarter hlo (Nat.lt_succ_of_le hhi))]
    simp [unbias_eq]
  · obtain ⟨t, hexec, hpixel, hcache⟩ := exec_remembers hwalk (i := .diff dr dg db) hfits hpred rfl rfl
    exact ⟨t, diffPixel dr dg db pred, hexec, moved_addDelta .., moved_addDelta .., moved_addDelta .., rfl, hpixel,
      hcache⟩

/-- Settles O11: the pixel of the decode rule moves red and blue by the sum of two deltas, and is remembered. -/
theorem lumaMovesTheChannelsTogether : Obligations.LumaMovesTheChannelsTogether := by
  refine ⟨fun b0 b1 rest hlo hhi => ?_, fun s dg drg dbg pred hwalk hfits hpred => ?_,
    fun dg drg dbg => raisesWhenTruncated_size rfl⟩
  · have hb1 : b1.toNat / 16 % 16 = b1.toNat / 16 := Nat.mod_eq_of_lt (by have := b1.isLt; omega)
    rw [decodeOpcode_luma (tag_of_quarter hlo (Nat.lt_succ_of_le hhi))]
    simp [unbias_eq, hb1]
  · obtain ⟨t, hexec, hpixel, hcache⟩ := exec_remembers hwalk (i := .luma dg drg dbg) hfits hpred rfl rfl
    exact ⟨t, lumaPixel dg drg dbg pred, hexec, moved_addDelta .., moved_addDelta .., moved_addDelta .., rfl, hpixel,
      hcache⟩

/-- Settles O13: the pixel takes only its alpha from the prediction, and is remembered. -/
theorem rgbKeepsThePredictedAlpha : Obligations.RgbKeepsThePredictedAlpha :=
  ⟨fun _ _ _ _ => rfl,
    fun _ r g b _ hwalk hfits hpred => exec_remembers hwalk (i := .rgb r g b) hfits hpred rfl rfl,
    fun _ _ _ => raisesWhenTruncated_size rfl⟩

/-- Settles O14: `exec` never asks for the prediction, the kind or the channel count, and the pixel is remembered. -/
theorem rgbaYieldsTheLiteralPixel : Obligations.RgbaYieldsTheLiteralPixel :=
  ⟨fun _ _ _ _ _ => rfl, fun _ r g b a hwalk hfits => State.onePixel_remembers hwalk hfits ⟨r, g, b, a⟩,
    fun _ _ _ _ => raisesWhenTruncated_size rfl⟩

end Sys2Proof.Machine
end

section
/-! PROOF. RUN (R176, R182, R205): the pixels of a run are the predictions of their positions, each written in its
place. -/

namespace Sys2Proof.Machine

open Sys2Proof.Claims

/-! ### The bytes of several pixels -/

theorem length_pixelBytes {ch : Byte} (hch : channelsLegal ch = true) (p : Px) :
    (pixelBytes ch p).length = ch.toNat := by
  obtain rfl | rfl := channelsLegal_iff.1 hch <;> rfl

/-- The bytes of pixel i end where those of pixel i + 1 begin (R72). -/
theorem Memory.sameOutside_writePixel_succ {ch : Byte} (hch : channelsLegal ch = true) (m : Memory) (i : Nat) (p : Px) :
    SameOutside m (m.writePixel ch i p) (i * ch.toNat) ((i + 1) * ch.toNat) := by
  have h := m.sameOutside_writePixel ch i p
  rwa [length_pixelBytes hch, ← Nat.succ_mul] at h

/-- A pixel stays as it is when only pixels after it are written. -/
theorem pixelAt_of_sameOutside {m m' : Memory} {ch : Byte} {i hi : Nat} {p : Px} (hch : channelsLegal ch = true)
    (hp : PixelAt m ch i p) (h : SameOutside m m' ((i + 1) * ch.toNat) hi) : PixelAt m' ch i p := by
  obtain ⟨hr, hg, hb, ha⟩ := hp
  have hsucc : (i + 1) * ch.toNat = i * ch.toNat + ch.toNat := Nat.succ_mul ..
  have hlen : 3 ≤ ch.toNat := by obtain rfl | rfl := channelsLegal_iff.1 hch <;> decide
  refine ⟨?_, ?_, ?_, fun hfour => ?_⟩
  · rwa [h _ (by omega)]
  · rwa [h _ (by omega)]
  · rwa [h _ (by omega)]
  · have : ch.toNat = 4 := by rw [hfour]; rfl
    rw [h _ (by omega)]
    exact ha hfour

/-- `m'` holds the n pixels q from pixel i on, and every other byte as `m` does. -/
def RunWritten (m m' : Memory) (ch : Byte) (i n : Nat) (q : Nat → Px) : Prop :=
  (∀ j < n, PixelAt m' ch (i + j) (q j)) ∧ SameOutside m m' (i * ch.toNat) ((i + n) * ch.toNat)

theorem RunWritten.nil (m : Memory) (ch : Byte) (i : Nat) (q : Nat → Px) : RunWritten m m ch i 0 q :=
  ⟨fun _ hj => absurd hj (Nat.not_lt_zero _), fun _ _ => rfl⟩

/-- The first pixel of a run is written before the others, which leave it alone. -/
theorem RunWritten.cons {m m' : Memory} {ch : Byte} {i n : Nat} {q : Nat → Px} (hch : channelsLegal ch = true)
    (h : RunWritten (m.writePixel ch i (q 0)) m' ch (i + 1) n (fun j => q (j + 1))) :
    RunWritten m m' ch i (n + 1) q := by
  obtain ⟨hpixels, hsame⟩ := h
  have hle : (i + 1) * ch.toNat ≤ (i + 1 + n) * ch.toNat := Nat.mul_le_mul_right _ (by omega)
  have hle' : i * ch.toNat ≤ (i + 1) * ch.toNat := Nat.mul_le_mul_right _ (by omega)
  refine ⟨fun j hj => ?_, fun a ha => ?_⟩
  · cases j with
    | zero => exact pixelAt_of_sameOutside hch (m.pixelAt_writePixel ch i (q 0)) hsame
    | succ j =>
      rw [← Nat.add_assoc, Nat.add_right_comm]
      exact hpixels j (by omega)
  · rw [← Nat.add_assoc, Nat.add_right_comm] at ha
    rw [hsame a (by omega), Memory.sameOutside_writePixel_succ hch m i (q 0) a (by omega)]

/-! ### The predictions of a run -/

/-- `q j` is the prediction of pixel I + j for each of the next n pixels, if the pixels before it are equal to theirs
(R132, R176). -/
def Work.Predicts (wk : Work) (n : Nat) (q : Nat → Px) : Prop :=
  (wk.kind = .intra → ∀ j < n, q j = wk.prev) ∧
  (wk.kind = .predictive → ∃ r, wk.ref = some r ∧ ∀ j < n, r.readPixel wk.ch (wk.i + j) = some (q j))

section
variable {wk : Work} {n : Nat} {q : Nat → Px} (h : wk.Predicts (n + 1) q)
include h

theorem Work.Predicts.pred : wk.pred = some (q 0) := by
  obtain ⟨hintra, hpredictive⟩ := h
  cases hkind : wk.kind with
  | intra => rw [Work.pred_intra hkind, hintra hkind 0 n.succ_pos]
  | predictive =>
    obtain ⟨r, href, hq⟩ := hpredictive hkind
    rw [Work.pred_predictive hkind href]
    exact hq 0 n.succ_pos

/-- In an INTRA unit the pixel written is the PREV it had, and in a PRED unit the reference is not written. -/
theorem Work.Predicts.emit1 : (wk.emit1 (q 0)).Predicts n (fun j => q (j + 1)) := by
  obtain ⟨hintra, hpredictive⟩ := h
  refine ⟨fun hkind j hj => ?_, fun hkind => ?_⟩
  · exact (hintra hkind (j + 1) (by omega)).trans (hintra hkind 0 n.succ_pos).symm
  · obtain ⟨r, href, hq⟩ := hpredictive hkind
    refine ⟨r, href, fun j hj => ?_⟩
    rw [← hq (j + 1) (by omega), Work.emit1_ch, Work.emit1_i, Nat.add_assoc, Nat.add_comm 1 j]

theorem Work.Predicts.emitRun_succ : wk.emitRun (n + 1) = (wk.emit1 (q 0)).emitRun n := by
  rw [Work.emitRun, h.pred, Option.bind_some]

end

theorem Work.Predicts.emitRun_written {n : Nat} {wk : Work} {q : Nat → Px} (hch : channelsLegal wk.ch = true)
    (h : wk.Predicts n q) : ∃ wk', wk.emitRun n = some wk' ∧ RunWritten wk.out wk'.out wk.ch wk.i n q := by
  induction n generalizing wk q with
  | zero => exact ⟨wk, rfl, .nil ..⟩
  | succ n ih =>
    obtain ⟨wk', hrun, hwritten⟩ := ih (wk := wk.emit1 (q 0)) hch h.emit1
    exact ⟨wk', h.emitRun_succ.trans hrun, hwritten.cons hch⟩

theorem Work.Predicts.emitRun_prev {n : Nat} {wk wk' : Work} {q : Nat → Px} (h : wk.Predicts (n + 1) q)
    (hrun : wk.emitRun (n + 1) = some wk') : wk'.prev = q n := by
  induction n generalizing wk q with
  | zero =>
    rw [h.emitRun_succ] at hrun
    cases hrun
    rfl
  | succ n ih => exact ih h.emit1 (h.emitRun_succ.symm.trans hrun)

/-! ### `exec` of RUN -/

theorem Work.lt_npx_of_walking {wk : Work} (h : wk.walking = true) : wk.i < wk.npx := by
  unfold Work.walking at h
  split at h
  case h_1 | h_2 => exact of_decide_eq_true h
  all_goals cases h

theorem execRun_some {s : State} {n : Nat} {wk : Work} (hwalk : s.work.walking = true)
    (hfits : s.work.ptr + 1 ≤ s.work.endp) (hrun : s.work.emitRun (min n (s.work.npx - s.work.i)) = some wk) :
    execRun n s = .next { s with work := { wk with ptr := s.work.ptr + 1 } } := by
  rw [execRun, if_pos hwalk, if_pos hfits, hrun]

/-- The two byte values of the quarter that are no RUN are the tags of RGB and RGBA (R95, R98). -/
theorem decodeOpcode_run_of_range {b0 : Byte} (hlo : 0xC0 ≤ b0.toNat) (hhi : b0.toNat ≤ 0xFD) (rest : List Byte) :
    decodeOpcode (b0 :: rest) = .ok (.run (b0.toNat % 64 + 1)) := by
  rw [decodeOpcode_run (tag_of_quarter hlo b0.isLt) (by rintro rfl; simp at hhi)
    (by rintro rfl; simp at hhi), toNat_field]
  simp

/-- Settles O12: a run that is cut at the end of the unit still has a pixel, and each of its pixels is the prediction of
its position, by induction on their number. -/
theorem runCopiesThePredictions : Obligations.RunCopiesThePredictions := by
  refine ⟨fun b0 rest hlo hhi => decodeOpcode_run_of_range hlo hhi rest, ?_, fun n => raisesWhenTruncated_size rfl⟩
  intro s n m q hwalk hfits hch hn _ hm hintra hpredictive
  have hpredicts : s.work.Predicts m q := ⟨hintra, hpredictive⟩
  obtain ⟨wk, hrun, hpixels, hsame⟩ := hpredicts.emitRun_written hch
  obtain ⟨k, rfl⟩ : ∃ k, m = k + 1 := Nat.exists_eq_add_one.2 (by have := Work.lt_npx_of_walking hwalk; omega)
  refine ⟨_, execRun_some hwalk hfits (hm ▸ hrun), ?_, hpixels, hsame⟩
  rw [Work.emitRun_frame hrun, hpredicts.emitRun_prev hrun]
  rfl

end Sys2Proof.Machine
end

section
/-! PROOF. Pixel buffers (R72, R140, R141): every pixel of a whole buffer can be read, and the output of a unit grows at
its end by the bytes of one pixel. -/

namespace Sys2Proof.Machine

section
variable {m : Memory} {bs : List Byte} {ch : Byte} {i n : Nat} {p : Px}

/-- The bytes of a pixel that is read are the bytes that stand at its place. -/
theorem Memory.readBytes_of_readPixel (hch : channelsLegal ch = true) (h : m.readPixel ch i = some p) :
    m.readBytes (i * ch.toNat) ch.toNat = pixelBytes ch p := by
  obtain rfl | rfl := channelsLegal_iff.1 hch
  · obtain ⟨r, hr, g, hg, b, hb, rfl⟩ : ∃ r, m.readByte (i * 3) = some r ∧ ∃ g, m.readByte (i * 3 + 1) = some g ∧
        ∃ b, m.readByte (i * 3 + 2) = some b ∧ ⟨r, g, b, 255⟩ = p := by
      simpa [Memory.readPixel, Option.bind_eq_some_iff] using h
    exact (Memory.readBytes_cons hr 2).trans
      (congrArg _ ((Memory.readBytes_cons hg 1).trans (congrArg _ (Memory.readBytes_cons hb 0))))
  · obtain ⟨r, hr, g, hg, b, hb, a, ha, rfl⟩ : ∃ r, m.readByte (i * 4) = some r ∧ ∃ g, m.readByte (i * 4 + 1) = some g ∧
        ∃ b, m.readByte (i * 4 + 2) = some b ∧ ∃ a, m.readByte (i * 4 + 3) = some a ∧ ⟨r, g, b, a⟩ = p := by
      simpa [Memory.readPixel, Option.bind_eq_some_iff] using h
    exact (Memory.readBytes_cons hr 3).trans (congrArg _ ((Memory.readBytes_cons hg 2).trans
      (congrArg _ ((Memory.readBytes_cons hb 1).trans (congrArg _ (Memory.readBytes_cons ha 0))))))

/-- The first i + 1 pixels of a buffer are the first i and pixel i. -/
theorem take_pixels_succ (hch : channelsLegal ch = true) (h : (Memory.ofBytes bs).readPixel ch i = some p) :
    bs.take ((i + 1) * ch.toNat) = bs.take (i * ch.toNat) ++ pixelBytes ch p := by
  rw [Nat.succ_mul, List.take_add, ← Memory.readBytes_of_readPixel hch h, Memory.readBytes_ofBytes]

theorem Memory.readPixel_isSome (hch : channelsLegal ch = true) (h : (i + 1) * ch.toNat ≤ bs.length) :
    ∃ p, (Memory.ofBytes bs).readPixel ch i = some p := by
  have hbyte (k : Nat) (hk : k < ch.toNat) :
      ∃ b, (Memory.ofBytes bs).readByte (i * ch.toNat + k) = some b := by
    rw [Memory.readByte_ofBytes]
    exact ⟨_, List.getElem?_eq_getElem (by rw [Nat.succ_mul] at h; omega)⟩
  obtain rfl | rfl := channelsLegal_iff.1 hch
  · obtain ⟨r, hr⟩ := hbyte 0 (by decide)
    obtain ⟨g, hg⟩ := hbyte 1 (by decide)
    obtain ⟨b, hb⟩ := hbyte 2 (by decide)
    exact ⟨_, Memory.readPixel_three hr hg hb⟩
  · obtain ⟨r, hr⟩ := hbyte 0 (by decide)
    obtain ⟨g, hg⟩ := hbyte 1 (by decide)
    obtain ⟨b, hb⟩ := hbyte 2 (by decide)
    obtain ⟨a, ha⟩ := hbyte 3 (by decide)
    exact ⟨_, Memory.readPixel_four hr hg hb ha⟩

theorem Memory.Full.readPixel_isSome (hch : channelsLegal ch = true) (h : m.Full (n * ch.toNat)) (hi : i < n) :
    ∃ p, m.readPixel ch i = some p := by
  obtain ⟨bs, hlen, rfl⟩ := h
  exact Memory.readPixel_isSome hch (hlen ▸ Nat.mul_le_mul_right _ hi)

/-- A pixel written where the pixels end is appended to them. -/
theorem Memory.writePixel_ofBytes_end (h : bs.length = i * ch.toNat) (p : Px) :
    (Memory.ofBytes bs).writePixel ch i p = Memory.ofBytes (bs ++ pixelBytes ch p) := by
  rw [Memory.writePixel, ← h, Memory.writeBytes_ofBytes_end]

theorem Memory.Full.writePixel (hch : channelsLegal ch = true) (h : m.Full (i * ch.toNat)) (p : Px) :
    (m.writePixel ch i p).Full ((i + 1) * ch.toNat) := by
  obtain ⟨bs, hlen, rfl⟩ := h
  exact ⟨_, by rw [List.length_append, hlen, length_pixelBytes hch, Nat.succ_mul],
    Memory.writePixel_ofBytes_end hlen p⟩

end

end Sys2Proof.Machine
end

section
/-! PROOF. Good coding units (R37 to R39, R140, R213): while a pixel is left its prediction exists, and coding or
decoding it keeps the unit good. -/

namespace Sys2Proof.Machine

section
variable {wk : Work}

theorem Work.UnitGood.pred_isSome (h : wk.UnitGood) (hi : wk.i < wk.npx) : ∃ p, wk.pred = some p := by
  cases hkind : wk.kind with
  | intra => exact ⟨_, Work.pred_intra hkind⟩
  | predictive =>
    obtain ⟨r, href, hfull⟩ := h.reference hkind
    rw [Work.pred_predictive hkind href]
    exact hfull.readPixel_isSome h.channels hi

/-! ### Decoding -/

theorem Work.DecodeGood.emit1 (h : wk.DecodeGood) (hi : wk.i < wk.npx) (p : Px) : (wk.emit1 p).DecodeGood :=
  ⟨⟨h.channels, hi, h.reference, h.input⟩, h.output.writePixel h.channels p⟩

/-- The position in the region and the cache are not part of what makes a unit good. -/
theorem Work.DecodeGood.with_ptr_wcache (h : wk.DecodeGood) (ptr : Nat) (wcache : Cache) :
    ({ wk with ptr, wcache } : Work).DecodeGood :=
  ⟨⟨h.channels, h.index, h.reference, h.input⟩, h.output⟩

/-- A run that stays within the unit exists and keeps the unit good. -/
theorem Work.DecodeGood.emitRun {n : Nat} {wk : Work} (h : wk.DecodeGood) (hn : wk.i + n ≤ wk.npx) :
    ∃ wk', wk.emitRun n = some wk' ∧ wk'.DecodeGood := by
  induction n generalizing wk with
  | zero => exact ⟨wk, rfl, h⟩
  | succ n ih =>
    obtain ⟨p, hp⟩ := h.pred_isSome (by omega)
    obtain ⟨wk', hrun, hgood⟩ := ih (h.emit1 (by omega) p) (by rw [Work.emit1_i, Work.emit1_npx]; omega)
    exact ⟨wk', by rw [Work.emitRun, hp, Option.bind_some, hrun], hgood⟩

theorem Work.DecodeGood.startUnit {ref : Option Memory} {kind : FrameKind} (hch : channelsLegal wk.ch = true)
    (hinp : ∃ bs, wk.inp = Memory.ofBytes bs)
    (href : kind = .predictive → ∃ r, ref = some r ∧ r.Full (bufferLength wk.w wk.h wk.ch)) (phase : Phase)
    (ptr endp : Nat) (cache : Cache) : (wk.startUnit phase kind ptr endp cache ref).DecodeGood :=
  ⟨⟨hch, Nat.zero_le _, href, hinp⟩, [], by simp, rfl⟩

/-! ### Encoding -/

theorem Work.EncodeGood.input_pixel (h : wk.EncodeGood) (hi : wk.i < wk.npx) :
    ∃ p, wk.inp.readPixel wk.ch wk.i = some p :=
  h.buffer.readPixel_isSome h.channels hi

/-- A unit whose pixels are all still to be coded. -/
theorem Work.EncodeGood.start {pixels : List Byte} (hch : channelsLegal wk.ch = true)
    (hlen : pixels.length = bufferLength wk.w wk.h wk.ch)
    (href : wk.kind = .predictive → ∃ r, wk.ref = some r ∧ r.Full (bufferLength wk.w wk.h wk.ch))
    (hinp : wk.inp = Memory.ofBytes pixels) (hi : wk.i = 0) (hrun : wk.run = 0) (hout : wk.out = []) :
    wk.EncodeGood :=
  ⟨⟨hch, hi ▸ Nat.zero_le _, href, pixels, hinp⟩, ⟨pixels, hlen, hinp⟩, by rw [hrun]; decide, fun _ => hrun, [], hout⟩

variable (hashOf : Px → Slot) (pred cur : Px)

/-- A run is flushed before it reaches 62 and at the last pixel of the unit (R143, R144). -/
theorem Work.encodePixel_run (hrun : wk.run < Config.runMax) :
    (wk.encodePixel hashOf pred cur).run < Config.runMax ∧
      (wk.i + 1 = wk.npx → (wk.encodePixel hashOf pred cur).run = 0) := by
  have hpos : 0 < Config.runMax := by decide
  by_cases hpred : cur = pred
  · subst hpred
    rw [Work.encodePixel_predicted, Work.absorb]
    split_ifs with hflush
    · exact ⟨hpos, fun _ => rfl⟩
    · obtain ⟨hmax, hlast⟩ := not_or.1 hflush
      exact ⟨Nat.lt_of_le_of_ne hrun hmax, fun h => absurd h hlast⟩
  · rw [Work.encodePixel_coded hpred, Work.codePixel_frame]
    exact ⟨hpos, fun _ => rfl⟩

theorem Work.encodePixel_out (hout : ∃ bs, wk.out = Memory.ofBytes bs) :
    ∃ bs, (wk.encodePixel hashOf pred cur).out = Memory.ofBytes bs := by
  obtain ⟨bs, hbs⟩ := hout
  unfold Work.encodePixel Work.absorb Work.codePixel Work.flushRun Work.emit
  split_ifs <;> simp [hbs]

theorem Work.EncodeGood.encodePixel (h : wk.EncodeGood) (hi : wk.i < wk.npx) :
    (wk.encodePixel hashOf pred cur).EncodeGood := by
  have hrun := Work.encodePixel_run hashOf pred cur h.run
  have hout := Work.encodePixel_out hashOf pred cur h.output
  rw [Work.encodePixel_frame]
  exact ⟨⟨h.channels, hi, h.reference, h.input⟩, h.buffer, hrun.1, hrun.2, hout⟩

end

end Sys2Proof.Machine
end

section
/-! PROOF. Steps from good states (R22 to R40, R213, R262): every meaning and every command keeps the invariant, and
none of them faults. -/

namespace Sys2Proof.Machine

/-! ### What the invariant asks of a new state -/

section
variable {s t : State}

theorem Work.good_of_idle (h : t.work = Work.idle) : Work.Good t := by
  rw [Work.Good, h]
  rfl

theorem State.Inv.work_eq_idle (h : s.Inv) (hphase : s.work.phase = .idle) : s.work = Work.idle := by
  simpa only [Work.Good, hphase] using h.work

theorem State.Inv.with_work {wk : Work} (h : s.Inv) (hwork : Work.Good { s with work := wk }) :
    ({ s with work := wk } : State).Inv := ⟨h.enc, h.dec, hwork⟩

theorem State.Inv.with_io (h : s.Inv) (io : HostSide) : ({ s with io := io } : State).Inv := ⟨h.enc, h.dec, h.work⟩

theorem State.Inv.finish (h : s.Inv) (r : Result) : (s.finish r).Inv := ⟨h.enc, h.dec, Work.good_of_idle rfl⟩

theorem State.Inv.abort (h : s.Inv) (c : ErrorCode) (n : Option Nat) : (s.abort c n).Inv := h.finish _

theorem State.Inv.putEnc {e : Nat} {x : Option Enc} (h : s.Inv) (hx : ∀ enc, x = some enc → enc.Good s.maxPixels)
    (hwork : t.work = Work.idle) (hencs : t.encs = (s.putEnc e x).encs) (hdecs : t.decs = s.decs)
    (hmax : t.maxPixels = s.maxPixels) : t.Inv := by
  refine ⟨fun k enc henc => ?_, fun k dec hdec => ?_, Work.good_of_idle hwork⟩
  · have henc : (s.putEnc e x).encAt k = some enc := by rwa [State.encAt, ← hencs]
    rw [State.encAt_putEnc] at henc
    rw [hmax]
    split_ifs at henc
    · exact hx enc henc
    · exact h.enc k enc henc
  · rw [State.decAt_congr hdecs] at hdec
    exact hmax ▸ h.dec k dec hdec

theorem State.Inv.putDec {d : Nat} {x : Option Dec} (h : s.Inv) (hx : ∀ dec, x = some dec → dec.Good s.maxPixels)
    (hwork : t.work = Work.idle) (hdecs : t.decs = (s.putDec d x).decs) (hencs : t.encs = s.encs)
    (hmax : t.maxPixels = s.maxPixels) : t.Inv := by
  refine ⟨fun k enc henc => ?_, fun k dec hdec => ?_, Work.good_of_idle hwork⟩
  · rw [State.encAt, hencs] at henc
    exact hmax ▸ h.enc k enc henc
  · rw [State.decAt_congr hdecs, State.decAt_putDec] at hdec
    rw [hmax]
    split_ifs at hdec
    · exact hx dec hdec
    · exact h.dec k dec hdec

theorem Enc.reset_good (m : Nat) : Enc.reset.Good m where
  idle _ := rfl
  channels h := by cases h
  pixels h := by cases h
  reference r h := by cases h
  resident := by simp [Enc.reset]
  tagged f h := by cases h
  blob := by decide

theorem Dec.reset_good (m : Nat) : Dec.reset.Good m where
  closed _ := rfl
  channels h := by cases h
  pixels h := by cases h
  size h := by cases h
  table h := by cases h
  offsets h := by cases h
  source h := by cases h
  next := le_rfl
  fresh _ := ⟨rfl, rfl⟩
  positioned h := absurd rfl h

/-- A list with one entry appended holds those before and the new one. -/
theorem getD_append_singleton {α : Type} {l : List (Option α)} {x : Option α} {k : Nat} {a : α}
    (h : (l ++ [x]).getD k none = some a) : l.getD k none = some a ∨ x = some a := by
  rw [List.getD_eq_getElem?_getD, List.getElem?_append] at h
  split_ifs at h
  · exact .inl (by rwa [List.getD_eq_getElem?_getD])
  · cases hk : k - l.length with
    | zero => exact .inr (by simpa [hk] using h)
    | succ j => simp [hk] at h

end

/-! ### The outcomes of a good state -/

/-- The outcome is a state that meets the invariant, or a refusal of V4, V5 or of what addresses an encoder or decoder
that does not exist. -/
def Sound : Host.Outcome State Fault Refusal → Prop
  | .next t => t.Inv
  | .fault _ => False
  | .refused r => r = .unknownCommand ∨ r = .badFrameArguments ∨ r = .noSuchInstance

section
variable {s : State}

theorem sound_ite {c : Prop} [Decidable c] {o o' : Host.Outcome State Fault Refusal} (h : c → Sound o)
    (h' : ¬ c → Sound o') : Sound (if c then o else o') := by
  split_ifs with hc
  · exact h hc
  · exact h' hc

theorem sound_onEnc {e : Nat} {f : Enc → Host.Outcome State Fault Refusal}
    (h : ∀ enc, s.encAt e = some enc → Sound (f enc)) : Sound (s.onEnc e f) := by
  obtain ⟨-, ho⟩ | ⟨enc, henc, ho⟩ := s.onEnc_cases e f
  · exact ho ▸ .inr (.inr rfl)
  · exact ho ▸ h enc henc

theorem sound_onDec {d : Nat} {f : Dec → Host.Outcome State Fault Refusal}
    (h : ∀ dec, s.decAt d = some dec → Sound (f dec)) : Sound (s.onDec d f) := by
  obtain ⟨-, ho⟩ | ⟨dec, hdec, ho⟩ := s.onDec_cases d f
  · exact ho ▸ .inr (.inr rfl)
  · exact ho ▸ h dec hdec

theorem sound_tokenStep {token : Except DecodeError Instr} (h : s.Inv) (hfetch : s.work.fetch = some token)
    (hexec : ∀ i, token = .ok i → Sound (exec i s)) : Sound (tokenStep s) := by
  cases token with
  | error e => exact tokenStep_of_fetch_error hfetch ▸ h.finish _
  | ok i => exact tokenStep_of_fetch_ok hfetch ▸ hexec i rfl

end

/-! ### The instructions each place can hold -/

theorem place_of_decodeOpcode {bs : List Byte} {i : Instr} (h : decodeOpcode bs = .ok i) : i.place = .opcode := by
  cases bs with
  | nil => cases h
  | cons b0 rest =>
    simp only [decodeOpcode] at h
    split_ifs at h
    · split at h <;> cases h
      rfl
    · split at h <;> cases h
      rfl
    · cases h
      rfl
    · cases h
      rfl
    · split at h <;> cases h
      rfl
    · cases h
      rfl

theorem eq_of_decodeTag {bs : List Byte} {i : Instr} (h : decodeTag bs = .ok i) : i = .frameIntra ∨ i = .framePred := by
  cases bs with
  | nil => cases h
  | cons t rest =>
    rw [decodeTag] at h
    split_ifs at h
    · cases h
      exact .inl rfl
    · cases h
      exact .inr rfl

theorem eq_of_decodeImageHeader {bs : List Byte} {i : Instr} (h : decodeImageHeader bs = .ok i) :
    ∃ w ht ch cs, i = .qoif w ht ch cs := by
  rw [decodeImageHeader] at h
  split_ifs at h
  cases h
  exact ⟨_, _, _, _, rfl⟩

/-- The offset table read has as many entries as headerSize leaves room for (R230). -/
theorem eq_of_decodeContainerHeader {b1 b2 : List Byte} {i : Instr} (h : decodeContainerHeader b1 b2 = .ok i) :
    ∃ hs w ht fr ch n offs, i = .qov1 hs w ht fr ch n offs ∧
      (25 ≤ hs.toNat → offs.length = (hs.toNat - 25) / 4) := by
  simp only [decodeContainerHeader] at h
  split_ifs at h with _ _ hsmall
  · cases h
    exact ⟨_, _, _, _, _, _, _, rfl, fun hle => absurd hsmall (Nat.not_lt.2 hle)⟩
  · cases h
    exact ⟨_, _, _, _, _, _, _, rfl, fun _ => by simp [offsetTable, Config.containerFixedBytes]⟩

/-! ### Coding units -/

section
variable {s : State}

/-- A unit being decoded stays good when only what an opcode writes changes, and its pixels stay good. -/
theorem Work.Good.decoded (h : Work.Good s) (hwalk : s.work.walking = true) {wk : Work} (hgood : wk.DecodeGood)
    (hframe : wk = { s.work with prev := wk.prev, i := wk.i, ptr := wk.ptr, wcache := wk.wcache, out := wk.out }) :
    Work.Good { s with work := wk } := by
  have hphase : wk.phase = s.work.phase := by rw [hframe]
  have hkind : wk.kind = s.work.kind := by rw [hframe]
  have hw : wk.w = s.work.w := by rw [hframe]
  have hh : wk.h = s.work.h := by rw [hframe]
  have hch : wk.ch = s.work.ch := by rw [hframe]
  have hcs : wk.cs = s.work.cs := by rw [hframe]
  cases hp : s.work.phase with
  | imageUnit =>
    simp only [Work.Good, hp, hphase, hkind, hcs, Work.npx, hw, hh] at h ⊢
    exact ⟨hgood, h.2⟩
  | frameUnit caller =>
    simp only [Work.Good, hp, hphase, FrameCaller.Served, Dec.Serves, hw, hh, hch] at h ⊢
    exact ⟨hgood, h.2⟩
  | _ => simp [Work.walking, hp] at hwalk

theorem Work.Good.decodeGood (h : Work.Good s) (hwalk : s.work.walking = true) : s.work.DecodeGood := by
  cases hp : s.work.phase with
  | imageUnit =>
    simp only [Work.Good, hp] at h
    exact h.1
  | frameUnit caller =>
    simp only [Work.Good, hp] at h
    exact h.1
  | _ => simp [Work.walking, hp] at hwalk

theorem onePixel_sound (h : s.Inv) (hwalk : s.work.walking = true) (n : Nat) (writes : Bool) {px : Option Px}
    (hpx : ∃ p, px = some p) : Sound (s.onePixel n writes px) := by
  obtain ⟨p, rfl⟩ := hpx
  by_cases hfits : s.work.ptr + n ≤ s.work.endp
  · have hgood := (h.work.decodeGood hwalk).emit1 (Work.lt_npx_of_walking hwalk) p
    rw [State.onePixel_some writes p hwalk hfits]
    refine h.with_work (h.work.decoded hwalk (?_ : Work.DecodeGood (s.afterPixel n writes p).work) ?_)
    · cases writes <;> exact hgood.with_ptr_wcache _ _
    · cases writes <;> rfl
  · rw [State.onePixel_truncated hwalk (Nat.not_le.1 hfits)]
    exact h.abort ..

theorem execRun_sound (h : s.Inv) (hwalk : s.work.walking = true) (n : Nat) : Sound (execRun n s) := by
  by_cases hfits : s.work.ptr + 1 ≤ s.work.endp
  · have hi := Work.lt_npx_of_walking hwalk
    obtain ⟨wk, hrun, hgood⟩ := (h.work.decodeGood hwalk).emitRun (n := min n (s.work.npx - s.work.i)) (by omega)
    rw [execRun_some hwalk hfits hrun]
    refine h.with_work (h.work.decoded hwalk (hgood.with_ptr_wcache _ _) ?_)
    rw [Work.emitRun_frame hrun]
  · rw [execRun_truncated hwalk (Nat.not_le.1 hfits)]
    exact h.abort ..

/-- The prediction an opcode needs exists while a pixel is left in a good unit (R213). -/
theorem exec_opcode_sound (h : s.Inv) (hwalk : s.work.walking = true) {i : Instr} (hplace : i.place = .opcode) :
    Sound (exec i s) := by
  obtain ⟨pr, hpred⟩ := (h.work.decodeGood hwalk).pred_isSome (Work.lt_npx_of_walking hwalk)
  cases i with
  | index k => exact onePixel_sound h hwalk 1 false ⟨cacheRead s.work.wcache k, rfl⟩
  | diff dr dg db => exact onePixel_sound h hwalk _ _ ⟨_, by rw [hpred, Option.map_some]⟩
  | luma dg drg dbg => exact onePixel_sound h hwalk _ _ ⟨_, by rw [hpred, Option.map_some]⟩
  | run n => exact execRun_sound h hwalk n
  | rgb r g b => exact onePixel_sound h hwalk _ _ ⟨_, by rw [hpred, Option.map_some]⟩
  | rgba r g b a => exact onePixel_sound h hwalk 5 true ⟨⟨r, g, b, a⟩, rfl⟩
  | frameIntra => cases hplace
  | framePred => cases hplace
  | qoif w ht ch cs => cases hplace
  | terminator => cases hplace
  | qov1 hs w ht fr ch n offs => cases hplace

theorem tokenStep_opcode_sound (h : s.Inv) (hwalk : s.work.walking = true) : Sound (tokenStep s) :=
  sound_tokenStep h (Work.fetch_walking hwalk) fun _ hi => exec_opcode_sound h hwalk (place_of_decodeOpcode hi)

theorem Work.Good.encodeGood (h : Work.Good s) (hphase : s.work.phase = .encImage ∨ ∃ e, s.work.phase = .encFrame e) :
    s.work.EncodeGood := by
  obtain hp | ⟨e, hp⟩ := hphase
  · simp only [Work.Good, hp] at h
    exact h.1
  · simp only [Work.Good, hp] at h
    exact h.1

/-- A unit being encoded stays good while its pixels are coded. -/
theorem encodeStep_sound (h : s.Inv) (hi : s.work.i < s.work.npx)
    (hphase : s.work.phase = .encImage ∨ ∃ e, s.work.phase = .encFrame e) : Sound (encodeStep s) := by
  have hgood := h.work.encodeGood hphase
  obtain ⟨cur, hcur⟩ := hgood.input_pixel hi
  obtain ⟨pr, hpred⟩ := hgood.pred_isSome hi
  have hnext := hgood.encodePixel s.hash pr cur hi
  have hwork := h.work
  rw [encodeStep, hcur, hpred]
  refine h.with_work ?_
  rw [Work.encodePixel_frame] at hnext ⊢
  obtain hp | ⟨e, hp⟩ := hphase
  · simp only [Work.Good, hp] at hnext hwork ⊢
    exact ⟨hnext, hwork.2⟩
  · simp only [Work.Good, hp] at hnext hwork ⊢
    exact ⟨hnext, hwork.2⟩

end

/-! ### The framing tokens and the ends of the units -/

section
variable {s : State}

theorem execFrameIntra_frameTag {caller : FrameCaller} (hphase : s.work.phase = .frameTag caller) :
    execFrameIntra s =
      .next { s with work := s.work.startUnit (.frameUnit caller) .intra 1 s.work.inp.size Cache.zero none } := by
  simp only [execFrameIntra, hphase]

theorem execFramePred_resident {caller : FrameCaller} {r : Memory} (hphase : s.work.phase = .frameTag caller)
    (href : s.work.ref = some r) :
    execFramePred s =
      .next { s with work := s.work.startUnit (.frameUnit caller) .predictive 1 s.work.inp.size s.work.wcache
                        s.work.ref } := by
  simp [execFramePred, hphase, resident, href]

theorem execFramePred_no_reference {caller : FrameCaller} (hphase : s.work.phase = .frameTag caller)
    (href : s.work.ref = none) : execFramePred s = .next (s.abort .noReference (s.frameIndex caller)) := by
  simp [execFramePred, hphase, resident, href]

/-- Either tag starts a good unit, or the command aborts: the reference has the dimensions of the unit (R213). -/
theorem exec_tag_sound (h : s.Inv) {caller : FrameCaller} (hphase : s.work.phase = .frameTag caller) {i : Instr}
    (hi : i = .frameIntra ∨ i = .framePred) : Sound (exec i s) := by
  obtain ⟨hch, hinp, hfull, hserves⟩ : _ ∧ _ ∧ _ ∧ _ := by simpa only [Work.Good, hphase] using h.work
  have hserved (kind : FrameKind) (cache : Cache) (ref : Option Memory) : caller.Served
      { s with work := s.work.startUnit (.frameUnit caller) kind 1 s.work.inp.size cache ref } := by
    intro d hd
    obtain ⟨dec, hdec, hs, -⟩ := hserves d hd
    exact ⟨dec, hdec, hs⟩
  obtain rfl | rfl := hi
  · rw [exec, execFrameIntra_frameTag hphase]
    exact h.with_work ⟨.startUnit hch hinp (fun hk => by cases hk) .., hserved _ _ _⟩
  · cases href : s.work.ref with
    | none =>
      rw [exec, execFramePred_no_reference hphase href]
      exact h.abort ..
    | some r =>
      rw [exec, execFramePred_resident hphase href]
      exact h.with_work ⟨.startUnit hch hinp (fun _ => ⟨r, href, hfull r href⟩) .., hserved _ _ _⟩

theorem execQoif_sound (h : s.Inv) (hphase : s.work.phase = .imageHeader) (w ht : Word) (ch cs : Byte) :
    Sound (execQoif w ht ch cs s) := by
  obtain ⟨bs, hwork⟩ : ∃ bs, s.work = _ := by simpa only [Work.Good, hphase] using h.work
  simp only [execQoif, hphase]
  refine sound_ite (fun _ => h.abort ..) fun hch => sound_ite (fun _ => h.abort ..) fun hcs =>
    sound_ite (fun _ => h.abort ..) fun _ => sound_ite (fun _ => h.abort ..) fun hmax => ?_
  rw [Bool.not_eq_false] at hch hcs
  exact h.with_work ⟨.startUnit (wk := { s.work with w, h := ht, ch, cs }) hch ⟨bs, by rw [hwork]⟩
    (fun hk => by cases hk) .., rfl, Nat.not_lt.1 hmax, hcs⟩

/-- The checks of R260 and R262 are what makes the session opened a good one. -/
theorem execQov1_sound (h : s.Inv) {d : Nat} {src : Source} (hphase : s.work.phase = .containerHeader d src)
    {hs w ht fr : Word} {ch : Byte} {n : Word} {offs : List Word}
    (hlen : 25 ≤ hs.toNat → offs.length = (hs.toNat - 25) / 4) : Sound (execQov1 hs w ht fr ch n offs s) := by
  obtain ⟨-, dec, hdec⟩ : _ ∧ ∃ dec, s.decAt d = some dec := by simpa only [Work.Good, hphase] using h.work
  simp only [execQov1, hphase]
  refine sound_ite (fun _ => h.abort ..) fun _ => sound_ite (fun _ => h.abort ..) fun hch =>
    sound_ite (fun _ => h.abort ..) fun hsize => ?_
  rw [not_not, Config.containerFixedBytes] at hsize
  cases hbad : firstBadOffset src.len 0 hs.toNat offs with
  | some k => exact h.abort ..
  | none =>
    refine sound_ite (fun _ => h.abort ..) fun hmax => ?_
    rw [hdec]
    refine h.putDec (d := d) (fun x hx => ?_) rfl rfl rfl rfl
    cases hx
    exact {
      closed := fun hm => by cases hm
      channels := fun _ => Bool.not_eq_false _ ▸ hch
      pixels := fun _ => Nat.not_lt.1 hmax
      size := fun _ => hsize
      table := fun _ => by
        show offs.length = n.toNat
        have := hlen (by omega)
        omega
      offsets := fun _ => hbad
      source := fun _ => ⟨src, rfl, rfl⟩
      next := Nat.zero_le _
      fresh := fun _ => ⟨rfl, rfl⟩
      positioned := fun hne => absurd rfl hne }

theorem execTerminator_sound (h : s.Inv) (hphase : s.work.phase = .imageUnit) (hend : s.work.npx ≤ s.work.i) :
    Sound (execTerminator s) := execTerminator_complete hphase hend ▸ h.finish _

/-- The session with one frame more decoded: its reference is a whole buffer, and NEXT stays within N (R211). -/
theorem Dec.Good.advanced {m : Nat} {dec : Dec} {wk : Work} (hgood : dec.Good m) (hserves : dec.Serves wk)
    (hfull : wk.out.Full (bufferLength wk.w wk.h wk.ch)) :
    ({ dec with cache := wk.wcache, ref := some wk.out, next := dec.next + 1 } : Dec).Good m := by
  obtain ⟨hopen, hnext, hw, hh, hch⟩ := hserves
  have hsucc : (dec.next + 1).toNat = dec.next.toNat + 1 := by
    have := dec.n.isLt
    exact BitVec.toNat_add_of_lt (by show dec.next.toNat + 1 < 2 ^ 32; omega)
  exact {
    closed := fun hm => by rw [hopen] at hm; cases hm
    channels := hgood.channels
    pixels := hgood.pixels
    size := hgood.size
    table := hgood.table
    offsets := hgood.offsets
    source := hgood.source
    next := hsucc ▸ hnext
    fresh := fun hzero => by
      have hz : (dec.next + 1).toNat = 0 := by rw [show dec.next + 1 = 0 from hzero]; rfl
      omega
    positioned := fun _ => ⟨_, rfl, by rwa [← hw, ← hh, ← hch]⟩ }

theorem commitFrame_sound (h : s.Inv) {caller : FrameCaller} (hphase : s.work.phase = .frameUnit caller)
    (hend : s.work.npx ≤ s.work.i) : Sound (commitFrame caller s) := by
  obtain ⟨hunit, hserved⟩ : s.work.DecodeGood ∧ caller.Served s := by simpa only [Work.Good, hphase] using h.work
  cases caller with
  | perFrame => exact h.finish _
  | session d =>
    obtain ⟨dec, hdec, hserves⟩ := hserved d rfl
    have hfull : s.work.out.Full (s.work.npx * s.work.ch.toNat) := le_antisymm hunit.index hend ▸ hunit.output
    simp only [commitFrame, hdec]
    refine h.putDec (d := d) (fun x hx => ?_) rfl rfl rfl rfl
    cases hx
    exact (h.dec d dec hdec).advanced hserves hfull

theorem Work.frameBytes_ne_nil (wk : Work) : wk.frameBytes ≠ [] := by
  unfold Work.frameBytes
  cases wk.kind <;> exact List.cons_ne_nil _ _

theorem finishFrame_sound (h : s.Inv) {e : Nat} (hphase : s.work.phase = .encFrame e) : Sound (finishFrame e s) := by
  obtain ⟨hunit, enc, henc, hopen, hw, hh, hch⟩ : s.work.EncodeGood ∧ ∃ enc, s.encAt e = some enc ∧ _ := by
    simpa only [Work.Good, hphase] using h.work
  have hgood := h.enc e enc henc
  simp only [finishFrame, henc]
  refine sound_ite (fun _ => h.abort ..) fun hblob => h.putEnc (e := e) (fun x hx => ?_) rfl rfl rfl rfl
  cases hx
  exact {
    idle := fun hm => by rw [hopen] at hm; cases hm
    channels := hgood.channels
    pixels := hgood.pixels
    reference := fun r hr => by
      cases hr
      rw [← hw, ← hh, ← hch]
      exact hunit.buffer
    resident := by simp
    tagged := fun f hf => by
      obtain hf | hf := List.mem_append.1 hf
      · exact hgood.tagged f hf
      · rw [List.mem_singleton.1 hf]
        exact s.work.frameBytes_ne_nil
    blob := Nat.not_lt.1 hblob }

end

/-! ### The commands -/

theorem Enc.mode_of_isOpen {enc : Enc} (h : ¬ enc.isOpen = false) : enc.mode = .opened := by
  simpa [Enc.isOpen] using h

theorem Dec.mode_of_isOpen {dec : Dec} (h : ¬ dec.isOpen = false) : dec.mode = .opened := by
  simpa [Dec.isOpen] using h

section
variable {m : Nat} {dec : Dec} (h : dec.Good m)
include h

theorem Dec.Good.spanEnd_isSome (hopen : dec.mode = .opened) (k : Nat) : ∃ b, dec.spanEnd k = some b := by
  unfold Dec.spanEnd
  split_ifs with hk
  · rw [List.getElem?_eq_getElem (by rw [h.table hopen]; exact hk)]
    exact ⟨_, rfl⟩
  · exact ⟨_, rfl⟩

theorem Dec.Good.reference_full {r : Memory} (hr : dec.ref = some r) : r.Full (bufferLength dec.w dec.h dec.ch) := by
  by_cases hnext : dec.next = 0
  · obtain ⟨hnone, -⟩ := h.fresh hnext
    cases hnone.symm.trans hr
  · obtain ⟨r', hr', hfull⟩ := h.positioned hnext
    cases hr'.symm.trans hr
    exact hfull

theorem Dec.Good.restarted (hopen : dec.mode = .opened) :
    ({ dec with next := 0, cache := Cache.zero, ref := none } : Dec).Good m where
  closed hm := by rw [hopen] at hm; cases hm
  channels := h.channels
  pixels := h.pixels
  size := h.size
  table := h.table
  offsets := h.offsets
  source := h.source
  next := Nat.zero_le _
  fresh _ := ⟨rfl, rfl⟩
  positioned hne := absurd rfl hne

end

section
variable {s : State} (h : s.Inv)
include h

theorem issueEncodeImage_sound (w ht : Word) (ch cs : Byte) (pixels : List Byte) :
    Sound (issueEncodeImage w ht ch cs pixels s) := by
  unfold issueEncodeImage
  refine sound_ite (fun _ => h.abort ..) fun hlegal => sound_ite (fun _ => h.abort ..) fun hlen =>
    sound_ite (fun _ => h.abort ..) fun hmax => ?_
  rw [not_or, Bool.not_eq_false] at hlegal
  exact h.with_work ⟨.start hlegal.1 (not_not.1 hlen) nofun rfl rfl rfl rfl, rfl, Nat.not_lt.1 hmax⟩

theorem issueEncBegin_sound (e : Nat) (w ht : Word) (ch : Byte) (fr : Word) :
    Sound (issueEncBegin e w ht ch fr s) :=
  sound_onEnc fun _ _ => sound_ite (fun _ => h.abort ..) fun hch => sound_ite (fun _ => h.abort ..) fun hmax => by
    refine h.putEnc (e := e) (fun x hx => ?_) rfl rfl rfl rfl
    cases hx
    exact {
      idle := fun hm => by cases hm
      channels := fun _ => Bool.not_eq_false _ ▸ hch
      pixels := fun _ => Nat.not_lt.1 hmax
      reference := fun r hr => by cases hr
      resident := by simp
      tagged := fun f hf => by cases hf
      blob := (Enc.reset_good 0).blob }

theorem issueEncFrame_sound (e : Nat) (kind : FrameKind) (pixels : List Byte) :
    Sound (issueEncFrame e kind pixels s) :=
  sound_onEnc fun enc henc => sound_ite (fun _ => h.abort ..) fun hopen => sound_ite (fun _ => h.abort ..) fun hlen =>
    sound_ite (fun _ => h.abort ..) fun hres => by
      have hgood := h.enc e enc henc
      have hopen := Enc.mode_of_isOpen hopen
      have hserves : ∃ x, s.encAt e = some x ∧ x.mode = .opened ∧ enc.w = x.w ∧ enc.h = x.h ∧ enc.ch = x.ch :=
        ⟨enc, henc, hopen, rfl, rfl, rfl⟩
      cases kind with
      | intra =>
        exact h.with_work ⟨.start (hgood.channels hopen) (not_not.1 hlen) nofun rfl rfl rfl rfl, hserves⟩
      | predictive =>
        obtain ⟨r, hr⟩ : ∃ r, enc.ref = some r := Option.ne_none_iff_exists'.1 (by simpa [resident] using hres)
        exact h.with_work ⟨.start (hgood.channels hopen) (not_not.1 hlen) (fun _ => ⟨r, hr, hgood.reference r hr⟩)
          rfl rfl rfl rfl, hserves⟩

theorem issueEncFlush_sound (e : Nat) : Sound (issueEncFlush e s) :=
  sound_onEnc fun _ _ => sound_ite (fun _ => h.abort ..) fun _ =>
    h.putEnc (e := e) (fun _ hx => by cases hx; exact Enc.reset_good _) rfl rfl rfl rfl

theorem issueDecOpen_sound (d : Nat) (src : Source) : Sound (issueDecOpen d src s) :=
  sound_onDec fun dec hdec => by
    dsimp only
    split
    · rw [State.readPrefix_frame]
      exact (h.with_io _).with_work ⟨⟨_, [], rfl⟩, dec, hdec⟩
    · rw [State.readPrefix_frame, State.readPrefix_frame]
      exact (h.with_io _).with_work ⟨⟨_, _, rfl⟩, dec, hdec⟩

/-- An open session with a frame left holds its source and its offset (R28, R262). -/
theorem issueDecNext_sound (d : Nat) : Sound (issueDecNext d s) :=
  sound_onDec fun dec hdec => sound_ite (fun _ => h.abort ..) fun hopen => sound_ite (fun _ => h.finish _)
    fun hleft => by
    have hgood := h.dec d dec hdec
    have hmode := Dec.mode_of_isOpen hopen
    obtain ⟨src, hsrc, -⟩ := hgood.source hmode
    have hlt : dec.next.toNat < dec.n.toNat := hgood.next.lt_of_ne fun heq => hleft (by
      rw [Dec.isExhausted, BitVec.eq_of_toNat_eq heq, beq_self_eq_true, Bool.and_true]
      exact Bool.not_eq_false _ ▸ hopen)
    obtain ⟨a, ha⟩ : ∃ a, dec.off[dec.next.toNat]? = some a :=
      ⟨_, List.getElem?_eq_getElem (by rw [hgood.table hmode]; exact hlt)⟩
    obtain ⟨b, hb⟩ := hgood.spanEnd_isSome hmode dec.next.toNat
    rw [hsrc]
    simp only [ha, hb]
    rw [State.readRange_frame]
    refine sound_ite (fun _ => (h.with_io _).abort ..) fun _ => (h.with_io _).with_work
      ⟨hgood.channels hmode, ⟨_, rfl⟩, fun r hr => hgood.reference_full hr, fun k hk => ?_⟩
    cases hk
    exact ⟨dec, hdec, ⟨hmode, hlt, rfl, rfl, rfl⟩, rfl, rfl⟩

theorem issueDecRestart_sound (d : Nat) : Sound (issueDecRestart d s) :=
  sound_onDec fun dec hdec => sound_ite (fun _ => h.abort ..) fun hopen => by
    refine h.putDec (d := d) (fun x hx => ?_) rfl rfl rfl rfl
    cases hx
    exact (h.dec d dec hdec).restarted (Dec.mode_of_isOpen hopen)

theorem issueDecFrame_sound (cache : Cache) (ref : Option (List Byte)) (w ht : Word) (ch : Byte) (frame : List Byte) :
    Sound (issueDecFrame cache ref w ht ch frame s) :=
  sound_ite (fun hlegal => by
    rw [frameArgumentsLegal, Bool.and_eq_true] at hlegal
    obtain ⟨hch, href⟩ := hlegal
    refine h.with_work ⟨hch, ⟨frame, rfl⟩, fun r hr => ?_, fun d hd => by cases hd⟩
    obtain ⟨bs, hbs, rfl⟩ := Option.map_eq_some_iff.1 hr
    rw [hbs, Option.all_some, beq_iff_eq] at href
    exact ⟨bs, href, rfl⟩) fun _ => .inr (.inl rfl)

theorem issue_sound (c : Command) : Sound (issue c s) := by
  cases c with
  | encodeImage w ht ch cs pixels => exact issueEncodeImage_sound h w ht ch cs pixels
  | decodeImage bytes => exact h.with_work ⟨bytes, rfl⟩
  | encBegin e w ht ch fr => exact issueEncBegin_sound h e w ht ch fr
  | encFrame e kind pixels => exact issueEncFrame_sound h e kind pixels
  | encFlush e => exact issueEncFlush_sound h e
  | decOpen d src => exact issueDecOpen_sound h d src
  | decNext d => exact issueDecNext_sound h d
  | decRestart d => exact issueDecRestart_sound h d
  | decFrame cache ref w ht ch frame => exact issueDecFrame_sound h cache ref w ht ch frame
  | other code => exact .inl rfl

theorem hostStep_sound (hphase : s.work.phase = .idle) : Sound (hostStep s) := by
  have hidle := h.work_eq_idle hphase
  unfold hostStep
  cases hpending : s.io.pending with
  | nil => exact h
  | cons action rest =>
    cases action with
    | issue c => exact issue_sound (h.with_io _) c
    | newEncoder =>
      refine ⟨fun e enc henc => ?_, h.dec, Work.good_of_idle hidle⟩
      obtain henc | henc := getD_append_singleton henc
      · exact h.enc e enc henc
      · cases henc
        exact Enc.reset_good _
    | newDecoder =>
      refine ⟨h.enc, fun d dec hdec => ?_, Work.good_of_idle hidle⟩
      obtain hdec | hdec := getD_append_singleton hdec
      · exact h.dec d dec hdec
      · cases hdec
        exact Dec.reset_good _
    | discardEncoder e =>
      exact sound_onEnc fun _ _ => h.putEnc (e := e) (x := none) (fun _ hx => by cases hx) hidle rfl rfl rfl
    | discardDecoder d =>
      exact sound_onDec fun _ _ => h.putDec (d := d) (x := none) (fun _ hx => by cases hx) hidle rfl rfl rfl

/-! ### The step of the core -/

theorem step_sound : Sound (step s) := by
  cases hphase : s.work.phase with
  | idle => exact step_idle hphase ▸ hostStep_sound h hphase
  | imageHeader =>
    refine step_imageHeader hphase ▸ sound_tokenStep h (Work.fetch_imageHeader hphase) fun i hi => ?_
    obtain ⟨w, ht, ch, cs, rfl⟩ := eq_of_decodeImageHeader hi
    exact execQoif_sound h hphase w ht ch cs
  | containerHeader d src =>
    refine step_containerHeader hphase ▸ sound_tokenStep h (Work.fetch_containerHeader hphase) fun i hi => ?_
    obtain ⟨hs, w, ht, fr, ch, n, offs, rfl, hlen⟩ := eq_of_decodeContainerHeader hi
    exact execQov1_sound h hphase hlen
  | frameTag caller =>
    exact step_frameTag hphase ▸ sound_tokenStep h (Work.fetch_frameTag hphase) fun i hi =>
      exec_tag_sound h hphase (eq_of_decodeTag hi)
  | imageUnit =>
    obtain hi | hend := Nat.lt_or_ge s.work.i s.work.npx
    · have hwalk : s.work.walking = true := by simp [Work.walking, hphase, hi]
      exact step_walking hwalk ▸ tokenStep_opcode_sound h hwalk
    · exact step_imageUnit_end hphase hend ▸ execTerminator_sound h hphase hend
  | frameUnit caller =>
    obtain hi | hend := Nat.lt_or_ge s.work.i s.work.npx
    · have hwalk : s.work.walking = true := by simp [Work.walking, hphase, hi]
      exact step_walking hwalk ▸ tokenStep_opcode_sound h hwalk
    · exact step_frameUnit_end hphase hend ▸ commitFrame_sound h hphase hend
  | encImage =>
    obtain hi | hend := Nat.lt_or_ge s.work.i s.work.npx
    · exact step_encImage hphase hi ▸ encodeStep_sound h hi (.inl hphase)
    · exact step_encImage_end hphase hend ▸ h.finish _
  | encFrame e =>
    obtain hi | hend := Nat.lt_or_ge s.work.i s.work.npx
    · exact step_encFrame hphase hi ▸ encodeStep_sound h hi (.inr ⟨e, hphase⟩)
    · exact step_encFrame_end hphase hend ▸ finishFrame_sound h hphase

end

/-! ### The parameters -/

theorem CommandStep.params_eq {s t : State} (h : CommandStep s t) :
    t.maxPixels = s.maxPixels ∧ t.hashParam = s.hashParam := by
  cases h <;> exact ⟨rfl, rfl⟩

theorem hostStep_params (s : State) :
    Ensures (fun t => t.maxPixels = s.maxPixels ∧ t.hashParam = s.hashParam) (hostStep s) := by
  unfold hostStep
  cases s.io.pending with
  | nil => exact ⟨rfl, rfl⟩
  | cons action rest =>
    cases action with
    | issue c => exact (issue_stepsCommand _ c).mono fun _ ht => ht.params_eq
    | newEncoder => exact ⟨rfl, rfl⟩
    | newDecoder => exact ⟨rfl, rfl⟩
    | discardEncoder e => exact ensures_onEnc fun _ _ => ⟨rfl, rfl⟩
    | discardDecoder d => exact ensures_onDec fun _ _ => ⟨rfl, rfl⟩

theorem step_params {s t : State} (h : step s = .next t) : t.maxPixels = s.maxPixels ∧ t.hashParam = s.hashParam := by
  by_cases hphase : s.work.phase = .idle
  · have hhost := hostStep_params s
    rwa [← step_idle hphase, h] at hhost
  · exact (step_commandStep hphase h).params_eq

/-! ### The obligations -/

/-- Settles O55: what a sound step answers meets the invariant, and no step writes the parameters. -/
theorem everyStepKeepsTheInvariant : Obligations.EveryStepKeepsTheInvariant := by
  refine fun s t hstep => ⟨fun hinv => ?_, step_params hstep⟩
  have hsound := step_sound hinv
  rwa [hstep] at hsound

/-- Settles O56: the step of a good state is sound, so it is no fault and only the three refusals remain. -/
theorem goodStatesNeverFault : Obligations.GoodStatesNeverFault := by
  intro s hinv
  have hsound := step_sound hinv
  refine ⟨fun r hr => ?_, fun r hr => ?_⟩
  · rw [hr] at hsound
    exact hsound
  · rwa [hr] at hsound

end Sys2Proof.Machine
end

section
/-! PROOF. The tag of a frame and the end of its unit (R202 to R211, R274, R279). -/

namespace Sys2Proof.Machine

/-- Settles O17: the tag starts the unit, whatever the command and the carried state. -/
theorem intraTagStartsAResetUnit : Obligations.IntraTagStartsAResetUnit :=
  fun _ _ hphase => execFrameIntra_frameTag hphase

/-- Settles O18: the unit started keeps the reference it is given, which is the one that stood there. -/
theorem predictiveTagStartsFromTheCarriedState : Obligations.PredictiveTagStartsFromTheCarriedState := by
  intro s caller r hphase href
  rw [exec, execFramePred_resident hphase href]
  rfl

/-- The cache a unit of this kind starts from, of the carried one (R202, R203). -/
def FrameKind.startCache (cache : Cache) : FrameKind → Cache
  | .intra => Cache.zero
  | .predictive => cache

/-- The reference a unit of this kind reads, of the resident one (R202, R203). -/
def FrameKind.startRef (ref : Option Memory) : FrameKind → Option Memory
  | .intra => none
  | .predictive => ref

/-- The working registers from which ENC_FRAME codes a frame of the session (R251). -/
def Enc.frameUnit (enc : Enc) (e : Nat) (kind : FrameKind) (pixels : List Byte) : Work :=
  { Work.idle with phase := .encFrame e, kind, w := enc.w, h := enc.h, ch := enc.ch, inp := Memory.ofBytes pixels,
                   wcache := kind.startCache enc.cache, ref := kind.startRef enc.ref }

section
variable {s : State} {e : Nat} {enc : Enc} {pixels : List Byte} (henc : s.encAt e = some enc)
  (hopen : enc.mode = .opened) (hlen : pixels.length = bufferLength enc.w enc.h enc.ch)
include henc hopen hlen

/-- With an open session and a whole buffer, the reference is the last thing ENC_FRAME checks (R313). -/
theorem issueEncFrame_open (kind : FrameKind) : issueEncFrame e kind pixels s =
    if kind = .predictive ∧ resident enc.ref = false then .next (s.abort .noReference (some enc.frames.length))
    else .next { s with work := enc.frameUnit e kind pixels } := by
  have hisOpen : ¬ enc.isOpen = false := by
    rw [Enc.isOpen, hopen]
    decide
  rw [issueEncFrame, State.onEnc_some henc, if_neg hisOpen, if_neg (not_not.2 hlen)]
  cases kind <;> rfl

theorem issueEncFrame_no_reference (href : enc.ref = none) :
    issueEncFrame e .predictive pixels s = .next (s.abort .noReference (some enc.frames.length)) := by
  rw [issueEncFrame_open henc hopen hlen, href]
  rfl

theorem issueEncFrame_starts {kind : FrameKind} (href : kind = .predictive → enc.ref ≠ none) :
    issueEncFrame e kind pixels s = .next { s with work := enc.frameUnit e kind pixels } := by
  rw [issueEncFrame_open henc hopen hlen, if_neg]
  rintro ⟨hkind, hres⟩
  exact href hkind (by simpa [resident] using hres)

end

/-- Settles O19: the check of the reference is the last of the tag and of ENC_FRAME, and the index recorded is that of
the caller. -/
theorem predictiveFrameWithoutReferenceIsAnError : Obligations.PredictiveFrameWithoutReferenceIsAnError := by
  refine ⟨fun s d dec hphase hdec href => ?_, fun s hphase href => execFramePred_no_reference hphase href,
    fun s e enc pixels henc hopen hlen => issueEncFrame_no_reference henc hopen hlen⟩
  rw [exec, execFramePred_no_reference hphase href, State.frameIndex, hdec, Option.map_some]

/-- Settles O27: with no pixel left the step is the commit of the frame for its caller. -/
theorem decodedFrameCommits : Obligations.DecodedFrameCommits := by
  refine fun s hend => ⟨fun d dec hphase hdec => ?_, fun hphase => step_frameUnit_end hphase hend⟩
  rw [step_frameUnit_end hphase hend, commitFrame, hdec]
  rfl

end Sys2Proof.Machine
end

section
/-! PROOF. A decoder that follows an encoder (R157): each opcode the encoder emits brings the decoder, which reads it
later, to the place where the encoder stood. -/

namespace Sys2Proof.Machine

/-! ### Runs that change the working registers alone -/

/-- After n steps from `s` the working registers are `wk`, and all else is as it was. -/
def Reaches (s : State) (n : Nat) (wk : Work) : Prop := Host.Core.run core n s = .next { s with work := wk }

theorem Reaches.refl (s : State) : Reaches s 0 s.work := rfl

theorem Reaches.step {s : State} {n : Nat} {wk wk' : Work} (h : Reaches s n wk)
    (hstep : Machine.step { s with work := wk } = .next { s with work := wk' }) : Reaches s (n + 1) wk' :=
  (run_add n 1 h).trans (run_succ_of_next 0 hstep)

/-! ### The bytes a decoder has before it -/

/-- The bytes `bs` stand at PTR, within the region. -/
def Work.Holds (wk : Work) (bs : List Byte) : Prop :=
  wk.ptr + bs.length ≤ wk.endp ∧ wk.inp.readBytes wk.ptr bs.length = bs

/-- A read begins as every longer read from the same position. -/
theorem Memory.take_readBytes (m : Memory) (a n k : Nat) : (m.readBytes a (n + k)).take n = m.readBytes a n := by
  induction n generalizing a with
  | zero => rfl
  | succ n ih =>
    cases hb : m.readByte a with
    | none => simp [Memory.readBytes, hb, Nat.succ_add]
    | some b => rw [Nat.succ_add, Memory.readBytes_cons hb, Memory.readBytes_cons hb, List.take_succ_cons, ih]

section
variable {wk wk' : Work} {bs cs : List Byte} (h : wk.Holds (bs ++ cs))
include h

theorem Work.Holds.left : wk.Holds bs := by
  obtain ⟨hend, hbytes⟩ := h
  rw [List.length_append] at hend hbytes
  exact ⟨by omega, by rw [← Memory.take_readBytes, hbytes, List.take_left]⟩

/-- Past the first of the bytes stand the others. -/
theorem Work.Holds.right (hinp : wk'.inp = wk.inp) (hendp : wk'.endp = wk.endp)
    (hptr : wk'.ptr = wk.ptr + bs.length) : wk'.Holds cs := by
  obtain ⟨-, hleft⟩ := h.left
  obtain ⟨hend, hbytes⟩ := h
  rw [List.length_append] at hend hbytes
  refine ⟨by omega, ?_⟩
  rw [Memory.readBytes_add (by rw [hleft]), hleft] at hbytes
  rw [hinp, hptr]
  exact List.append_cancel_left hbytes

end

/-! ### Where the decoder stands -/

/-- The working registers of a unit being decoded, before or after some of its opcodes. -/
def Work.Continues (wk start : Work) : Prop :=
  wk = { start with prev := wk.prev, i := wk.i, ptr := wk.ptr, wcache := wk.wcache, out := wk.out }

/-- The command in progress decodes a coding unit. -/
def Phase.IsDecoding (p : Phase) : Prop := p = .imageUnit ∨ ∃ caller, p = .frameUnit caller

theorem Work.walking_of_lt {wk : Work} (hphase : wk.phase.IsDecoding) (hi : wk.i < wk.npx) : wk.walking = true := by
  obtain hp | ⟨caller, hp⟩ := hphase <;> simp [Work.walking, hp, hi]

/-- The decoder `dec` stands where the encoder `enc` does: the same unit, cache, pixel index and previous pixel, and the
pixels coded so far decoded. -/
structure Work.Mirrors (dec enc : Work) : Prop where
  kind : dec.kind = enc.kind
  w : dec.w = enc.w
  h : dec.h = enc.h
  ch : dec.ch = enc.ch
  ref : dec.ref = enc.ref
  prev : dec.prev = enc.prev
  i : dec.i = enc.i
  wcache : dec.wcache = enc.wcache
  out : dec.out = Memory.ofBytes (enc.inp.toBytes.take (enc.i * enc.ch.toNat))

/-- The decoder will stand where the encoder does after the pixels of the run the encoder has pending (R142). -/
def Work.Trails (dec enc : Work) : Prop := ∃ dec', dec.emitRun enc.run = some dec' ∧ dec'.Mirrors enc

section
variable {dec dec' enc : Work} {cur : Px}

theorem Work.Mirrors.npx (h : dec.Mirrors enc) : dec.npx = enc.npx := by rw [Work.npx, Work.npx, h.w, h.h]

theorem Work.Mirrors.pred (h : dec.Mirrors enc) : dec.pred = enc.pred := by
  rw [Work.pred, Work.pred, h.kind, h.prev, h.ref, h.ch, h.i]

/-- What the encoder has emitted and has pending, and the decoder's position in the region, are no part of it. -/
theorem Work.Mirrors.with_cache (h : dec.Mirrors enc) (cache : Cache) (ptr run : Nat) (out : Memory) :
    ({ dec with ptr, wcache := cache } : Work).Mirrors { enc with run, out, wcache := cache } :=
  ⟨h.kind, h.w, h.h, h.ch, h.ref, h.prev, h.i, rfl, h.out⟩

theorem Work.Mirrors.flushed (h : dec.Mirrors enc) (ptr run : Nat) (out : Memory) :
    ({ dec with ptr } : Work).Mirrors { enc with run, out } :=
  ⟨h.kind, h.w, h.h, h.ch, h.ref, h.prev, h.i, h.wcache, h.out⟩

/-- The decoder produces the pixel the encoder codes. -/
theorem Work.Mirrors.emit1 (h : dec.Mirrors enc) (hgood : enc.EncodeGood)
    (hcur : enc.inp.readPixel enc.ch enc.i = some cur) (run : Nat) :
    (dec.emit1 cur).Mirrors { enc with run, prev := cur, i := enc.i + 1 } := by
  obtain ⟨pixels, hlen, hinp⟩ := hgood.buffer
  have hle : enc.i * enc.ch.toNat ≤ pixels.length := hlen ▸ Nat.mul_le_mul_right _ hgood.index
  refine ⟨h.kind, h.w, h.h, h.ch, h.ref, rfl, congrArg (· + 1) h.i, h.wcache, ?_⟩
  rw [hinp] at hcur
  simp only [Work.emit1_out, h.out, h.ch, h.i, hinp, Memory.toBytes_ofBytes]
  rw [take_pixels_succ hgood.channels hcur, Memory.writePixel_ofBytes_end (by rw [List.length_take, min_eq_left hle])]

/-- A run of one pixel more has the prediction after the run as its last pixel. -/
theorem Work.emitRun_succ_of_pred {n : Nat} (hrun : dec.emitRun n = some dec') (hpred : dec'.pred = some cur) :
    dec.emitRun (n + 1) = some (dec'.emit1 cur) := by
  induction n generalizing dec with
  | zero =>
    cases hrun
    rw [Work.emitRun, hpred]
    rfl
  | succ n ih =>
    obtain ⟨p, hp, hrun⟩ := Option.bind_eq_some_iff.1 hrun
    rw [Work.emitRun, hp, Option.bind_some, ih hrun]

theorem Work.Trails.absorb (h : dec.Trails enc) (hgood : enc.EncodeGood)
    (hcur : enc.inp.readPixel enc.ch enc.i = some cur) (hpred : enc.pred = some cur) :
    dec.Trails { enc with run := enc.run + 1, prev := cur, i := enc.i + 1 } := by
  obtain ⟨dec', hrun, hmirrors⟩ := h
  exact ⟨_, Work.emitRun_succ_of_pred hrun (hmirrors.pred.trans hpred), hmirrors.emit1 hgood hcur _⟩

theorem Work.Mirrors.trails (h : dec.Mirrors enc) (hrun : enc.run = 0) : dec.Trails enc := ⟨dec, by rw [hrun]; rfl, h⟩

theorem Work.Trails.mirrors (h : dec.Trails enc) (hrun : enc.run = 0) : dec.Mirrors enc := by
  obtain ⟨dec', hemit, hmirrors⟩ := h
  rw [hrun] at hemit
  cases hemit
  exact hmirrors

end

/-! ### One opcode read -/

theorem place_of_opcodePixel {cache : Cache} {pred p : Px} {i : Instr} (h : opcodePixel cache pred i = some p) :
    i.place = .opcode := by
  cases i with
  | index k => rfl
  | diff dr dg db => rfl
  | luma dg drg dbg => rfl
  | run n => rfl
  | rgb r g b => rfl
  | rgba r g b a => rfl
  | frameIntra => cases h
  | framePred => cases h
  | qoif w ht ch cs => cases h
  | terminator => cases h
  | qov1 hs w ht fr ch n offs => cases h

theorem State.afterPixel_eq (s : State) (n : Nat) (writes : Bool) (p : Px) :
    s.afterPixel n writes p =
      { s with work := { s.work.emit1 p with
                          ptr := s.work.ptr + n
                          wcache := if writes then cacheWrite s.work.wcache (s.hash p) p else s.work.wcache } } := by
  cases writes <;> rfl

/-- An opcode that stands at PTR is run, and the bytes after it stand next. -/
theorem step_of_holds {s : State} {i : Instr} {rest : List Byte} {wk : Work} (hwalk : s.work.walking = true)
    (hplace : i.place = .opcode) (hwf : i.wellFormed = true) (hholds : s.work.Holds (encode i ++ rest))
    (hexec : s.work.ptr + i.size ≤ s.work.endp → exec i s = .next { s with work := wk })
    (hcont : wk.Continues s.work) (hptr : wk.ptr = s.work.ptr + i.size) :
    step s = .next { s with work := wk } ∧ wk.Holds rest := by
  obtain ⟨hfits, hbytes⟩ := hholds.left
  rw [length_encode] at hfits hbytes
  refine ⟨(encodedOpcodeAtPtrIsRun s i hwalk hplace hwf hfits hbytes).trans (hexec hfits), hholds.right ?_ ?_ ?_⟩
  · rw [hcont]
  · rw [hcont]
  · rw [hptr, length_encode]

section
variable {s : State} {enc : Work} {rest : List Byte} (hphase : s.work.phase.IsDecoding)
include hphase

/-- The RUN opcode of the pending run, which the encoder flushes, lets the decoder catch up (R143, R176). -/
theorem step_flushed (htrails : s.work.Trails enc) (hrun : 1 ≤ enc.run) (hmax : enc.run ≤ 62) (hi : enc.i ≤ enc.npx)
    (hholds : s.work.Holds (encode (.run enc.run) ++ rest)) (out : Memory) :
    ∃ wk, step s = .next { s with work := wk } ∧ wk.Continues s.work ∧ wk.Holds rest ∧
      wk.Trails { enc with run := 0, out } := by
  obtain ⟨dec', hemit, hmirrors⟩ := htrails
  have hframe := Work.emitRun_frame hemit
  have hadd : s.work.i + enc.run = enc.i := by rw [← hmirrors.i, hframe]
  have hnpx : s.work.npx = enc.npx := by rw [← hmirrors.npx, hframe]; rfl
  have hcont : ({ dec' with ptr := s.work.ptr + 1 } : Work).Continues s.work := by
    rw [hframe]
    rfl
  have hwalk : s.work.walking = true := Work.walking_of_lt hphase (by omega)
  obtain ⟨hstep, hrest⟩ := step_of_holds (i := .run enc.run) hwalk rfl (wellFormed_run_iff.2 ⟨hrun, hmax⟩) hholds
    (fun hfits => execRun_some hwalk hfits (by rwa [min_eq_left (by omega)])) hcont rfl
  exact ⟨_, hstep, hcont, hrest, (hmirrors.flushed _ _ _).trails rfl⟩

/-- The opcode the encoder picks for a pixel makes the decoder produce it and keeps the caches equal (R157). -/
theorem step_coded {pred cur : Px} (hmirrors : s.work.Mirrors enc) (hgood : enc.EncodeGood) (hi : enc.i < enc.npx)
    (hcur : enc.inp.readPixel enc.ch enc.i = some cur) (hpred : enc.pred = some pred)
    (hholds : s.work.Holds (encode (selectOpcode s.hash enc.wcache pred cur) ++ rest)) (out : Memory) :
    ∃ wk, step s = .next { s with work := wk } ∧ wk.Continues s.work ∧ wk.Holds rest ∧
      wk.Mirrors
        { enc with run := 0, prev := cur, i := enc.i + 1, wcache := cacheAfter s.hash enc.wcache cur, out } := by
  have hwalk : s.work.walking = true := Work.walking_of_lt hphase (by rw [hmirrors.i, hmirrors.npx]; exact hi)
  rw [← hmirrors.wcache] at hholds ⊢
  have hpx := opcodePixel_selectOpcode s.hash s.work.wcache pred cur
  have hwcache := cacheAfter_eq_writesCache s.hash s.work.wcache pred cur
  have hwf := wellFormed_selectOpcode s.hash s.work.wcache pred cur
  generalize selectOpcode s.hash s.work.wcache pred cur = i at hholds hpx hwcache hwf
  obtain ⟨hstep, hrest⟩ := step_of_holds
    (wk := { s.work.emit1 cur with ptr := s.work.ptr + i.size, wcache := cacheAfter s.hash s.work.wcache cur })
    hwalk (place_of_opcodePixel hpx) hwf hholds
    (fun hfits => by
      rw [exec_onePixel hwalk (hmirrors.pred.trans hpred) hfits hpx, State.afterPixel_eq, hwcache]) rfl rfl
  exact ⟨_, hstep, rfl, hrest, (hmirrors.emit1 hgood hcur 0).with_cache _ _ 0 out⟩

end

/-! ### The bytes emitted so far -/

/-- `body`, met by a decoder that stands where `start` did, brings it to trail `enc`, whatever bytes follow. -/
def Decodes (hashOf : Px → Slot) (start : Work) (body : List Byte) (enc : Work) : Prop :=
  ∀ (s : State) (rest : List Byte), s.hash = hashOf → s.work.phase.IsDecoding → s.work.Mirrors start →
    s.work.Holds (body ++ rest) →
    ∃ k dec, Reaches s k dec ∧ dec.Continues s.work ∧ dec.Holds rest ∧ dec.Trails enc

theorem Work.Continues.trans {a b c : Work} (hab : a.Continues b) (hbc : b.Continues c) : a.Continues c := by
  rw [Work.Continues, hab, hbc]

section
variable {hashOf : Px → Slot} {start enc enc' : Work} {body new : List Byte}

theorem Decodes.nil (hrun : start.run = 0) : Decodes hashOf start [] start :=
  fun s _ _ _ hmirrors hholds => ⟨0, s.work, .refl s, rfl, hholds, hmirrors.trails hrun⟩

/-- One opcode more is decoded by one step more. -/
theorem Decodes.append (h : Decodes hashOf start body enc)
    (hnew : ∀ (s : State) (rest : List Byte), s.hash = hashOf → s.work.phase.IsDecoding → s.work.Trails enc →
      s.work.Holds (new ++ rest) →
      ∃ wk, step s = .next { s with work := wk } ∧ wk.Continues s.work ∧ wk.Holds rest ∧ wk.Trails enc') :
    Decodes hashOf start (body ++ new) enc' := by
  intro s rest hhash hphase hmirrors hholds
  rw [List.append_assoc] at hholds
  obtain ⟨k, dec, hreach, hcont, hholds, htrails⟩ := h s (new ++ rest) hhash hphase hmirrors hholds
  have hphase' : dec.phase.IsDecoding := by rwa [hcont]
  obtain ⟨wk, hstep, hcont', hrest, htrails'⟩ := hnew { s with work := dec } rest hhash hphase' htrails hholds
  exact ⟨k + 1, wk, hreach.step hstep, hcont'.trans hcont, hrest, htrails'⟩

theorem Decodes.flush (h : Decodes hashOf start body enc) (hrun : 1 ≤ enc.run) (hmax : enc.run ≤ 62)
    (hi : enc.i ≤ enc.npx) (out : Memory) :
    Decodes hashOf start (body ++ encode (.run enc.run)) { enc with run := 0, out } :=
  h.append fun _ _ _ hphase htrails hholds => step_flushed hphase htrails hrun hmax hi hholds out

variable {pred cur : Px} (hgood : enc.EncodeGood) (hcur : enc.inp.readPixel enc.ch enc.i = some cur)
include hgood hcur

theorem Decodes.absorb (h : Decodes hashOf start body enc) (hpred : enc.pred = some cur) :
    Decodes hashOf start body { enc with run := enc.run + 1, prev := cur, i := enc.i + 1 } := by
  intro s rest hhash hphase hmirrors hholds
  obtain ⟨k, dec, hreach, hcont, hholds, htrails⟩ := h s rest hhash hphase hmirrors hholds
  exact ⟨k, dec, hreach, hcont, hholds, htrails.absorb hgood hcur hpred⟩

theorem Decodes.code (h : Decodes hashOf start body enc) (hrun : enc.run = 0) (hi : enc.i < enc.npx)
    (hpred : enc.pred = some pred) (out : Memory) :
    Decodes hashOf start (body ++ encode (selectOpcode hashOf enc.wcache pred cur))
      { enc with run := 0, prev := cur, i := enc.i + 1, wcache := cacheAfter hashOf enc.wcache cur, out } := by
  refine h.append fun s rest hhash hphase htrails hholds => ?_
  rw [← hhash] at hholds ⊢
  obtain ⟨wk, hstep, hcont, hrest, hmirrors⟩ :=
    step_coded hphase (htrails.mirrors hrun) hgood hi hcur hpred hholds out
  exact ⟨wk, hstep, hcont, hrest, hmirrors.trails rfl⟩

end

/-! ### The encoder's walk -/

/-- The encoder has emitted `body` on its way from `first` to `wk`: at most five bytes for each pixel coded and none yet
for the run pending, which decode to those pixels. -/
structure Work.Emitted (wk : Work) (hashOf : Px → Slot) (first : Work) (body : List Byte) : Prop where
  output : wk.out = Memory.ofBytes body
  length : body.length + wk.run ≤ 5 * wk.i
  decodes : Decodes hashOf first body wk

/-- The encoder has come from `first` to `wk`, still in a good unit, and emitted `body`. -/
structure Work.Coded (wk : Work) (hashOf : Px → Slot) (first : Work) (body : List Byte) : Prop
    extends wk.Emitted hashOf first body where
  good : wk.EncodeGood
  frame : wk = { first with prev := wk.prev, run := wk.run, i := wk.i, wcache := wk.wcache, out := wk.out }

theorem size_selectOpcode_le (hashOf : Px → Slot) (cache : Cache) (pred cur : Px) :
    (encode (selectOpcode hashOf cache pred cur)).length ≤ 5 := by
  rw [length_encode]
  exact size_le_longestOpcode (place_of_opcodePixel (opcodePixel_selectOpcode hashOf cache pred cur))

section
variable {hashOf : Px → Slot} {first wk : Work} {body : List Byte} {pred cur : Px}

theorem Work.codePixel_no_run (hrun : wk.run = 0) : wk.codePixel hashOf pred cur =
    { wk with run := 0, wcache := cacheAfter hashOf wk.wcache cur,
              out := wk.out.emit (encode (selectOpcode hashOf wk.wcache pred cur)) } := by
  rw [Work.codePixel, if_neg (by omega), ← hrun]
  rfl

theorem Work.codePixel_pending (hrun : 0 < wk.run) : wk.codePixel hashOf pred cur =
    { wk with run := 0, wcache := cacheAfter hashOf wk.wcache cur,
              out := (wk.out.emit (encode (.run wk.run))).emit (encode (selectOpcode hashOf wk.wcache pred cur)) } := by
  rw [Work.codePixel, if_pos hrun]
  rfl

theorem Work.EncodeGood.with_run_zero (h : wk.EncodeGood) : ({ wk with run := 0 } : Work).EncodeGood :=
  ⟨⟨h.channels, h.index, h.reference, h.input⟩, h.buffer, Nat.zero_lt_succ 61, fun _ => rfl, h.output⟩

theorem Work.Coded.start (hgood : first.EncodeGood) (hrun : first.run = 0) (hout : first.out = []) :
    first.Coded hashOf first [] :=
  ⟨⟨hout, by rw [hrun]; exact Nat.zero_le _, .nil hrun⟩, hgood, rfl⟩

variable (h : wk.Coded hashOf first body) (hi : wk.i < wk.npx) (hcur : wk.inp.readPixel wk.ch wk.i = some cur)
include h hi hcur

/-- A pixel that joins the run is emitted with it or not at all yet (R142, R143). -/
theorem Work.Coded.encodePixel_predicted (hpred : wk.pred = some cur) :
    ∃ body', (wk.encodePixel hashOf cur cur).Emitted hashOf first body' := by
  have hdecodes := h.decodes.absorb h.good hcur hpred
  have hlength := h.length
  have hmax : wk.run < 62 := h.good.run
  rw [Work.encodePixel_predicted, Work.absorb]
  split_ifs with hflush
  · refine ⟨body ++ encode (.run (wk.run + 1)), ?_, ?_, hdecodes.flush (Nat.succ_pos _) hmax hi _⟩
    · rw [← Memory.emit_ofBytes, ← h.output]
      rfl
    · rw [List.length_append, length_encode]
      simp only [Instr.size, Work.flushRun_run]
      omega
  · exact ⟨body, h.output, by dsimp only; omega, hdecodes⟩

/-- A pixel that is coded by an opcode has the pending run emitted before it (R144). -/
theorem Work.Coded.encodePixel_coded (hpred : wk.pred = some pred) (hne : cur ≠ pred) :
    ∃ body', (wk.encodePixel hashOf pred cur).Emitted hashOf first body' := by
  have hlength := h.length
  have hsize := size_selectOpcode_le hashOf wk.wcache pred cur
  rw [Work.encodePixel_coded hne]
  obtain hrun | hrun := Nat.eq_zero_or_pos wk.run
  · rw [Work.codePixel_no_run hrun]
    refine ⟨_, by rw [h.output, Memory.emit_ofBytes], ?_, h.decodes.code h.good hcur hrun hi hpred _⟩
    rw [List.length_append]
    dsimp only
    omega
  · rw [Work.codePixel_pending hrun]
    have hflush := h.decodes.flush hrun h.good.run.le h.good.index wk.out
    refine ⟨_, by rw [h.output, Memory.emit_ofBytes, Memory.emit_ofBytes], ?_,
      hflush.code h.good.with_run_zero hcur rfl hi hpred _⟩
    rw [List.length_append, List.length_append, length_encode (.run wk.run)]
    simp only [Instr.size]
    omega

theorem Work.Coded.encodePixel (hpred : wk.pred = some pred) :
    ∃ body', (wk.encodePixel hashOf pred cur).Coded hashOf first body' := by
  obtain ⟨body', hemitted⟩ : ∃ body', (wk.encodePixel hashOf pred cur).Emitted hashOf first body' := by
    by_cases hne : cur = pred
    · subst hne
      exact h.encodePixel_predicted hi hcur hpred
    · exact h.encodePixel_coded hi hcur hpred hne
  exact ⟨body', hemitted, h.good.encodePixel hashOf pred cur hi, by rw [Work.encodePixel_frame, h.frame]⟩

end

section
variable {s : State} (hphase : s.work.phase = .encImage ∨ ∃ e, s.work.phase = .encFrame e)
  (hgood : s.work.EncodeGood) (hi : s.work.i = 0) (hrun : s.work.run = 0) (hout : s.work.out = [])
include hphase hgood hi hrun hout

/-- The walk codes one pixel a step, as many as the unit has. -/
theorem encode_pixels {n : Nat} (hn : n ≤ s.work.npx) :
    ∃ wk body, Reaches s n wk ∧ wk.i = n ∧ wk.Coded s.hash s.work body := by
  induction n with
  | zero => exact ⟨s.work, [], .refl s, hi, .start hgood hrun hout⟩
  | succ n ih =>
    obtain ⟨wk, body, hreach, rfl, hcoded⟩ := ih (Nat.le_of_succ_le hn)
    have hphase' : wk.phase = .encImage ∨ ∃ e, wk.phase = .encFrame e := by rwa [hcoded.frame]
    have hlt : wk.i < wk.npx := by
      rw [show wk.npx = s.work.npx by rw [hcoded.frame]; rfl]
      exact hn
    obtain ⟨cur, hcur⟩ := hcoded.good.input_pixel hlt
    obtain ⟨pred, hpred⟩ := hcoded.good.pred_isSome hlt
    obtain ⟨body', hcoded'⟩ := hcoded.encodePixel hlt hcur hpred
    exact ⟨_, body', hreach.step (step_encoding (s := { s with work := wk }) hphase' hlt hcur hpred), rfl, hcoded'⟩

end

/-- A decoder that stands where the encoder began decodes the whole unit from the bytes the encoder emitted, and ends
with the encoder's cache and the encoder's input as its output (R157). -/
theorem Work.Coded.decode {hashOf : Px → Slot} {first wk : Work} {body : List Byte} (h : wk.Coded hashOf first body)
    (hend : wk.i = wk.npx) {s : State} {rest : List Byte} (hhash : s.hash = hashOf) (hphase : s.work.phase.IsDecoding)
    (hmirrors : s.work.Mirrors first) (hholds : s.work.Holds (body ++ rest)) :
    ∃ k dec, Reaches s k dec ∧ dec.Continues s.work ∧ dec.Holds rest ∧ dec.i = dec.npx ∧ dec.wcache = wk.wcache ∧
      dec.out = wk.inp := by
  obtain ⟨k, dec, hreach, hcont, hrest, htrails⟩ := h.decodes s rest hhash hphase hmirrors hholds
  have hm := htrails.mirrors (h.good.flushed hend)
  refine ⟨k, dec, hreach, hcont, hrest, by rw [hm.i, hm.npx, hend], hm.wcache, ?_⟩
  obtain ⟨pixels, hlen, hinp⟩ := h.good.buffer
  rw [hm.out, hend, hinp, Memory.toBytes_ofBytes, List.take_of_length_le (by rw [hlen]; rfl)]

end Sys2Proof.Machine
end

section
/-! PROOF. A frame coded and decoded again (R157, R212, R255): the whole of ENC_FRAME, and the whole of DEC_FRAME on
what it returns. -/

namespace Sys2Proof.Machine

open Sys2Proof.Claims

/-! ### A command alone in the queue -/

/-- The state with nothing queued. -/
def State.drained (s : State) : State := { s with io := { s.io with pending := [] } }

section
variable {s : State} (hidle : s.work = Work.idle)
include hidle

theorem step_queue (c : Command) : step (queue s c) = issue c s.drained :=
  step_issue (s := queue s c) (show s.work.phase = .idle by rw [hidle]; rfl) rfl

/-- The result of the command is all that is left of it. -/
theorem finish_drained (wk : Work) (r : Result) : ({ s.drained with work := wk } : State).finish r = answered s r := by
  unfold State.finish answered State.drained
  rw [hidle]

end

/-! ### The frame and its tag -/

/-- The byte that selects the kind (R112). -/
def FrameKind.tagByte : FrameKind → Byte
  | .intra => 0x00
  | .predictive => 0x01

theorem Work.frameBytes_eq (wk : Work) : wk.frameBytes = wk.kind.tagByte :: wk.out.toBytes := by
  unfold Work.frameBytes
  cases wk.kind <;> rfl

/-- The tag of a frame starts the unit of its kind, after the tag byte. -/
theorem step_tag {s : State} {caller : FrameCaller} {kind : FrameKind} {body : List Byte}
    (hphase : s.work.phase = .frameTag caller) (hinp : s.work.inp = Memory.ofBytes (kind.tagByte :: body))
    (href : kind = .predictive → s.work.ref ≠ none) :
    step s = .next { s with work := s.work.startUnit (.frameUnit caller) kind 1 (body.length + 1)
                              (kind.startCache s.work.wcache) (kind.startRef s.work.ref) } := by
  have hsize : s.work.inp.size = body.length + 1 := by rw [hinp, Memory.size_ofBytes, List.length_cons]
  have hfetch : s.work.fetch = some (decodeTag [kind.tagByte]) := by
    rw [Work.fetch_frameTag hphase, hinp, Memory.readByte_ofBytes]
    rfl
  rw [step_frameTag hphase, ← hsize]
  cases kind with
  | intra => exact (tokenStep_of_fetch_ok hfetch).trans (execFrameIntra_frameTag hphase)
  | predictive =>
    obtain ⟨r, hr⟩ := Option.ne_none_iff_exists'.1 (href rfl)
    exact (tokenStep_of_fetch_ok hfetch).trans (execFramePred_resident hphase hr)

/-- A frame command that stands before the tag of a coded unit, and starts from where its encoder began, decodes the
unit (R157, R210). -/
theorem Work.Coded.decode_frame {hashOf : Px → Slot} {first wk : Work} {body : List Byte}
    (hcoded : wk.Coded hashOf first body) (hend : wk.i = wk.npx) {s : State} {caller : FrameCaller} {kind : FrameKind}
    (hhash : s.hash = hashOf) (hphase : s.work.phase = .frameTag caller)
    (hinp : s.work.inp = Memory.ofBytes (kind.tagByte :: body)) (href : kind = .predictive → s.work.ref ≠ none)
    (hmirrors : (s.work.startUnit (.frameUnit caller) kind 1 (body.length + 1) (kind.startCache s.work.wcache)
      (kind.startRef s.work.ref)).Mirrors first) :
    ∃ k dec, Reaches s k dec ∧ dec.phase = .frameUnit caller ∧ dec.i = dec.npx ∧ dec.wcache = wk.wcache ∧
      dec.out = wk.inp := by
  have htag := step_tag hphase hinp href
  generalize hunit : s.work.startUnit (.frameUnit caller) kind 1 (body.length + 1) (kind.startCache s.work.wcache)
    (kind.startRef s.work.ref) = unit at hmirrors htag
  have hunitPhase : unit.phase = .frameUnit caller := by rw [← hunit, Work.startUnit_phase]
  have hholds : unit.Holds (body ++ []) := by
    rw [List.append_nil, ← hunit]
    refine ⟨(Nat.add_comm ..).le, ?_⟩
    rw [Work.startUnit_inp, hinp, Work.startUnit_ptr, Memory.readBytes_ofBytes, List.drop_one, List.tail_cons,
      List.take_length]
  obtain ⟨k, dec, hreach, hcont, -, hdone, hwcache, hout⟩ :=
    hcoded.decode hend (s := { s with work := unit }) hhash (.inr ⟨caller, hunitPhase⟩) hmirrors hholds
  exact ⟨k + 1, dec, (run_succ_of_next k htag).trans hreach, by rw [hcont]; exact hunitPhase, hdone, hwcache, hout⟩

/-! ### ENC_FRAME -/

theorem blobLength_append (frames : List (List Byte)) (f : List Byte) :
    blobLength (frames ++ [f]) = 25 + 4 * (frames.length + 1) + (frames.map List.length).sum + f.length := by
  simp only [blobLength, Config.containerFixedBytes, List.length_append, List.length_singleton, List.map_append,
    List.map_singleton, List.sum_append, List.sum_singleton]
  omega

section
variable {s : State} {e : Nat} {enc : Enc} {kind : FrameKind} {pixels : List Byte} (hidle : s.work = Work.idle)
  (henc : s.encAt e = some enc) (hgood : enc.Good s.maxPixels) (hopen : enc.mode = .opened)
  (hlen : pixels.length = bufferLength enc.w enc.h enc.ch) (href : kind = .predictive → enc.ref ≠ none)

include hgood hopen hlen href in
theorem Enc.frameUnit_good : (enc.frameUnit e kind pixels).EncodeGood := by
  refine .start (hgood.channels hopen) hlen (fun hkind => ?_) rfl rfl rfl rfl
  obtain rfl : kind = .predictive := hkind
  obtain ⟨r, hr⟩ := Option.ne_none_iff_exists'.1 (href rfl)
  exact ⟨r, hr, hgood.reference r hr⟩

include hidle henc hgood hopen hlen href in
/-- ENC_FRAME codes the whole unit, one pixel a step. -/
theorem run_encFrame_unit : ∃ wk body,
    Host.Core.run core (pixelCount enc.w enc.h + 1) (queue s (.encFrame e kind pixels)) =
      .next { s.drained with work := wk } ∧
    wk.i = wk.npx ∧ wk.Coded s.hash (enc.frameUnit e kind pixels) body := by
  have hissue : step (queue s (.encFrame e kind pixels)) =
      .next { s.drained with work := enc.frameUnit e kind pixels } :=
    (step_queue hidle _).trans (issueEncFrame_starts (s := s.drained) henc hopen hlen href)
  obtain ⟨wk, body, hreach, hi, hcoded⟩ :=
    encode_pixels (s := { s.drained with work := enc.frameUnit e kind pixels }) (n := pixelCount enc.w enc.h)
      (.inr ⟨e, rfl⟩) (Enc.frameUnit_good hgood hopen hlen href) rfl rfl rfl le_rfl
  refine ⟨wk, body, (run_succ_of_next _ hissue).trans hreach, ?_, hcoded⟩
  rw [hi, hcoded.frame]
  rfl

variable {wk : Work} {body : List Byte} (hcoded : wk.Coded s.hash (enc.frameUnit e kind pixels) body)
  (hend : wk.i = wk.npx)

include hcoded in
theorem Work.Coded.frameBytes_eq : wk.frameBytes = kind.tagByte :: body := by
  have hkind : wk.kind = kind := by rw [hcoded.frame]; rfl
  rw [Work.frameBytes_eq, hkind, hcoded.output, Memory.toBytes_ofBytes]

include hidle henc hcoded hend in
/-- The last step of ENC_FRAME: the size of the blob decides between the commit and TOO_LARGE (R255). -/
theorem step_encFrame_commit : step { s.drained with work := wk } =
    if 25 + 4 * (enc.frames.length + 1) + (enc.frames.map List.length).sum + (kind.tagByte :: body).length > 2 ^ 32 - 1
    then .next (answered s (.error ⟨.tooLarge, none⟩))
    else .next (answered (s.putEnc e (some { enc with cache := wk.wcache, ref := some (Memory.ofBytes pixels),
                                                      frames := enc.frames ++ [kind.tagByte :: body] }))
      (.frame (kind.tagByte :: body))) := by
  have hphase : wk.phase = .encFrame e := by rw [hcoded.frame]; rfl
  have hinp : wk.inp = Memory.ofBytes pixels := by rw [hcoded.frame]; rfl
  have henc' : ({ s.drained with work := wk } : State).encAt e = some enc := henc
  rw [step_encFrame_end hphase hend.ge, finishFrame, henc']
  dsimp only
  rw [hcoded.frameBytes_eq, blobLength_append, Config.blobMax, hinp, State.abort, finish_drained hidle]
  split_ifs
  · rfl
  · exact congrArg _ (finish_drained (s := s.putEnc e _) hidle wk _)

/-! ### DEC_FRAME -/

/-- The working registers from which DEC_FRAME decodes a frame on the state the encoder carries (R279). -/
def Enc.tagWork (enc : Enc) (frame : List Byte) : Work :=
  frameWork .perFrame frame 0 enc.w enc.h enc.ch enc.cache enc.ref

theorem map_ofBytes_toBytes {ref : Option Memory} {n : Nat} (h : ∀ r, ref = some r → r.Full n) :
    (ref.map Memory.toBytes).map Memory.ofBytes = ref := by
  cases ref with
  | none => rfl
  | some r =>
    obtain ⟨bs, -, rfl⟩ := h r rfl
    rw [Option.map_some, Option.map_some, Memory.toBytes_ofBytes]

include hgood hopen in
theorem Enc.Good.frameArgumentsLegal : frameArgumentsLegal (enc.ref.map Memory.toBytes) enc.w enc.h enc.ch = true := by
  rw [Machine.frameArgumentsLegal, hgood.channels hopen, Bool.true_and]
  cases hr : enc.ref with
  | none => rfl
  | some r =>
    obtain ⟨bs, hbs, rfl⟩ := hgood.reference r hr
    simpa using hbs

include hidle hgood hopen href hcoded hend in
/-- DEC_FRAME on the frame and the carried state of the encoder gives the pixels and the encoder's cache. -/
theorem run_decFrame_coded : ∃ k,
    Host.Core.run core k
        (queue s (.decFrame enc.cache (enc.ref.map Memory.toBytes) enc.w enc.h enc.ch (kind.tagByte :: body))) =
      .next (answered s (.decodedFrame wk.wcache pixels pixels)) := by
  have hissue : step (queue s (.decFrame enc.cache (enc.ref.map Memory.toBytes) enc.w enc.h enc.ch
      (kind.tagByte :: body))) = .next { s.drained with work := enc.tagWork (kind.tagByte :: body) } := by
    rw [step_queue hidle, issue, issueDecFrame, if_pos (hgood.frameArgumentsLegal hopen),
      map_ofBytes_toBytes hgood.reference]
    rfl
  have hout : [] = Memory.ofBytes ((Memory.ofBytes pixels).toBytes.take (0 * enc.ch.toNat)) := by
    rw [Nat.zero_mul, List.take_zero]
    rfl
  obtain ⟨k, dec, hreach, hphase, hdone, hwcache, hout⟩ := hcoded.decode_frame hend (kind := kind)
    (s := { s.drained with work := enc.tagWork (kind.tagByte :: body) }) rfl rfl rfl href
    ⟨rfl, rfl, rfl, rfl, rfl, rfl, rfl, rfl, hout⟩
  have hinp : wk.inp = Memory.ofBytes pixels := by rw [hcoded.frame]; rfl
  have hcommit : step { s.drained with work := dec } = .next (answered s (.decodedFrame wk.wcache pixels pixels)) := by
    rw [step_frameUnit_end hphase hdone.ge, commitFrame, finish_drained hidle, hwcache, hout, hinp,
      Memory.toBytes_ofBytes]
  refine ⟨k + 1 + 1, ?_⟩
  rw [run_succ_of_next _ hissue, run_add k 1 hreach]
  exact run_succ_of_next 0 hcommit

end

/-- Settles O59: the encoder's walk emits a body that a decoder in its place decodes, so DEC_FRAME, started by the tag
from the same cache and reference, ends with the encoder's cache and pixels. -/
theorem encoderAndDecoderStaySynchronized : Obligations.EncoderAndDecoderStaySynchronized := by
  intro s e enc kind pixels hinv hidle henc hopen hlen href
  have hgood := hinv.enc e enc henc
  obtain ⟨wk, body, hrun, hend, hcoded⟩ := run_encFrame_unit hidle henc hgood hopen hlen href
  obtain ⟨k, hdecode⟩ := run_decFrame_coded hidle hgood hopen href hcoded hend
  have hcommit := step_encFrame_commit hidle henc hcoded hend
  have hnpx : wk.npx = pixelCount enc.w enc.h := by rw [hcoded.frame]; rfl
  have hlength := hcoded.length
  refine ⟨pixelCount enc.w enc.h + 1 + 1, k, kind.tagByte :: body, wk.wcache, ?_, hdecode, fun hfits => ?_,
    fun hbig => ?_⟩
  · rw [List.length_cons]
    omega
  · rw [if_neg (Nat.not_lt.2 hfits)] at hcommit
    rw [run_add _ 1 hrun]
    exact run_succ_of_next 0 hcommit
  · rw [if_pos hbig] at hcommit
    rw [run_add _ 1 hrun]
    exact run_succ_of_next 0 hcommit

end Sys2Proof.Machine
end

section
/-! PROOF. The offset table of a container (R262): which offsets are bad, and that the lowest one is reported. -/

namespace Sys2Proof.Machine

/-- Offset k of a table is bad (R262); `low` is the least value the first offset may have. -/
def BadOffset (len low : Nat) (offs : List Word) (k : Nat) : Prop :=
  ∃ o, offs[k]? = some o ∧ ((k = 0 ∧ o.toNat < low) ∨ (∃ p, 0 < k ∧ offs[k - 1]? = some p ∧ o.toNat ≤ p.toNat) ∨
    (k + 1 = offs.length ∧ len ≤ o.toNat))

section
variable {len low : Nat} {o : Word} {rest : List Word}

theorem not_badOffset_nil (k : Nat) : ¬ BadOffset len low [] k := by
  rintro ⟨o, ho, -⟩
  cases ho

theorem badOffset_cons_zero :
    BadOffset len low (o :: rest) 0 ↔ o.toNat < low ∨ (rest = [] ∧ len ≤ o.toNat) := by
  simp [BadOffset]

/-- Past the first offset a table is checked as the rest of it, whose first offset has to exceed the one before. -/
theorem badOffset_cons_succ (k : Nat) :
    BadOffset len low (o :: rest) (k + 1) ↔ BadOffset len (o.toNat + 1) rest k := by
  cases k with
  | zero => simp [BadOffset, eq_comm (a := 1)]
  | succ k => simp [BadOffset]

end

/-- The check answers the first bad offset of the list, its number counted from k. -/
theorem firstBadOffset_eq_some {len : Nat} {offs : List Word} {k low j : Nat}
    (h : firstBadOffset len k low offs = some j) :
    ∃ i, j = k + i ∧ BadOffset len low offs i ∧ ∀ i' < i, ¬ BadOffset len low offs i' := by
  induction offs generalizing k low with
  | nil => cases h
  | cons o rest ih =>
    rw [firstBadOffset] at h
    split_ifs at h with hbad
    · cases h
      exact ⟨0, rfl, badOffset_cons_zero.2 hbad, fun _ hlt => absurd hlt (Nat.not_lt_zero _)⟩
    · obtain ⟨i, hj, hi, hmin⟩ := ih h
      refine ⟨i + 1, by omega, (badOffset_cons_succ i).2 hi, fun i' hlt => ?_⟩
      cases i' with
      | zero => rwa [badOffset_cons_zero]
      | succ i' =>
        rw [badOffset_cons_succ]
        exact hmin i' (Nat.lt_of_succ_lt_succ hlt)

theorem not_badOffset_of_firstBadOffset_eq_none {len : Nat} {offs : List Word} {k low : Nat}
    (h : firstBadOffset len k low offs = none) (i : Nat) : ¬ BadOffset len low offs i := by
  induction offs generalizing k low i with
  | nil => exact not_badOffset_nil i
  | cons o rest ih =>
    rw [firstBadOffset] at h
    split_ifs at h with hbad
    cases i with
    | zero => rwa [badOffset_cons_zero]
    | succ i =>
      rw [badOffset_cons_succ]
      exact ih h i

/-- Settles O26: the check walks the table from offset 0 and stops at the first bad one. -/
theorem lowestBadOffsetIsReported : Obligations.LowestBadOffsetIsReported := by
  intro len hs offs
  refine ⟨fun k hk => ?_, fun hnone => not_badOffset_of_firstBadOffset_eq_none hnone⟩
  obtain ⟨i, rfl, hbad, hmin⟩ := firstBadOffset_eq_some hk
  rw [Nat.zero_add]
  exact ⟨hbad, hmin⟩

end Sys2Proof.Machine
end

section
/-! PROOF. The container header (R260 to R263, R313): its checks in their order, the session it opens, and the bytes it
is read from. -/

namespace Sys2Proof.Machine

/-! ### The header token -/

section
variable {s : State} {d : Nat} {src : Source} {hs w h fr : Word} {ch : Byte} {n : Word} {offs : List Word}
  (hphase : s.work.phase = .containerHeader d src)
include hphase

theorem execQov1_small (hsmall : hs.toNat < 25) :
    execQov1 hs w h fr ch n offs s = .next (s.abort .badHeaderSize (some 4)) := by
  simp only [execQov1, hphase, Config.containerFixedBytes, if_pos hsmall]

theorem execQov1_badChannels (hle : 25 ≤ hs.toNat) (hch : ch ≠ 3) (hch' : ch ≠ 4) :
    execQov1 hs w h fr ch n offs s = .next (s.abort .badChannels (some 20)) := by
  simp only [execQov1, hphase, Config.containerFixedBytes, if_neg (Nat.not_lt.2 hle),
    if_pos (channelsLegal_eq_false_iff.2 ⟨hch, hch'⟩)]

variable (hch : ch = 3 ∨ ch = 4)
include hch

theorem execQov1_badHeaderSize (hsize : hs.toNat ≠ 25 + 4 * n.toNat) :
    execQov1 hs w h fr ch n offs s = .next (s.abort .badHeaderSize (some 4)) := by
  simp [execQov1, hphase, Config.containerFixedBytes, channelsLegal_iff.2 hch, hsize]

variable (hsize : hs.toNat = 25 + 4 * n.toNat)
include hsize

theorem execQov1_badOffsets {k : Nat} (hbad : firstBadOffset src.len 0 hs.toNat offs = some k) :
    execQov1 hs w h fr ch n offs s = .next (s.abort .badOffsets (some (25 + 4 * k))) := by
  simp [execQov1, hphase, Config.containerFixedBytes, channelsLegal_iff.2 hch, hsize, hsize ▸ hbad]

variable (hvalid : firstBadOffset src.len 0 hs.toNat offs = none)
include hvalid

theorem execQov1_tooLarge (hbig : s.maxPixels < pixelCount w h) :
    execQov1 hs w h fr ch n offs s = .next (s.abort .tooLarge none) := by
  simp [execQov1, hphase, Config.containerFixedBytes, channelsLegal_iff.2 hch, hsize, hsize ▸ hvalid, hbig]

/-- The commit of R263. -/
theorem execQov1_opens {before : Dec} (hdec : s.decAt d = some before) (hle : pixelCount w h ≤ s.maxPixels) :
    execQov1 hs w h fr ch n offs s =
      .next ((s.putDec d (some { mode := .opened, w := w, h := h, ch := ch, fr := fr, n := n, hs := hs, off := offs,
                                 len := src.len, src := some src, next := 0, cache := Cache.zero, ref := none })).finish
        (.opened w h ch fr n)) := by
  simp [execQov1, hphase, Config.containerFixedBytes, channelsLegal_iff.2 hch, hsize, hsize ▸ hvalid,
    Nat.not_lt.2 hle, hdec]

end

/-- Settles O24: every check is passed, so the header token commits the session. -/
theorem containerHeaderOpensTheSession : Obligations.ContainerHeaderOpensTheSession :=
  fun _ _ _ _ _ _ _ _ _ _ _ hphase hdec hsize hch hvalid hle =>
    ⟨_, rfl, rfl, execQov1_opens hphase hch hsize hvalid hdec hle⟩

/-! ### The bytes of the two reads -/

section
variable {b1 b2 : List Byte}

theorem decodeContainerHeader_short (hlen : b1.length < 8) :
    decodeContainerHeader b1 b2 = .error (.truncatedHeader b1.length) := if_pos hlen

theorem decodeContainerHeader_badMagic (hlen : 8 ≤ b1.length) (hmagic : b1.take 4 ≠ magicQov1) :
    decodeContainerHeader b1 b2 = .error .badMagic := (if_neg (Nat.not_lt.2 hlen)).trans (if_pos hmagic)

variable (hlen : 8 ≤ b1.length) (hmagic : b1.take 4 = magicQov1)
include hlen hmagic

theorem decodeContainerHeader_small (hsmall : (u32At b1 4).toNat < 25) :
    decodeContainerHeader b1 b2 = .ok (.qov1 (u32At b1 4) 0 0 0 0 0 []) :=
  (if_neg (Nat.not_lt.2 hlen)).trans ((if_neg (not_not.2 hmagic)).trans (if_pos hsmall))

variable (hle : 25 ≤ (u32At b1 4).toNat)
include hle

theorem decodeContainerHeader_truncatedTable (hshort : b2.length < (u32At b1 4).toNat) :
    decodeContainerHeader b1 b2 = .error (.truncatedTable b2.length) :=
  (if_neg (Nat.not_lt.2 hlen)).trans ((if_neg (not_not.2 hmagic)).trans ((if_neg (Nat.not_lt.2 hle)).trans
    (if_pos hshort)))

theorem decodeContainerHeader_fields (hwhole : (u32At b1 4).toNat ≤ b2.length) :
    decodeContainerHeader b1 b2 = .ok (.qov1 (u32At b1 4) (u32At b2 8) (u32At b2 12) (u32At b2 16) (b2.getD 20 0)
      (u32At b2 21) (offsetTable b2 (u32At b1 4).toNat)) :=
  (if_neg (Nat.not_lt.2 hlen)).trans ((if_neg (not_not.2 hmagic)).trans ((if_neg (Nat.not_lt.2 hle)).trans
    (if_neg (Nat.not_lt.2 hwhole))))

end

/-- The table of a header of 25 + 4N bytes holds the N big-endian words that follow the fixed part (R230). -/
theorem offsetTable_eq {bs : List Byte} {offs : List Word}
    (hoffs : ∀ k < offs.length, offs[k]? = some (u32At bs (25 + 4 * k))) :
    offsetTable bs (25 + 4 * offs.length) = offs := by
  refine List.ext_getElem (by simp [offsetTable, Config.containerFixedBytes]) fun k _ hk => ?_
  have hentry := hoffs k hk
  rw [List.getElem?_eq_getElem hk, Option.some_inj] at hentry
  simp [offsetTable, Config.containerFixedBytes, hentry]

section
variable {s : State} {d : Nat} {src : Source} {b2 : List Byte} (hphase : s.work.phase = .containerHeader d src)
  (hinp : s.work.inp = Memory.ofBytes b2)
include hphase hinp

theorem Work.fetch_container : s.work.fetch = some (decodeContainerHeader s.work.pre b2) := by
  rw [Work.fetch_containerHeader hphase, hinp, Memory.toBytes_ofBytes]

/-- The bytes that cannot be read as a header abort the command. -/
theorem step_container_error {e : DecodeError} (hdecode : decodeContainerHeader s.work.pre b2 = .error e) :
    step s = .next (s.finish (.error (s.work.fetchError e))) := by
  rw [step_containerHeader hphase, tokenStep_of_fetch_error (by rw [Work.fetch_container hphase hinp, hdecode])]

theorem step_container_token {i : Instr} (hdecode : decodeContainerHeader s.work.pre b2 = .ok i) :
    step s = exec i s := by
  rw [step_containerHeader hphase, tokenStep_of_fetch_ok (by rw [Work.fetch_container hphase hinp, hdecode])]

end

/-- Settles O25: the bytes of the reads that cannot be read as a header abort the command, and the others run the header
token, whose checks follow. -/
theorem containerHeaderChecksComeInOrder : Obligations.ContainerHeaderChecksComeInOrder := by
  rintro s d src b1 b2 hphase rfl hinp
  have herror {e : DecodeError} := step_container_error hphase hinp (e := e)
  have htoken {i : Instr} := step_container_token hphase hinp (i := i)
  refine ⟨fun hlen => herror (decodeContainerHeader_short hlen),
    fun hlen hmagic => herror (decodeContainerHeader_badMagic hlen hmagic), ?_⟩
  rintro hlen hmagic _ rfl
  refine ⟨fun hsmall => ?_, fun hle hshort => herror (decodeContainerHeader_truncatedTable hlen hmagic hle hshort), ?_⟩
  · rw [htoken (decodeContainerHeader_small hlen hmagic hsmall), exec]
    exact execQov1_small hphase hsmall
  · intro hle hwhole ch h20
    have hstep := htoken (decodeContainerHeader_fields hlen hmagic hle hwhole)
    rw [List.getD_eq_getElem?_getD, h20, Option.getD_some] at hstep
    rw [hstep]
    refine ⟨execQov1_badChannels hphase hle, execQov1_badHeaderSize hphase, fun hch hsize offs hcount hoffs => ?_⟩
    have htable : offsetTable b2 (u32At s.work.pre 4).toNat = offs := by rw [hsize, ← hcount, offsetTable_eq hoffs]
    rw [htable]
    exact ⟨fun _ => execQov1_badOffsets hphase hch hsize, execQov1_tooLarge hphase hch hsize, fun _ _ => rfl⟩

end Sys2Proof.Machine
end

section
/-! PROOF. The encoder's session (R250 to R254): how it begins, how a frame is started and committed, and what ends it. -/

namespace Sys2Proof.Machine

theorem Enc.isOpen_of_mode {enc : Enc} (hopen : enc.mode = .opened) : ¬ enc.isOpen = false := by
  simp [Enc.isOpen, hopen]

theorem Enc.not_isOpen_of_mode {enc : Enc} (hidle : enc.mode = .idle) : enc.isOpen = false := by
  simp [Enc.isOpen, hidle]

/-- Settles O36: the checks are the conditions of the command in their order, and the session open before is not read. -/
theorem encBeginOpensASession : Obligations.EncBeginOpensASession := by
  intro s e before w h ch fr henc
  rw [issue, issueEncBegin, State.onEnc_some henc]
  refine ⟨fun hch hch' => if_pos (channelsLegal_eq_false_iff.2 ⟨hch, hch'⟩), fun hch hbig => ?_, fun hch hle => ?_⟩
  · rw [channelsLegal_iff.2 hch]
    exact if_pos hbig
  · rw [channelsLegal_iff.2 hch]
    exact if_neg (Nat.not_lt.2 hle)

/-- Settles O37: with both checks passed the unit starts from the cache and the reference of its kind. -/
theorem encFrameChecksAndStarts : Obligations.EncFrameChecksAndStarts := by
  intro s e enc pixels henc
  refine ⟨fun kind hidle => ?_, fun kind hopen hlen => ?_,
    fun hopen hlen => issueEncFrame_starts henc hopen hlen nofun, fun r hopen hlen hr => ?_⟩
  · rw [issue, issueEncFrame, State.onEnc_some henc, if_pos (Enc.not_isOpen_of_mode hidle)]
  · rw [issue, issueEncFrame, State.onEnc_some henc, if_neg (Enc.isOpen_of_mode hopen), if_pos hlen]
  · rw [issue, issueEncFrame_starts henc hopen hlen fun _ hnone => Option.some_ne_none r (hr.symm.trans hnone), ← hr]
    rfl

/-- Settles O33: the last step decides by the length of the blob with the frame in it. -/
theorem encodedFrameCommits : Obligations.EncodedFrameCommits := by
  intro s e enc body frame hphase henc hend hout hkind
  have hframe : s.work.frameBytes = frame := by
    rw [Work.frameBytes_eq, hout, Memory.toBytes_ofBytes]
    obtain ⟨hk, rfl⟩ | ⟨hk, rfl⟩ := hkind <;> rw [hk] <;> rfl
  rw [step_encFrame_end hphase hend, finishFrame, henc]
  dsimp only
  rw [hframe, blobLength_append]
  exact ⟨fun hbig => if_pos hbig, fun hfits => if_neg (Nat.not_lt.2 hfits)⟩

/-- Settles O38: the one step of an open session returns its blob. -/
theorem encFlushReturnsTheBlobAndResets : Obligations.EncFlushReturnsTheBlobAndResets := by
  intro s e enc henc
  rw [issue, issueEncFlush, State.onEnc_some henc]
  exact ⟨fun hidle => if_pos (Enc.not_isOpen_of_mode hidle), fun hopen => if_neg (Enc.isOpen_of_mode hopen)⟩

end Sys2Proof.Machine
end

section
/-! PROOF. The blob (R230, R234, R253): the fields of the container header at their positions, the offset table, and each
frame at its offset. -/

namespace Sys2Proof.Machine

/-! ### Big-endian words -/

theorem ofBe32_be32 (v : Word) :
    ofBe32 (v.extractLsb' 24 8) (v.extractLsb' 16 8) (v.extractLsb' 8 8) (v.extractLsb' 0 8) = v := by
  rw [ofBe32, BitVec.extractLsb'_append_extractLsb'_eq_extractLsb' (by rfl),
    BitVec.extractLsb'_append_extractLsb'_eq_extractLsb' (by rfl),
    BitVec.extractLsb'_append_extractLsb'_eq_extractLsb' (by rfl)]
  exact BitVec.extractLsb'_eq_self

theorem u32At_be32_append (v : Word) (bs : List Byte) : u32At (be32 v ++ bs) 0 = v := ofBe32_be32 v

theorem u32At_append (pre bs : List Byte) (p : Nat) : u32At (pre ++ bs) (pre.length + p) = u32At bs p := by
  simp [u32At, Nat.add_assoc, List.getElem?_append_right]

/-- Entry k of a table of big-endian words stands at position 4k. -/
theorem u32At_flatMap_be32 {offs : List Word} {k : Nat} {o : Word} (hk : offs[k]? = some o) (bs : List Byte) :
    u32At (offs.flatMap be32 ++ bs) (4 * k) = o := by
  induction offs generalizing k with
  | nil => cases hk
  | cons v offs ih =>
    rw [List.flatMap_cons, List.append_assoc]
    cases k with
    | zero =>
      rw [List.getElem?_cons_zero, Option.some_inj] at hk
      rw [Nat.mul_zero, u32At_be32_append, hk]
    | succ k =>
      rw [show 4 * (k + 1) = (be32 v).length + 4 * k from Nat.add_comm (4 * k) 4, u32At_append]
      exact ih hk

/-! ### The fields of the container header -/

section
variable (hs w h fr : Word) (ch : Byte) (n : Word) (offs : List Word) (bs : List Byte)

theorem take_encode_qov1 : (encode (.qov1 hs w h fr ch n offs) ++ bs).take 4 = magicQov1 := rfl

theorem u32At_encode_qov1_headerSize : u32At (encode (.qov1 hs w h fr ch n offs) ++ bs) 4 = hs := ofBe32_be32 hs

theorem u32At_encode_qov1_width : u32At (encode (.qov1 hs w h fr ch n offs) ++ bs) 8 = w := ofBe32_be32 w

theorem u32At_encode_qov1_height : u32At (encode (.qov1 hs w h fr ch n offs) ++ bs) 12 = h := ofBe32_be32 h

theorem u32At_encode_qov1_frameRate : u32At (encode (.qov1 hs w h fr ch n offs) ++ bs) 16 = fr := ofBe32_be32 fr

theorem getElem?_encode_qov1_channels : (encode (.qov1 hs w h fr ch n offs) ++ bs)[20]? = some ch := rfl

theorem u32At_encode_qov1_frameCount : u32At (encode (.qov1 hs w h fr ch n offs) ++ bs) 21 = n := ofBe32_be32 n

theorem u32At_encode_qov1_offset {k : Nat} {o : Word} (hk : offs[k]? = some o) :
    u32At (encode (.qov1 hs w h fr ch n offs) ++ bs) (25 + 4 * k) = o := by
  rw [encode, List.append_assoc]
  exact (u32At_append (magicQov1 ++ be32 hs ++ be32 w ++ be32 h ++ be32 fr ++ [ch] ++ be32 n) _ (4 * k)).trans
    (u32At_flatMap_be32 hk bs)

end

/-! ### The frames and their offsets -/

theorem length_frameOffsets (o : Nat) (frames : List (List Byte)) : (frameOffsets o frames).length = frames.length := by
  induction frames generalizing o with
  | nil => rfl
  | cons f frames ih => rw [frameOffsets, List.length_cons, ih, List.length_cons]

theorem getElem?_frameOffsets (o : Nat) {frames : List (List Byte)} {k : Nat} (hk : k < frames.length) :
    (frameOffsets o frames)[k]? = some (BitVec.ofNat 32 (o + ((frames.take k).map List.length).sum)) := by
  induction frames generalizing o k with
  | nil => cases hk
  | cons f frames ih =>
    cases k with
    | zero => rfl
    | succ k =>
      rw [frameOffsets, List.getElem?_cons_succ, ih _ (Nat.lt_of_succ_lt_succ hk), List.take_succ_cons, List.map_cons,
        List.sum_cons, Nat.add_assoc]

/-- In the frames laid one after another, frame k follows the frames before it. -/
theorem take_drop_flatten {frames : List (List Byte)} {k : Nat} {f : List Byte} (hk : frames[k]? = some f) :
    (frames.flatten.drop ((frames.take k).map List.length).sum).take f.length = f := by
  obtain ⟨hlt, rfl⟩ := List.getElem?_eq_some_iff.1 hk
  rw [List.map_take, List.drop_sum_flatten, List.drop_eq_getElem_cons hlt, List.flatten_cons, List.take_left]

theorem sum_take_length_le (frames : List (List Byte)) (k : Nat) :
    ((frames.take k).map List.length).sum ≤ (frames.map List.length).sum :=
  ((List.take_sublist k frames).map _).sum_le_sum (fun _ _ => Nat.zero_le _)

theorem headerSize_eq (n : Nat) : headerSize n = 25 + 4 * n := rfl

theorem length_encode_header (enc : Enc) : (encode enc.header).length = 25 + 4 * enc.frames.length := by
  rw [Enc.header, Laws.EncodedSize.qov1, Instr.size, length_frameOffsets]
  rfl

theorem Enc.length_blob (enc : Enc) : enc.blob.length = blobLength enc.frames := by
  rw [Enc.blob, List.length_append, length_encode_header, List.length_flatten]
  rfl

/-- Settles O39: the blob is the header token and the frames, and its length, which 32 bits hold, bounds every number
written in it. -/
theorem blobHoldsHeaderTableAndFrames : Obligations.BlobHoldsHeaderTableAndFrames := by
  intro e m hgood _
  have hblob : 25 + 4 * e.frames.length + (e.frames.map List.length).sum < 2 ^ 32 :=
    Nat.lt_succ_of_le hgood.blob
  refine ⟨e.length_blob, take_encode_qov1 .., ?_, u32At_encode_qov1_width .., u32At_encode_qov1_height ..,
    u32At_encode_qov1_frameRate .., getElem?_encode_qov1_channels .., ?_, fun k f hk => ⟨_, rfl, ?_, ?_⟩⟩
  · rw [Enc.blob, Enc.header, u32At_encode_qov1_headerSize, BitVec.toNat_ofNat]
    exact Nat.mod_eq_of_lt (by rw [headerSize_eq]; omega)
  · rw [Enc.blob, Enc.header, u32At_encode_qov1_frameCount, BitVec.toNat_ofNat]
    exact Nat.mod_eq_of_lt (by omega)
  · have hlt : k < e.frames.length := (List.getElem?_eq_some_iff.1 hk).1
    have hsum := sum_take_length_le e.frames k
    rw [Enc.blob, Enc.header, u32At_encode_qov1_offset _ _ _ _ _ _ _ _ (getElem?_frameOffsets _ hlt),
      BitVec.toNat_ofNat]
    exact Nat.mod_eq_of_lt (by rw [headerSize_eq]; omega)
  · rw [Enc.blob, ← length_encode_header, List.drop_length_add_append]
    exact take_drop_flatten hk

end Sys2Proof.Machine
end

section
/-! PROOF. The start of DEC_OPEN (R260, R330): its two reads, each from the source or from a queued reply. -/

namespace Sys2Proof.Machine

/-- A queued reply is taken in place of the bytes of the source (V3). -/
theorem State.readPrefix_reply {s : State} {reply : List Byte} {rest : List (List Byte)}
    (hreply : s.io.replies = reply :: rest) (src : Source) (n : Nat) :
    s.readPrefix src n = (reply, { s with io := { s.io with replies := rest } }) := by
  simp only [State.readPrefix, hreply]

theorem phase2Size_none {b1 : List Byte} (h : b1.length < 8 ∨ b1.take 4 ≠ magicQov1 ∨ (u32At b1 4).toNat < 25) :
    phase2Size b1 = none := by
  refine if_neg ?_
  rintro ⟨hlen, hmagic, hle⟩
  exact h.elim (Nat.not_lt.2 hlen) fun h => h.elim (· hmagic) (Nat.not_lt.2 hle)

theorem phase2Size_some {b1 : List Byte} (hlen : 8 ≤ b1.length) (hmagic : b1.take 4 = magicQov1)
    (hle : 25 ≤ (u32At b1 4).toNat) : phase2Size b1 = some (u32At b1 4).toNat := if_pos ⟨hlen, hmagic, hle⟩

section
variable {s s1 s2 : State} {d : Nat} {before : Dec} {src : Source} {b1 b2 : List Byte}
  (hdec : s.decAt d = some before) (hread : s.readPrefix src 8 = (b1, s1))
include hdec hread

/-- Bytes that fail phase 1 are the only ones read. -/
theorem issueDecOpen_one_read (h : b1.length < 8 ∨ b1.take 4 ≠ magicQov1 ∨ (u32At b1 4).toNat < 25) :
    issueDecOpen d src s =
      .next { s1 with work := { Work.idle with phase := .containerHeader d src, pre := b1 } } := by
  simp only [issueDecOpen, State.onDec_some hdec, hread, phase2Size_none h]

theorem issueDecOpen_two_reads (hlen : 8 ≤ b1.length) (hmagic : b1.take 4 = magicQov1)
    (hle : 25 ≤ (u32At b1 4).toNat) (hread2 : s1.readPrefix src (u32At b1 4).toNat = (b2, s2)) :
    issueDecOpen d src s =
      .next { s2 with work := { Work.idle with phase := .containerHeader d src, pre := b1,
                                               inp := Memory.ofBytes b2 } } := by
  simp only [issueDecOpen, State.onDec_some hdec, hread, phase2Size_some hlen hmagic hle, hread2]

end

/-- Settles O40: the bytes of the first read decide whether there is a second, and each read takes the oldest reply
queued, or with none queued the first bytes of the source. -/
theorem decOpenReadsInTwoPhases : Obligations.DecOpenReadsInTwoPhases := by
  intro s d before src hdec
  refine ⟨fun hnone => ?_, fun b1 rest hreply => ?_⟩
  · have hread := State.readPrefix_stable hnone src
    have htake : (src.bytes.take 8).take 4 = src.bytes.take 4 := by rw [List.take_take]; rfl
    have hlength : 8 ≤ (src.bytes.take 8).length ↔ 8 ≤ src.bytes.length := by rw [List.length_take]; omega
    refine ⟨fun hfail => issueDecOpen_one_read hdec (hread 8) ?_, fun hlen hmagic hle =>
      issueDecOpen_two_reads hdec (hread 8) (hlength.2 hlen) (htake.trans hmagic) hle (hread _)⟩
    rwa [← Nat.not_le, hlength, htake, Nat.not_le]
  · have hread := State.readPrefix_reply hreply src 8
    refine ⟨issueDecOpen_one_read hdec hread, fun hlen hmagic hle => ⟨?_, ?_⟩⟩
    · rintro rfl
      exact issueDecOpen_two_reads hdec hread hlen hmagic hle (State.readPrefix_stable rfl src _)
    · rintro b2 rest' rfl
      exact issueDecOpen_two_reads hdec hread hlen hmagic hle (State.readPrefix_reply rfl src _)

end Sys2Proof.Machine
end

section
/-! PROOF. The decoder's session after DEC_OPEN (R271 to R276, R235): the fetch of the next frame's span, and the
restart that puts a session back where its DEC_OPEN left it (R344). -/

namespace Sys2Proof.Machine

theorem Dec.isOpen_of_mode {dec : Dec} (hopen : dec.mode = .opened) : ¬ dec.isOpen = false := by
  simp [Dec.isOpen, hopen]

theorem Dec.not_isOpen_of_mode {dec : Dec} (hclosed : dec.mode = .closed) : dec.isOpen = false := by
  simp [Dec.isOpen, hclosed]

/-! ### The span of a frame -/

section
variable {dec : Dec}

theorem Dec.isExhausted_of_eq (hopen : dec.mode = .opened) (hend : dec.next = dec.n) : dec.isExhausted = true := by
  simp [Dec.isExhausted, Dec.isOpen, hopen, hend]

theorem Dec.not_isExhausted_of_lt (hleft : dec.next.toNat < dec.n.toNat) : ¬ dec.isExhausted = true := by
  intro h
  rw [Dec.isExhausted, Bool.and_eq_true, beq_iff_eq] at h
  exact hleft.ne (congrArg BitVec.toNat h.2)

theorem Dec.spanEnd_of_offset {k : Nat} {o : Word} (hlt : k + 1 < dec.n.toNat) (ho : dec.off[k + 1]? = some o) :
    dec.spanEnd k = some o.toNat := (if_pos hlt).trans (by rw [ho, Option.map_some])

theorem Dec.spanEnd_of_last {k : Nat} (hlast : k + 1 = dec.n.toNat) : dec.spanEnd k = some dec.len :=
  if_neg hlast.not_lt

end

/-- A queued reply is taken in place of the bytes of the source (V3). -/
theorem State.readRange_reply {s : State} {reply : List Byte} {rest : List (List Byte)}
    (hreply : s.io.replies = reply :: rest) (src : Source) (a b : Nat) :
    s.readRange src a b = (reply, { s with io := { s.io with replies := rest } }) := by
  simp only [State.readRange, hreply]

theorem length_range (bs : List Byte) (a b : Nat) : ((bs.drop a).take (b - a)).length = min b bs.length - a := by
  rw [List.length_take, List.length_drop, Nat.sub_min_sub_right]

/-- An open session with a frame left reads that frame's span once, and the bytes read decide: too few abort the
command, and enough of them start the frame (R271, R272). -/
theorem issueDecNext_fetch {s s1 : State} {d : Nat} {dec : Dec} {src : Source} {a : Word} {b : Nat}
    {frame : List Byte} (hdec : s.decAt d = some dec) (hopen : dec.mode = .opened)
    (hleft : dec.next.toNat < dec.n.toNat) (hsrc : dec.src = some src) (hstart : dec.off[dec.next.toNat]? = some a)
    (hend : dec.spanEnd dec.next.toNat = some b) (hread : s.readRange src a.toNat b = (frame, s1)) :
    issueDecNext d s =
      if frame.length < b - a.toNat then .next (s1.abort .truncatedStream (some (a.toNat + frame.length)))
      else .next { s1 with work := frameWork (.session d) frame a.toNat dec.w dec.h dec.ch dec.cache dec.ref } := by
  rw [issueDecNext, State.onDec_some hdec, if_neg (Dec.isOpen_of_mode hopen), if_neg (Dec.not_isExhausted_of_lt hleft)]
  simp only [hsrc, hstart, hend, hread]

/-- Settles O41: the checks are the conditions of the command in their order, and the one read takes the oldest reply
queued, or with none queued the span of the source. -/
theorem decNextFetchesTheFrameSpan : Obligations.DecNextFetchesTheFrameSpan := by
  intro s d dec hdec
  refine ⟨fun hclosed => ?_, fun hopen hend => ?_, fun src a b hopen hleft hsrc hstart hspan => ?_⟩
  · rw [issue, issueDecNext, State.onDec_some hdec, if_pos (Dec.not_isOpen_of_mode hclosed)]
  · rw [issue, issueDecNext, State.onDec_some hdec, if_neg (Dec.isOpen_of_mode hopen),
      if_pos (Dec.isExhausted_of_eq hopen hend)]
  have hend : dec.spanEnd dec.next.toNat = some b := by
    obtain ⟨hlt, o, ho, rfl⟩ | ⟨hlast, rfl⟩ := hspan
    · exact Dec.spanEnd_of_offset hlt ho
    · exact Dec.spanEnd_of_last hlast
  refine ⟨fun hnone => ?_, fun frame rest hreply => ?_⟩
  · rw [issue, issueDecNext_fetch hdec hopen hleft hsrc hstart hend (State.readRange_stable hnone src a.toNat b),
      length_range]
    refine ⟨fun hshort => if_pos hshort, fun hwhole => if_neg ?_⟩
    rw [Nat.min_eq_left hwhole]
    exact lt_irrefl _
  · rw [issue, issueDecNext_fetch hdec hopen hleft hsrc hstart hend (State.readRange_reply hreply src a.toNat b)]
    exact ⟨fun hshort => if_pos hshort, fun hwhole => if_neg (Nat.not_lt.2 hwhole)⟩

/-! ### The restart -/

theorem issueDecRestart_opened {s : State} {d : Nat} {dec : Dec} (hdec : s.decAt d = some dec)
    (hopen : dec.mode = .opened) :
    issueDecRestart d s =
      .next ((s.putDec d (some { dec with next := 0, cache := Cache.zero, ref := none })).finish .ok) := by
  rw [issueDecRestart, State.onDec_some hdec, if_neg (Dec.isOpen_of_mode hopen)]

theorem State.decAt_putDec_self {s : State} {d : Nat} {dec : Dec} (hdec : s.decAt d = some dec) (x : Option Dec) :
    (s.putDec d x).decAt d = x := by
  rw [State.decAt_putDec, if_pos ⟨rfl, State.decAt_lt hdec⟩]

/-- The decoder stands where a DEC_OPEN leaves it: open, frame 0 next, and nothing carried (R263, R344). -/
def Dec.JustOpened (dec : Dec) : Prop :=
  dec.mode = .opened ∧ dec.next = 0 ∧ dec.cache = Cache.zero ∧ dec.ref = none

theorem State.abort_results_ne_opened (s : State) {code : ErrorCode} {info : Option Nat} {w h : Word} {ch : Byte}
    {fr n : Word} : (s.abort code info).io.results ≠ s.io.results ++ [.opened w h ch fr n] := by
  simp

/-- A container header that answers with the session's header has committed that session: every other end of the
command is an abort (R260, R263). -/
theorem execQov1_justOpened {s : State} {d : Nat} {src : Source} (hphase : s.work.phase = .containerHeader d src)
    (hs w h fr : Word) (ch : Byte) (n : Word) (offs : List Word) :
    Ensures (fun t => t.io.results = s.io.results ++ [.opened w h ch fr n] →
      ∃ opened, t.decAt d = some opened ∧ opened.JustOpened) (execQov1 hs w h fr ch n offs s) := by
  simp only [execQov1, hphase]
  refine ensures_ite (fun _ => s.abort_results_ne_opened.elim) fun _ =>
    ensures_ite (fun _ => s.abort_results_ne_opened.elim) fun _ =>
    ensures_ite (fun _ => s.abort_results_ne_opened.elim) fun _ => ?_
  split
  · exact s.abort_results_ne_opened.elim
  refine ensures_ite (fun _ => s.abort_results_ne_opened.elim) fun _ => ?_
  split
  case h_1 => trivial
  case h_2 before hdec => exact fun _ => ⟨_, State.decAt_putDec_self hdec _, rfl, rfl, rfl, rfl⟩

theorem Dec.JustOpened.restarted {opened : Dec} (hopened : opened.JustOpened) :
    { opened with next := 0, cache := Cache.zero, ref := none } = opened := by
  obtain ⟨-, hnext, hcache, href⟩ := hopened
  rw [← hnext, ← hcache, ← href]

/-- Settles O42: a restart of an open session writes NEXT, cache and reference, and these are the three elements in
which the session may differ from the one its header committed. -/
theorem decRestartReturnsToFresh : Obligations.DecRestartReturnsToFresh := by
  refine ⟨fun s d dec hdec => ⟨fun hclosed => ?_, issueDecRestart_opened hdec⟩,
    fun s t d src hs w h fr ch n offs hphase hexec hresult => ?_⟩
  · rw [issue, issueDecRestart, State.onDec_some hdec, if_pos (Dec.not_isOpen_of_mode hclosed)]
  · have hopens := execQov1_justOpened hphase hs w h fr ch n offs
    rw [show execQov1 hs w h fr ch n offs s = .next t from hexec] at hopens
    obtain ⟨opened, hopened, hjust⟩ := hopens hresult
    refine ⟨opened, hopened, fun u next cache ref hdec => ⟨_, issueDecRestart_opened hdec hjust.1, ?_⟩⟩
    rw [State.decAt_finish, State.decAt_putDec_self hdec]
    exact congrArg some hjust.restarted

end Sys2Proof.Machine
end

section
/-! PROOF. The start of DEC_FRAME (R279): its arguments are the carried state, and those that are not well formed are
refused (V4). -/

namespace Sys2Proof.Machine

theorem frameArgumentsLegal_iff {ref : Option (List Byte)} {w h : Word} {ch : Byte} :
    frameArgumentsLegal ref w h ch = true ↔
      (ch = 3 ∨ ch = 4) ∧ ∀ r, ref = some r → r.length = bufferLength w h ch := by
  simp only [frameArgumentsLegal, Bool.and_eq_true, channelsLegal_iff, Option.all_eq_true, beq_iff_eq]

/-- Settles O43: the command takes its arguments exactly where they are well formed. -/
theorem decFrameTakesItsOwnState : Obligations.DecFrameTakesItsOwnState := by
  intro s cache w h ch frame
  refine ⟨fun ref hch hch' => if_neg fun hlegal => (frameArgumentsLegal_iff.1 hlegal).1.elim hch hch',
    fun r hlen => if_neg fun hlegal => hlen ((frameArgumentsLegal_iff.1 hlegal).2 r rfl),
    fun hch => if_pos ((frameArgumentsLegal_iff (ref := none)).2 ⟨hch, nofun⟩),
    fun r hch hlen => if_pos (frameArgumentsLegal_iff.2 ⟨hch, ?_⟩)⟩
  rintro _ ⟨⟩
  exact hlen

end Sys2Proof.Machine
end

section
/-! PROOF. The abort (R310): a step that returns an error is the last of its command and leaves every encoder and
decoder as it is. -/

namespace Sys2Proof.Machine

section
variable {s t : State}

/-- A host action that issues no command returns no result. -/
theorem hostStep_results (hno : ¬ ∃ c rest, s.io.pending = .issue c :: rest) :
    Ensures (fun u => u.io.results = s.io.results) (hostStep s) := by
  unfold hostStep
  cases hpending : s.io.pending with
  | nil => rfl
  | cons action rest =>
    cases action with
    | issue c => exact absurd ⟨c, rest, hpending⟩ hno
    | newEncoder => rfl
    | newDecoder => rfl
    | discardEncoder e => exact ensures_onEnc fun _ _ => rfl
    | discardDecoder d => exact ensures_onDec fun _ _ => rfl

/-- Where a step comes from: a command in progress, a command just issued, or a host action that returns no result. -/
theorem step_cases (h : step s = .next t) :
    (s.work.phase ≠ .idle ∧ CommandStep s t) ∨
    (∃ c rest, s.work.phase = .idle ∧ s.io.pending = .issue c :: rest ∧
      issue c { s with io := { s.io with pending := rest } } = .next t) ∨
    t.io.results = s.io.results := by
  by_cases hphase : s.work.phase = .idle
  case neg => exact .inl ⟨hphase, step_commandStep hphase h⟩
  by_cases hissue : ∃ c rest, s.io.pending = .issue c :: rest
  · obtain ⟨c, rest, hpending⟩ := hissue
    exact .inr (.inl ⟨c, rest, hphase, hpending, (step_issue hphase hpending).symm.trans h⟩)
  · have hresults := hostStep_results hissue
    rw [← step_idle hphase, h] at hresults
    exact .inr (.inr hresults)

/-- A step of a command that returns an error ends the command and writes no encoder or decoder (R310). -/
theorem CommandStep.unchanged_of_error {e : ErrorRec} (h : CommandStep s t)
    (herr : t.io.results = s.io.results ++ [.error e]) :
    t.encs = s.encs ∧ t.decs = s.decs ∧ t.work = Work.idle := by
  cases h with
  | goesOn wk replies => simp at herr
  | returns r replies => exact ⟨rfl, rfl, rfl⟩
  | commits encs decs r hr => exact absurd (by simpa using herr) (hr e)

end

/-- Settles O45: an error is returned by a `CommandStep`, of a command in progress or just issued, and never by one that
commits. -/
theorem errorsChangeNoInstanceState : Obligations.ErrorsChangeNoInstanceState := by
  refine ⟨fun s t e hstep herr => ?_, fun c => by cases c <;> decide⟩
  obtain ⟨-, hcmd⟩ | ⟨c, rest, -, -, hissue⟩ | hkept := step_cases hstep
  · exact hcmd.unchanged_of_error herr
  · have hcmd := issue_stepsCommand { s with io := { s.io with pending := rest } } c
    rw [hissue] at hcmd
    exact hcmd.unchanged_of_error herr
  · simp [hkept] at herr

end Sys2Proof.Machine
end

section
/-! PROOF. Which steps can return a FormatError (R302): none that starts or ends an encoding command, and of the
commands that read a byte sequence only DEC_NEXT returns one in the step that issues it. -/

namespace Sys2Proof.Machine

/-- An error that `t` returns beyond the results of `s` is no FormatError. -/
def NoFormatError (s t : State) : Prop :=
  ∀ e, t.io.results = s.io.results ++ [.error e] → e.code.errorClass ≠ .formatError

section
variable (s : State)

theorem noFormatError_of_results_eq {s t : State} (h : t.io.results = s.io.results) : NoFormatError s t :=
  fun e he => by simp [h] at he

@[simp] theorem noFormatError_work (wk : Work) : NoFormatError s { s with work := wk } :=
  noFormatError_of_results_eq rfl

theorem noFormatError_finish {s t : State} (hio : t.io = s.io) {r : Result} (hr : ∀ e, r ≠ .error e) :
    NoFormatError s (t.finish r) :=
  fun e he => absurd (by simpa [hio] using he) (hr e)

@[simp] theorem noFormatError_putEnc {r : Result} (hr : ∀ e, r ≠ .error e) (e : Nat) (x : Option Enc) :
    NoFormatError s ((s.putEnc e x).finish r) := noFormatError_finish rfl hr

@[simp] theorem noFormatError_putDec {r : Result} (hr : ∀ e, r ≠ .error e) (d : Nat) (x : Option Dec) :
    NoFormatError s ((s.putDec d x).finish r) := noFormatError_finish rfl hr

@[simp] theorem noFormatError_abort (code : ErrorCode) (info : Option Nat) :
    NoFormatError s (s.abort code info) ↔ code.errorClass ≠ .formatError := by
  simp [NoFormatError]

theorem encodeStep_noFormatError : Ensures (NoFormatError s) (encodeStep s) := by
  unfold encodeStep
  split
  · simp
  · split <;> simp

theorem finishFrame_noFormatError (e : Nat) : Ensures (NoFormatError s) (finishFrame e s) := by
  unfold finishFrame
  split
  · simp
  · dsimp only
    split_ifs <;> simp [ErrorCode.errorClass]

theorem issueEncodeImage_noFormatError (w h : Word) (ch cs : Byte) (pixels : List Byte) :
    Ensures (NoFormatError s) (issueEncodeImage w h ch cs pixels s) := by
  unfold issueEncodeImage
  split_ifs <;> simp [ErrorCode.errorClass]

theorem issueEncBegin_noFormatError (e : Nat) (w h : Word) (ch : Byte) (fr : Word) :
    Ensures (NoFormatError s) (issueEncBegin e w h ch fr s) :=
  ensures_onEnc fun enc _ => by split_ifs <;> simp [ErrorCode.errorClass]

theorem issueEncFrame_noFormatError (e : Nat) (kind : FrameKind) (pixels : List Byte) :
    Ensures (NoFormatError s) (issueEncFrame e kind pixels s) :=
  ensures_onEnc fun enc _ => by
    split_ifs
    case neg => cases kind <;> simp
    all_goals simp [ErrorCode.errorClass]

theorem issueEncFlush_noFormatError (e : Nat) : Ensures (NoFormatError s) (issueEncFlush e s) :=
  ensures_onEnc fun enc _ => by split_ifs <;> simp [ErrorCode.errorClass]

/-- DEC_OPEN reads the container's bytes when it is issued and checks them in its next step. -/
theorem issueDecOpen_noFormatError (d : Nat) (src : Source) : Ensures (NoFormatError s) (issueDecOpen d src s) :=
  ensures_onDec fun dec _ => by
    dsimp only
    split <;> exact noFormatError_of_results_eq (by simp [State.readPrefix_frame])

theorem issueDecRestart_noFormatError (d : Nat) : Ensures (NoFormatError s) (issueDecRestart d s) :=
  ensures_onDec fun dec _ => by split_ifs <;> simp [ErrorCode.errorClass]

theorem issueDecFrame_noFormatError (cache : Cache) (ref : Option (List Byte)) (w h : Word) (ch : Byte)
    (frame : List Byte) : Ensures (NoFormatError s) (issueDecFrame cache ref w h ch frame s) := by
  unfold issueDecFrame
  split_ifs <;> simp

/-- Only the fetch of DEC_NEXT finds a format error in the step that issues the command (R271). -/
theorem issue_noFormatError {c : Command} (hc : ∀ d, c ≠ .decNext d) : Ensures (NoFormatError s) (issue c s) := by
  cases c with
  | encodeImage w h ch cs pixels => exact issueEncodeImage_noFormatError s w h ch cs pixels
  | decodeImage bytes => exact noFormatError_work s _
  | encBegin e w h ch fr => exact issueEncBegin_noFormatError s e w h ch fr
  | encFrame e kind pixels => exact issueEncFrame_noFormatError s e kind pixels
  | encFlush e => exact issueEncFlush_noFormatError s e
  | decOpen d src => exact issueDecOpen_noFormatError s d src
  | decNext d => exact absurd rfl (hc d)
  | decRestart d => exact issueDecRestart_noFormatError s d
  | decFrame cache ref w h ch frame => exact issueDecFrame_noFormatError s cache ref w h ch frame
  | other code => trivial

end

section
variable {s t : State}

theorem step_encImage_noFormatError (hphase : s.work.phase = .encImage) (h : step s = .next t) :
    NoFormatError s t := by
  suffices hstep : Ensures (NoFormatError s) (step s) by rwa [h] at hstep
  obtain hi | hend := Nat.lt_or_ge s.work.i s.work.npx
  · exact step_encImage hphase hi ▸ encodeStep_noFormatError s
  · exact step_encImage_end hphase hend ▸ noFormatError_finish rfl nofun

theorem step_encFrame_noFormatError {e : Nat} (hphase : s.work.phase = .encFrame e) (h : step s = .next t) :
    NoFormatError s t := by
  suffices hstep : Ensures (NoFormatError s) (step s) by rwa [h] at hstep
  obtain hi | hend := Nat.lt_or_ge s.work.i s.work.npx
  · exact step_encFrame hphase hi ▸ encodeStep_noFormatError s
  · exact step_encFrame_end hphase hend ▸ finishFrame_noFormatError s e

end

/-- Settles O50: the phases the statement leaves out are those of the two encoding commands, and of the commands just
issued only DEC_NEXT fetches bytes and judges them at once. -/
theorem onlyDecodersRaiseFormatErrors : Obligations.OnlyDecodersRaiseFormatErrors := by
  intro s t e hstep herr hformat
  have hraises : ¬ NoFormatError s t := fun hno => hno e herr hformat
  obtain ⟨hphase, -⟩ | ⟨c, rest, hphase, hpending, hissue⟩ | hkept := step_cases hstep
  · cases hp : s.work.phase with
    | idle => exact absurd hp hphase
    | encImage => exact absurd (step_encImage_noFormatError hp hstep) hraises
    | encFrame e => exact absurd (step_encFrame_noFormatError hp hstep) hraises
    | _ => simp
  · by_cases hc : ∃ d, c = .decNext d
    · obtain ⟨d, rfl⟩ := hc
      exact .inr (.inr (.inr (.inr (.inr ⟨hphase, d, rest, hpending⟩))))
    · have hno := issue_noFormatError { s with io := { s.io with pending := rest } } (not_exists.1 hc)
      rw [hissue] at hno
      exact absurd hno hraises
  · exact absurd (noFormatError_of_results_eq hkept) hraises

end Sys2Proof.Machine
end

section
/-! PROOF. The isolation of the instances (R20, R333).  A step whose encoders and decoders are exchanged for others that
agree on the one it addresses does the same and leaves the same exchange behind; so it neither reads nor writes any
other. -/

namespace Sys2Proof.Machine

open Sys2Proof.Claims

/-! ### Exchanging the instances -/

/-- The state with `f` applied to its encoders and `g` to its decoders. -/
def State.mapInstances (f : List (Option Enc) → List (Option Enc)) (g : List (Option Dec) → List (Option Dec))
    (s : State) : State := { s with encs := f s.encs, decs := g s.decs }

section
variable (f : List (Option Enc) → List (Option Enc)) (g : List (Option Dec) → List (Option Dec)) (s : State)

@[simp] theorem State.mapInstances_work : (s.mapInstances f g).work = s.work := rfl
@[simp] theorem State.mapInstances_io : (s.mapInstances f g).io = s.io := rfl

theorem State.readPrefix_mapInstances (src : Source) (n : Nat) : (s.mapInstances f g).readPrefix src n =
    ((s.readPrefix src n).1, (s.readPrefix src n).2.mapInstances f g) := by
  simp only [State.readPrefix, State.mapInstances_io]
  cases s.io.replies <;> rfl

theorem State.readRange_mapInstances (src : Source) (a b : Nat) : (s.mapInstances f g).readRange src a b =
    ((s.readRange src a b).1, (s.readRange src a b).2.mapInstances f g) := by
  simp only [State.readRange, State.mapInstances_io]
  cases s.io.replies <;> rfl

end

/-- The outcome with `F` applied to its next state, where there is one. -/
def mapNext (F : State → State) : Host.Outcome State Fault Refusal → Host.Outcome State Fault Refusal
  | .next t => .next (F t)
  | .fault r => .fault r
  | .refused r => .refused r

/-- `f` leaves entry k of the table `l` as it is, and does with the table the same whatever is written to entry k. -/
structure Spares {α : Type} (f : List (Option α) → List (Option α)) (l : List (Option α)) (k : Nat) : Prop where
  read : (f l).getD k none = l.getD k none
  write : ∀ x, f (l.set k x) = (f l).set k x

section
variable {f : List (Option Enc) → List (Option Enc)} {g : List (Option Dec) → List (Option Dec)} {s : State}
variable {F : State → State}

@[simp] theorem mapNext_next (t : State) : mapNext F (.next t) = .next (F t) := rfl
@[simp] theorem mapNext_fault (r : Fault) : mapNext F (.fault r) = .fault r := rfl
@[simp] theorem mapNext_refused (r : Refusal) : mapNext F (.refused r) = .refused r := rfl

theorem mapNext_ite {c : Prop} [Decidable c] {o o' u u' : Host.Outcome State Fault Refusal}
    (h : c → u = mapNext F o) (h' : ¬ c → u' = mapNext F o') :
    (if c then u else u') = mapNext F (if c then o else o') := by
  split_ifs with hc
  · exact h hc
  · exact h' hc

theorem State.encAt_mapInstances {e : Nat} (hf : Spares f s.encs e) : (s.mapInstances f g).encAt e = s.encAt e :=
  hf.read

theorem State.decAt_mapInstances {d : Nat} (hg : Spares g s.decs d) : (s.mapInstances f g).decAt d = s.decAt d :=
  hg.read

theorem State.putEnc_mapInstances {e : Nat} (hf : Spares f s.encs e) (x : Option Enc) :
    (s.mapInstances f g).putEnc e x = (s.putEnc e x).mapInstances f g := by
  simp [State.mapInstances, State.putEnc, hf.write]

theorem State.putDec_mapInstances {d : Nat} (hg : Spares g s.decs d) (x : Option Dec) :
    (s.mapInstances f g).putDec d x = (s.putDec d x).mapInstances f g := by
  simp [State.mapInstances, State.putDec, hg.write]

/-- A result returned with encoder e written is returned with the exchange made after it as with it made before. -/
theorem finish_putEnc_mapInstances {e : Nat} (hf : Spares f s.encs e) (x : Option Enc) (r : Result) :
    Host.Outcome.next (((s.mapInstances f g).putEnc e x).finish r) =
      mapNext (.mapInstances f g) (.next ((s.putEnc e x).finish r)) := by
  rw [State.putEnc_mapInstances hf]
  rfl

theorem finish_putDec_mapInstances {d : Nat} (hg : Spares g s.decs d) (x : Option Dec) (r : Result) :
    Host.Outcome.next (((s.mapInstances f g).putDec d x).finish r) =
      mapNext (.mapInstances f g) (.next ((s.putDec d x).finish r)) := by
  rw [State.putDec_mapInstances hg]
  rfl

theorem onEnc_mapInstances {e : Nat} {a b : Enc → Host.Outcome State Fault Refusal} (hf : Spares f s.encs e)
    (h : ∀ enc, b enc = mapNext F (a enc)) : (s.mapInstances f g).onEnc e b = mapNext F (s.onEnc e a) := by
  rw [State.onEnc, State.onEnc, State.encAt_mapInstances hf]
  cases s.encAt e with
  | none => rfl
  | some enc => exact h enc

theorem onDec_mapInstances {d : Nat} {a b : Dec → Host.Outcome State Fault Refusal} (hg : Spares g s.decs d)
    (h : ∀ dec, b dec = mapNext F (a dec)) : (s.mapInstances f g).onDec d b = mapNext F (s.onDec d a) := by
  rw [State.onDec, State.onDec, State.decAt_mapInstances hg]
  cases s.decAt d with
  | none => rfl
  | some dec => exact h dec

end

/-- The operation `op` does the same in `s` with its instances exchanged by `f` and `g`. -/
abbrev Ignores (f : List (Option Enc) → List (Option Enc)) (g : List (Option Dec) → List (Option Dec))
    (op : State → Host.Outcome State Fault Refusal) (s : State) : Prop :=
  op (s.mapInstances f g) = mapNext (.mapInstances f g) (op s)

section
variable {f : List (Option Enc) → List (Option Enc)} {g : List (Option Dec) → List (Option Dec)} {s : State}

/-! ### What a step addresses -/

theorem usesEncoder_encFrame {e : Nat} (hphase : s.work.phase = .encFrame e) : UsesEncoder s e := by
  simp [UsesEncoder, hphase]

theorem usesDecoder_containerHeader {d : Nat} {src : Source} (hphase : s.work.phase = .containerHeader d src) :
    UsesDecoder s d := by simp [UsesDecoder, hphase]

theorem usesDecoder_frameTag {d : Nat} (hphase : s.work.phase = .frameTag (.session d)) : UsesDecoder s d := by
  simp [UsesDecoder, hphase]

theorem usesDecoder_frameUnit {d : Nat} (hphase : s.work.phase = .frameUnit (.session d)) : UsesDecoder s d := by
  simp [UsesDecoder, hphase]

section
variable {c : Command} {rest : List HostAction}

/-- The command that stands next addresses what it would address if it stood alone in the queue. -/
theorem usesEncoder_of_queue {e : Nat} (hphase : s.work.phase = .idle) (hpending : s.io.pending = .issue c :: rest)
    (h : UsesEncoder (queue s c) e) : UsesEncoder s e := by
  simp only [UsesEncoder, queue, hphase, hpending] at h ⊢
  cases c <;> exact h

theorem usesDecoder_of_queue {d : Nat} (hphase : s.work.phase = .idle) (hpending : s.io.pending = .issue c :: rest)
    (h : UsesDecoder (queue s c) d) : UsesDecoder s d := by
  simp only [UsesDecoder, queue, hphase, hpending] at h ⊢
  cases c <;> exact h

end

/-! ### The tokens -/

theorem onePixel_ignores (n : Nat) (writes : Bool) (px : Option Px) :
    Ignores f g (fun u => u.onePixel n writes px) s :=
  mapNext_ite (fun _ => mapNext_ite (fun _ => by cases px <;> rfl) fun _ => rfl) fun _ => rfl

theorem execRun_ignores (n : Nat) : Ignores f g (execRun n) s := by
  unfold Ignores execRun
  rw [State.mapInstances_work]
  exact mapNext_ite (fun _ => mapNext_ite (fun _ => by cases s.work.emitRun _ <;> rfl) fun _ => rfl) fun _ => rfl

theorem execQoif_ignores (w h : Word) (ch cs : Byte) : Ignores f g (execQoif w h ch cs) s := by
  unfold Ignores execQoif
  rw [State.mapInstances_work]
  cases s.work.phase with
  | imageHeader =>
    exact mapNext_ite (fun _ => rfl) fun _ => mapNext_ite (fun _ => rfl) fun _ =>
      mapNext_ite (fun _ => rfl) fun _ => mapNext_ite (fun _ => rfl) fun _ => rfl
  | _ => rfl

theorem execTerminator_ignores : Ignores f g execTerminator s := by
  unfold Ignores execTerminator
  rw [State.mapInstances_work]
  cases s.work.phase with
  | imageUnit => exact mapNext_ite (fun _ => rfl) fun _ => mapNext_ite (fun _ => rfl) fun _ => rfl
  | _ => rfl

theorem execFrameIntra_ignores : Ignores f g execFrameIntra s := by
  unfold Ignores execFrameIntra
  rw [State.mapInstances_work]
  cases s.work.phase <;> rfl

/-- A predictive tag reads the number of the frame, for the error it may raise, from the decoder of its command. -/
theorem execFramePred_ignores (hg : ∀ d, UsesDecoder s d → Spares g s.decs d) : Ignores f g execFramePred s := by
  unfold Ignores execFramePred
  rw [State.mapInstances_work]
  cases hphase : s.work.phase with
  | frameTag caller =>
    refine mapNext_ite (fun _ => rfl) fun _ => congrArg (fun index => Host.Outcome.next (State.abort _ _ index)) ?_
    cases caller with
    | session d =>
      rw [State.frameIndex, State.frameIndex, State.decAt_mapInstances (hg d (usesDecoder_frameTag hphase))]
    | perFrame => rfl
  | _ => rfl

/-- A container header writes the decoder of its command. -/
theorem execQov1_ignores (hs w h fr : Word) (ch : Byte) (n : Word) (offs : List Word)
    (hg : ∀ d, UsesDecoder s d → Spares g s.decs d) : Ignores f g (execQov1 hs w h fr ch n offs) s := by
  unfold Ignores execQov1
  rw [State.mapInstances_work]
  cases hphase : s.work.phase with
  | containerHeader d src =>
    have hd := hg d (usesDecoder_containerHeader hphase)
    refine mapNext_ite (fun _ => rfl) fun _ => mapNext_ite (fun _ => rfl) fun _ =>
      mapNext_ite (fun _ => rfl) fun _ => ?_
    cases firstBadOffset src.len 0 hs.toNat offs with
    | some k => rfl
    | none =>
      refine mapNext_ite (fun _ => rfl) fun _ => ?_
      rw [State.decAt_mapInstances hd]
      cases s.decAt d with
      | none => rfl
      | some _ => exact finish_putDec_mapInstances hd _ _
  | _ => rfl

theorem exec_ignores (i : Instr) (hg : ∀ d, UsesDecoder s d → Spares g s.decs d) : Ignores f g (exec i) s := by
  cases i with
  | index k => exact onePixel_ignores 1 false (some (cacheRead s.work.wcache k))
  | diff dr dg db => exact onePixel_ignores 1 true _
  | luma dg drg dbg => exact onePixel_ignores 2 true _
  | run n => exact execRun_ignores n
  | rgb red green blue => exact onePixel_ignores 4 true _
  | rgba red green blue alpha => exact onePixel_ignores 5 true (some ⟨red, green, blue, alpha⟩)
  | frameIntra => exact execFrameIntra_ignores
  | framePred => exact execFramePred_ignores hg
  | qoif w h ch cs => exact execQoif_ignores w h ch cs
  | terminator => exact execTerminator_ignores
  | qov1 hs w h fr ch n offs => exact execQov1_ignores hs w h fr ch n offs hg

theorem tokenStep_ignores (hg : ∀ d, UsesDecoder s d → Spares g s.decs d) : Ignores f g tokenStep s := by
  unfold Ignores tokenStep
  rw [State.mapInstances_work]
  cases s.work.fetch with
  | none => rfl
  | some token =>
    cases token with
    | error e => rfl
    | ok i => exact exec_ignores i hg

/-! ### The encoder's walk and the ends of the units -/

theorem encodeStep_ignores : Ignores f g encodeStep s := by
  unfold Ignores encodeStep
  rw [State.mapInstances_work]
  cases s.work.inp.readPixel s.work.ch s.work.i with
  | none => rfl
  | some cur => cases s.work.pred <;> rfl

theorem commitFrame_ignores {caller : FrameCaller} (hg : ∀ d, caller = .session d → Spares g s.decs d) :
    Ignores f g (commitFrame caller) s := by
  cases caller with
  | perFrame => rfl
  | session d =>
    have hd := hg d rfl
    simp only [Ignores, commitFrame]
    rw [State.decAt_mapInstances hd]
    cases s.decAt d with
    | none => rfl
    | some dec => exact finish_putDec_mapInstances hd _ _

theorem finishFrame_ignores {e : Nat} (hf : Spares f s.encs e) : Ignores f g (finishFrame e) s := by
  unfold Ignores finishFrame
  rw [State.encAt_mapInstances hf]
  cases s.encAt e with
  | none => rfl
  | some enc =>
    exact mapNext_ite (fun _ => rfl) fun _ => finish_putEnc_mapInstances hf _ _

/-! ### The starts of the commands -/

theorem issueEncodeImage_ignores (w h : Word) (ch cs : Byte) (pixels : List Byte) :
    Ignores f g (issueEncodeImage w h ch cs pixels) s :=
  mapNext_ite (fun _ => rfl) fun _ => mapNext_ite (fun _ => rfl) fun _ => mapNext_ite (fun _ => rfl) fun _ => rfl

theorem issueEncBegin_ignores {e : Nat} (hf : Spares f s.encs e) (w h : Word) (ch : Byte) (fr : Word) :
    Ignores f g (issueEncBegin e w h ch fr) s :=
  onEnc_mapInstances hf fun _ => mapNext_ite (fun _ => rfl) fun _ => mapNext_ite (fun _ => rfl) fun _ =>
    finish_putEnc_mapInstances hf _ _

theorem issueEncFrame_ignores {e : Nat} (hf : Spares f s.encs e) (kind : FrameKind) (pixels : List Byte) :
    Ignores f g (issueEncFrame e kind pixels) s :=
  onEnc_mapInstances hf fun _ => mapNext_ite (fun _ => rfl) fun _ => mapNext_ite (fun _ => rfl) fun _ =>
    mapNext_ite (fun _ => rfl) fun _ => by cases kind <;> rfl

theorem issueEncFlush_ignores {e : Nat} (hf : Spares f s.encs e) : Ignores f g (issueEncFlush e) s :=
  onEnc_mapInstances hf fun _ => mapNext_ite (fun _ => rfl) fun _ => finish_putEnc_mapInstances hf _ _

theorem issueDecOpen_ignores {d : Nat} (hg : Spares g s.decs d) (src : Source) :
    Ignores f g (issueDecOpen d src) s :=
  onDec_mapInstances hg fun _ => by
    simp only [State.readPrefix_mapInstances]
    cases phase2Size (s.readPrefix src 8).1 <;> rfl

theorem issueDecNext_ignores {d : Nat} (hg : Spares g s.decs d) : Ignores f g (issueDecNext d) s :=
  onDec_mapInstances hg fun dec => mapNext_ite (fun _ => rfl) fun _ => mapNext_ite (fun _ => rfl) fun _ => by
    cases dec.src with
    | none => rfl
    | some src =>
      cases dec.off[dec.next.toNat]? with
      | none => rfl
      | some a =>
        cases dec.spanEnd dec.next.toNat with
        | none => rfl
        | some b =>
          simp only [State.readRange_mapInstances]
          exact mapNext_ite (fun _ => rfl) fun _ => rfl

theorem issueDecRestart_ignores {d : Nat} (hg : Spares g s.decs d) : Ignores f g (issueDecRestart d) s :=
  onDec_mapInstances hg fun _ => mapNext_ite (fun _ => rfl) fun _ => finish_putDec_mapInstances hg _ _

theorem issueDecFrame_ignores (cache : Cache) (ref : Option (List Byte)) (w h : Word) (ch : Byte)
    (frame : List Byte) : Ignores f g (issueDecFrame cache ref w h ch frame) s :=
  mapNext_ite (fun _ => rfl) fun _ => rfl

/-! ### The step of the core -/

/-- A command issued ignores the instances it does not address. -/
theorem issue_ignores {c : Command} (hphase : s.work.phase = .idle)
    (hf : ∀ e, UsesEncoder (queue s c) e → Spares f s.encs e)
    (hg : ∀ d, UsesDecoder (queue s c) d → Spares g s.decs d) : Ignores f g (issue c) s := by
  simp only [UsesEncoder, UsesDecoder, queue, hphase] at hf hg
  cases c with
  | encodeImage w h ch cs pixels => exact issueEncodeImage_ignores w h ch cs pixels
  | decodeImage bytes => rfl
  | encBegin e w h ch fr => exact issueEncBegin_ignores (hf e rfl) w h ch fr
  | encFrame e kind pixels => exact issueEncFrame_ignores (hf e rfl) kind pixels
  | encFlush e => exact issueEncFlush_ignores (hf e rfl)
  | decOpen d src => exact issueDecOpen_ignores (hg d rfl) src
  | decNext d => exact issueDecNext_ignores (hg d rfl)
  | decRestart d => exact issueDecRestart_ignores (hg d rfl)
  | decFrame cache ref w h ch frame => exact issueDecFrame_ignores cache ref w h ch frame
  | other code => rfl

section
variable (hf : ∀ e, UsesEncoder s e → Spares f s.encs e) (hg : ∀ d, UsesDecoder s d → Spares g s.decs d)
include hf hg

/-- A host action ignores the instances it does not address; a new one takes the number after the last one given, so
an exchange goes on unchanged only where it leaves the end of the table as it is. -/
theorem hostStep_ignores (hphase : s.work.phase = .idle) (hfnew : ∀ x, f (s.encs ++ [x]) = f s.encs ++ [x])
    (hgnew : ∀ x, g (s.decs ++ [x]) = g s.decs ++ [x]) : Ignores f g hostStep s := by
  unfold Ignores hostStep
  rw [State.mapInstances_io]
  cases hpending : s.io.pending with
  | nil => rfl
  | cons action rest =>
    cases action with
    | issue c =>
      exact issue_ignores (s := { s with io := { s.io with pending := rest } }) hphase
        (fun e he => hf e (usesEncoder_of_queue hphase hpending he))
        fun d hd => hg d (usesDecoder_of_queue hphase hpending hd)
    | newEncoder => simp [State.mapInstances, hfnew]
    | newDecoder => simp [State.mapInstances, hgnew]
    | discardEncoder e =>
      have he : Spares f s.encs e := hf e (by simp [UsesEncoder, hphase, hpending])
      exact onEnc_mapInstances (g := g) he fun _ => by simp [State.mapInstances, State.putEnc, he.write]
    | discardDecoder d =>
      have hd : Spares g s.decs d := hg d (by simp [UsesDecoder, hphase, hpending])
      exact onDec_mapInstances (f := f) hd fun _ => by simp [State.mapInstances, State.putDec, hd.write]

/-- A step ignores the instances it does not address. -/
theorem step_ignores (hfnew : ∀ x, f (s.encs ++ [x]) = f s.encs ++ [x])
    (hgnew : ∀ x, g (s.decs ++ [x]) = g s.decs ++ [x]) : Ignores f g step s := by
  have htoken : Ignores f g tokenStep s := tokenStep_ignores hg
  unfold Ignores step
  rw [State.mapInstances_work]
  cases hphase : s.work.phase with
  | idle => exact hostStep_ignores hf hg hphase hfnew hgnew
  | imageHeader => exact htoken
  | imageUnit => exact mapNext_ite (fun _ => htoken) fun _ => exec_ignores .terminator hg
  | containerHeader d src => exact htoken
  | frameTag caller => exact htoken
  | frameUnit caller =>
    exact mapNext_ite (fun _ => htoken) fun _ =>
      commitFrame_ignores fun d hd => hg d (usesDecoder_frameUnit (hd ▸ hphase))
  | encImage => exact mapNext_ite (fun _ => encodeStep_ignores) fun _ => rfl
  | encFrame e =>
    exact mapNext_ite (fun _ => encodeStep_ignores) fun _ => finishFrame_ignores (hf e (usesEncoder_encFrame hphase))

end

end

/-! ### One encoder or decoder overwritten -/

/-- The table with `y` as its entry k, grown by one entry where it ends before k. -/
def overwrite {α : Type} (k : Nat) (y : α) (l : List α) : List α := l.take k ++ y :: l.drop (k + 1)

section
variable {α : Type} {l : List (Option α)} {k : Nat}

theorem overwrite_eq_set (hk : k < l.length) (y : Option α) : overwrite k y l = l.set k y := by
  rw [List.set_eq_take_append_cons_drop, if_pos hk, overwrite]

/-- A table that an overwriting leaves as it is has an entry k, and it is the one written. -/
theorem overwrite_eq_self {y : Option α} (h : overwrite k y l = l) : k < l.length ∧ l.getD k none = y := by
  have hlen : k < l.length := by
    have := congrArg List.length h
    simp only [overwrite, List.length_append, List.length_take, List.length_cons, List.length_drop] at this
    omega
  rw [overwrite_eq_set hlen] at h
  rw [← h]
  simp [hlen]

theorem spares_overwrite {j : Nat} (hk : k < l.length) (hne : j ≠ k) (y : Option α) :
    Spares (overwrite k y) l j where
  read := by simp [overwrite_eq_set hk, hne.symm]
  write x := by rw [overwrite_eq_set hk, overwrite_eq_set (by simpa using hk), List.set_comm _ _ hne]

theorem overwrite_append (hk : k < l.length) (y x : Option α) : overwrite k y (l ++ [x]) = overwrite k y l ++ [x] := by
  rw [overwrite_eq_set hk, overwrite_eq_set (by simp; omega), List.set_append_left _ _ hk]

theorem spares_id (j : Nat) : Spares id l j := ⟨rfl, fun _ => rfl⟩

end

section
variable {s : State}

theorem State.putEnc_encAt {e : Nat} (he : e < s.encs.length) : s.putEnc e (s.encAt e) = s := by
  simp [State.putEnc, State.encAt, he]

theorem State.putDec_decAt {d : Nat} (hd : d < s.decs.length) : s.putDec d (s.decAt d) = s := by
  simp [State.putDec, State.decAt, hd]

theorem State.mapInstances_overwrite_encs {e : Nat} (he : e < s.encs.length) (x : Option Enc) :
    s.mapInstances (overwrite e x) id = s.putEnc e x := by
  simp [State.mapInstances, State.putEnc, overwrite_eq_set he]

theorem State.mapInstances_overwrite_decs {d : Nat} (hd : d < s.decs.length) (x : Option Dec) :
    s.mapInstances id (overwrite d x) = s.putDec d x := by
  simp [State.mapInstances, State.putDec, overwrite_eq_set hd]

theorem step_overwrite_encs {e : Nat} (he : e < s.encs.length) (hunused : ¬ UsesEncoder s e) (x : Option Enc) :
    step (s.putEnc e x) = mapNext (.mapInstances (overwrite e x) id) (step s) := by
  rw [← State.mapInstances_overwrite_encs he]
  exact step_ignores (fun k hk => spares_overwrite he (fun h => hunused (h ▸ hk)) x) (fun _ _ => spares_id _)
    (overwrite_append he x) fun _ => rfl

theorem step_overwrite_decs {d : Nat} (hd : d < s.decs.length) (hunused : ¬ UsesDecoder s d) (x : Option Dec) :
    step (s.putDec d x) = mapNext (.mapInstances id (overwrite d x)) (step s) := by
  rw [← State.mapInstances_overwrite_decs hd]
  exact step_ignores (fun _ _ => spares_id _) (fun k hk => spares_overwrite hd (fun h => hunused (h ▸ hk)) x)
    (fun _ => rfl) (overwrite_append hd x)

/-- Overwriting an encoder with its own value changes nothing before the step, and so nothing after it: there the encoder
still has that value (`step_keeps_dec` likewise). -/
theorem step_keeps_enc {t : State} {e : Nat} (he : e < s.encs.length) (hunused : ¬ UsesEncoder s e)
    (h : step s = .next t) : e < t.encs.length ∧ t.encAt e = s.encAt e := by
  have hself := step_overwrite_encs he hunused (s.encAt e)
  rw [State.putEnc_encAt he, h, mapNext_next, Host.Outcome.next.injEq] at hself
  exact overwrite_eq_self (congrArg State.encs hself).symm

theorem step_keeps_dec {t : State} {d : Nat} (hd : d < s.decs.length) (hunused : ¬ UsesDecoder s d)
    (h : step s = .next t) : d < t.decs.length ∧ t.decAt d = s.decAt d := by
  have hself := step_overwrite_decs hd hunused (s.decAt d)
  rw [State.putDec_decAt hd, h, mapNext_next, Host.Outcome.next.injEq] at hself
  exact overwrite_eq_self (congrArg State.decs hself).symm

end

/-- Settles O48: a step ignores an overwriting of an encoder or decoder it does not address, so it does not read it; and
as it ignores an overwriting with the old value too, it does not write it. -/
theorem instancesAreIsolated : Obligations.InstancesAreIsolated := by
  refine ⟨fun s e x he hunused => ?_, fun s d x hd hunused => ?_⟩
  · have hstep := step_overwrite_encs he hunused x
    refine ⟨fun t ht => ?_, fun r hr => by rw [hstep, hr, mapNext_fault],
      fun r hr => by rw [hstep, hr, mapNext_refused]⟩
    obtain ⟨hlen, hkept⟩ := step_keeps_enc he hunused ht
    exact ⟨hkept, by rw [hstep, ht, mapNext_next, State.mapInstances_overwrite_encs hlen]⟩
  · have hstep := step_overwrite_decs hd hunused x
    refine ⟨fun t ht => ?_, fun r hr => by rw [hstep, hr, mapNext_fault],
      fun r hr => by rw [hstep, hr, mapNext_refused]⟩
    obtain ⟨hlen, hkept⟩ := step_keeps_dec hd hunused ht
    exact ⟨hkept, by rw [hstep, ht, mapNext_next, State.mapInstances_overwrite_decs hlen]⟩

end Sys2Proof.Machine
end

section
/-! PROOF. Every command completes (R8, R153): each step of a command in progress either returns its one result or
brings it nearer to its end, as counted by the pixels its coding unit has left. -/

namespace Sys2Proof.Machine

/-! ### The steps a command has left -/

/-- Whether the command in progress is in its coding unit, and neither at the token before it nor idle. -/
def Phase.inUnit : Phase → Bool
  | .imageUnit | .frameUnit _ | .encImage | .encFrame _ => true
  | .idle | .imageHeader | .containerHeader _ _ | .frameTag _ => false

/-- The most steps the command in progress can still take: in a unit one for each pixel left and one for its end, one
more at a frame's tag, and at an image's header as many as the largest unit takes. -/
def State.stepsLeft (s : State) : Nat :=
  match s.work.phase with
  | .idle => 0
  | .imageHeader => s.maxPixels + 2
  | .containerHeader _ _ => 1
  | .frameTag _ => s.work.npx + 2
  | .imageUnit | .frameUnit _ | .encImage | .encFrame _ => s.work.npx - s.work.i + 1

section
variable {s : State}

theorem State.stepsLeft_imageHeader (h : s.work.phase = .imageHeader) : s.stepsLeft = s.maxPixels + 2 := by
  simp only [State.stepsLeft, h]

theorem State.stepsLeft_frameTag {caller : FrameCaller} (h : s.work.phase = .frameTag caller) :
    s.stepsLeft = s.work.npx + 2 := by
  simp only [State.stepsLeft, h]

theorem State.stepsLeft_inUnit (h : s.work.phase.inUnit = true) : s.stepsLeft = s.work.npx - s.work.i + 1 := by
  cases hphase : s.work.phase <;> simp_all [State.stepsLeft, Phase.inUnit]

theorem State.stepsLeft_pos (h : s.work.phase ≠ .idle) : 0 < s.stepsLeft := by
  cases hphase : s.work.phase <;> simp_all [State.stepsLeft]

theorem State.stepsLeft_le (s : State) :
    s.stepsLeft ≤ (if s.work.phase = .imageHeader then s.maxPixels else s.work.npx) + 2 := by
  cases hphase : s.work.phase <;> simp [State.stepsLeft, hphase] <;> omega

theorem Work.inUnit_of_walking {wk : Work} (h : wk.walking = true) : wk.phase.inUnit = true := by
  cases hphase : wk.phase <;> simp_all [Work.walking, Phase.inUnit]

end

/-! ### Progress -/

/-- What a step brings the command of `s` to: its end with one result, or a unit with fewer steps left. -/
inductive Progress (s t : State) : Prop
  | ends (r : Result) (hwork : t.work = Work.idle) (hresults : t.io.results = s.io.results ++ [r])
  | goesOn (hunit : t.work.phase.inUnit = true) (hless : t.stepsLeft < s.stepsLeft)
      (hresults : t.io.results = s.io.results)

/-- The outcome is a next state, and the command has progressed in it. -/
def Advances (s : State) : Host.Outcome State Fault Refusal → Prop
  | .next t => Progress s t
  | .fault _ => False
  | .refused _ => False

section
variable {s : State}

theorem Progress.finish (s : State) (r : Result) : Progress s (s.finish r) := .ends r rfl rfl

theorem Progress.abort (s : State) (c : ErrorCode) (n : Option Nat) : Progress s (s.abort c n) := .finish s _

theorem Progress.putEnc (s : State) (e : Nat) (x : Option Enc) (r : Result) : Progress s ((s.putEnc e x).finish r) :=
  .ends r rfl rfl

theorem Progress.putDec (s : State) (d : Nat) (x : Option Dec) (r : Result) : Progress s ((s.putDec d x).finish r) :=
  .ends r rfl rfl

/-- A unit started with fewer steps than the command had left. -/
theorem Progress.startUnit {wk : Work} {phase : Phase} {kind : FrameKind} {ptr endp : Nat} {cache : Cache}
    {ref : Option Memory} (hunit : phase.inUnit = true) (hless : wk.npx + 1 < s.stepsLeft) :
    Progress s { s with work := wk.startUnit phase kind ptr endp cache ref } := by
  refine .goesOn hunit ?_ rfl
  rw [State.stepsLeft_inUnit hunit]
  exact hless

/-- Pixels are produced or coded, n of them and at least one, and the unit stays the one it was. -/
theorem Progress.pixels {wk : Work} {n : Nat} (hunit : s.work.phase.inUnit = true) (hi : s.work.i < s.work.npx)
    (hn : 0 < n) (hphase : wk.phase = s.work.phase) (hnpx : wk.npx = s.work.npx) (hwk : wk.i = s.work.i + n) :
    Progress s { s with work := wk } := by
  have hunit' : wk.phase.inUnit = true := hphase ▸ hunit
  refine .goesOn hunit' ?_ rfl
  rw [State.stepsLeft_inUnit hunit, State.stepsLeft_inUnit hunit', hnpx, hwk]
  omega

theorem advances_ite {c : Prop} [Decidable c] {o o' : Host.Outcome State Fault Refusal} (h : c → Advances s o)
    (h' : ¬ c → Advances s o') : Advances s (if c then o else o') := by
  split_ifs with hc
  · exact h hc
  · exact h' hc

theorem advances_tokenStep {token : Except DecodeError Instr} (hfetch : s.work.fetch = some token)
    (hexec : ∀ i, token = .ok i → Advances s (exec i s)) : Advances s (tokenStep s) := by
  cases token with
  | error e => exact tokenStep_of_fetch_error hfetch ▸ Progress.finish s _
  | ok i => exact tokenStep_of_fetch_ok hfetch ▸ hexec i rfl

end

/-! ### The opcodes -/

/-- A RUN that is read has a pixel (R95, R176). -/
theorem run_pos_of_decodeOpcode {bs : List Byte} {n : Nat} (h : decodeOpcode bs = .ok (.run n)) : 0 < n := by
  cases bs with
  | nil => cases h
  | cons b0 rest =>
    simp only [decodeOpcode] at h
    split_ifs at h
    · split at h <;> cases h
    · split at h <;> cases h
    · cases h
    · cases h
    · split at h <;> cases h
    · cases h
      exact Nat.succ_pos _

section
variable {s : State} (hwalk : s.work.walking = true)
include hwalk

theorem onePixel_advances (n : Nat) (writes : Bool) {px : Option Px} (hpx : ∃ p, px = some p) :
    Advances s (s.onePixel n writes px) := by
  obtain ⟨p, rfl⟩ := hpx
  by_cases hfits : s.work.ptr + n ≤ s.work.endp
  · rw [State.onePixel_some writes p hwalk hfits, State.afterPixel_eq]
    exact .pixels (Work.inUnit_of_walking hwalk) (Work.lt_npx_of_walking hwalk) Nat.one_pos rfl rfl rfl
  · rw [State.onePixel_truncated hwalk (Nat.not_le.1 hfits)]
    exact .finish s _

theorem execRun_advances (hgood : s.work.DecodeGood) {n : Nat} (hn : 0 < n) : Advances s (execRun n s) := by
  have hi := Work.lt_npx_of_walking hwalk
  by_cases hfits : s.work.ptr + 1 ≤ s.work.endp
  · obtain ⟨wk, hrun, -⟩ := hgood.emitRun (n := min n (s.work.npx - s.work.i)) (by omega)
    rw [execRun_some hwalk hfits hrun, Work.emitRun_frame hrun]
    exact .pixels (Work.inUnit_of_walking hwalk) hi (by omega : 0 < min n (s.work.npx - s.work.i)) rfl rfl rfl
  · rw [execRun_truncated hwalk (Nat.not_le.1 hfits)]
    exact .finish s _

/-- The prediction an opcode needs exists while a pixel is left in a good unit, so each opcode read there produces one
pixel or more, unless the region is exhausted. -/
theorem exec_opcode_advances (hgood : s.work.DecodeGood) {bs : List Byte} {i : Instr}
    (hdecode : decodeOpcode bs = .ok i) : Advances s (exec i s) := by
  have hplace := place_of_decodeOpcode hdecode
  obtain ⟨pr, hpred⟩ := hgood.pred_isSome (Work.lt_npx_of_walking hwalk)
  cases i with
  | index k => exact onePixel_advances hwalk 1 false ⟨cacheRead s.work.wcache k, rfl⟩
  | diff dr dg db => exact onePixel_advances hwalk 1 true ⟨_, by rw [hpred, Option.map_some]⟩
  | luma dg drg dbg => exact onePixel_advances hwalk 2 true ⟨_, by rw [hpred, Option.map_some]⟩
  | run n => exact execRun_advances hwalk hgood (run_pos_of_decodeOpcode hdecode)
  | rgb r g b => exact onePixel_advances hwalk 4 true ⟨_, by rw [hpred, Option.map_some]⟩
  | rgba r g b a => exact onePixel_advances hwalk 5 true ⟨⟨r, g, b, a⟩, rfl⟩
  | frameIntra => cases hplace
  | framePred => cases hplace
  | qoif w ht ch cs => cases hplace
  | terminator => cases hplace
  | qov1 hs w ht fr ch n offs => cases hplace

theorem step_walking_advances (h : s.Inv) : Advances s (step s) :=
  step_walking hwalk ▸ advances_tokenStep (Work.fetch_walking hwalk) fun _ =>
    exec_opcode_advances hwalk (h.work.decodeGood hwalk)

end

/-! ### The other steps of a command -/

section
variable {s : State}

/-- A header that passes the check of MAX_PIXELS starts a unit of at most so many pixels (R161). -/
theorem execQoif_advances (hphase : s.work.phase = .imageHeader) (w h : Word) (ch cs : Byte) :
    Advances s (execQoif w h ch cs s) := by
  simp only [execQoif, hphase]
  refine advances_ite (fun _ => .abort ..) fun _ => advances_ite (fun _ => .abort ..) fun _ =>
    advances_ite (fun _ => .abort ..) fun _ => advances_ite (fun _ => .abort ..) fun hmax => ?_
  refine Progress.startUnit rfl ?_
  rw [State.stepsLeft_imageHeader hphase]
  exact Nat.succ_lt_succ (Nat.lt_succ_of_le (Nat.not_lt.1 hmax))

theorem execQov1_advances {d : Nat} {src : Source} {dec : Dec} (hphase : s.work.phase = .containerHeader d src)
    (hdec : s.decAt d = some dec) (hs w h fr : Word) (ch : Byte) (n : Word) (offs : List Word) :
    Advances s (execQov1 hs w h fr ch n offs s) := by
  simp only [execQov1, hphase]
  refine advances_ite (fun _ => .abort ..) fun _ => advances_ite (fun _ => .abort ..) fun _ =>
    advances_ite (fun _ => .abort ..) fun _ => ?_
  cases firstBadOffset src.len 0 hs.toNat offs with
  | some k => exact .abort ..
  | none =>
    refine advances_ite (fun _ => .abort ..) fun _ => ?_
    rw [hdec]
    exact .putDec ..

theorem exec_tag_advances {caller : FrameCaller} (hphase : s.work.phase = .frameTag caller) {i : Instr}
    (hi : i = .frameIntra ∨ i = .framePred) : Advances s (exec i s) := by
  have hless : s.work.npx + 1 < s.stepsLeft := by
    rw [State.stepsLeft_frameTag hphase]
    omega
  obtain rfl | rfl := hi
  · rw [exec, execFrameIntra_frameTag hphase]
    exact Progress.startUnit rfl hless
  · cases href : s.work.ref with
    | none =>
      rw [exec, execFramePred_no_reference hphase href]
      exact Progress.abort ..
    | some r =>
      rw [exec, execFramePred_resident hphase href]
      exact Progress.startUnit rfl hless

theorem commitFrame_advances {caller : FrameCaller} (hserved : caller.Served s) :
    Advances s (commitFrame caller s) := by
  cases caller with
  | perFrame => exact .finish s _
  | session d =>
    obtain ⟨dec, hdec, -⟩ := hserved d rfl
    simp only [commitFrame, hdec]
    exact .putDec ..

theorem finishFrame_advances {e : Nat} {enc : Enc} (henc : s.encAt e = some enc) : Advances s (finishFrame e s) := by
  simp only [finishFrame, henc]
  exact advances_ite (fun _ => .abort ..) fun _ => .putEnc ..

theorem step_encoding_advances (hphase : s.work.phase = .encImage ∨ ∃ e, s.work.phase = .encFrame e)
    (hgood : s.work.EncodeGood) (hi : s.work.i < s.work.npx) : Advances s (step s) := by
  obtain ⟨cur, hcur⟩ := hgood.input_pixel hi
  obtain ⟨pr, hpred⟩ := hgood.pred_isSome hi
  have hunit : s.work.phase.inUnit = true := by
    obtain hp | ⟨e, hp⟩ := hphase <;> rw [hp] <;> rfl
  rw [step_encoding hphase hi hcur hpred, Work.encodePixel_frame]
  exact .pixels hunit hi Nat.one_pos rfl rfl rfl

end

/-! ### A command in progress -/

section
variable {s : State} (h : s.Inv) (hphase : s.work.phase ≠ .idle)
include h hphase

/-- No step of a command in progress faults or is refused, and each is progress. -/
theorem step_advances : Advances s (step s) := by
  have hwork := h.work
  cases hp : s.work.phase with
  | idle => exact absurd hp hphase
  | imageHeader =>
    refine step_imageHeader hp ▸ advances_tokenStep (Work.fetch_imageHeader hp) fun i hi => ?_
    obtain ⟨w, ht, ch, cs, rfl⟩ := eq_of_decodeImageHeader hi
    exact execQoif_advances hp w ht ch cs
  | containerHeader d src =>
    simp only [Work.Good, hp] at hwork
    obtain ⟨-, dec, hdec⟩ := hwork
    refine step_containerHeader hp ▸ advances_tokenStep (Work.fetch_containerHeader hp) fun i hi => ?_
    obtain ⟨hs, w, ht, fr, ch, n, offs, rfl, -⟩ := eq_of_decodeContainerHeader hi
    exact execQov1_advances hp hdec hs w ht fr ch n offs
  | frameTag caller =>
    exact step_frameTag hp ▸ advances_tokenStep (Work.fetch_frameTag hp) fun i hi =>
      exec_tag_advances hp (eq_of_decodeTag hi)
  | imageUnit =>
    obtain hi | hend := Nat.lt_or_ge s.work.i s.work.npx
    · exact step_walking_advances (by simp [Work.walking, hp, hi]) h
    · exact step_image_complete hp hend ▸ Progress.finish ..
  | frameUnit caller =>
    simp only [Work.Good, hp] at hwork
    obtain hi | hend := Nat.lt_or_ge s.work.i s.work.npx
    · exact step_walking_advances (by simp [Work.walking, hp, hi]) h
    · exact step_frameUnit_end hp hend ▸ commitFrame_advances hwork.2
  | encImage =>
    obtain hi | hend := Nat.lt_or_ge s.work.i s.work.npx
    · exact step_encoding_advances (.inl hp) (hwork.encodeGood (.inl hp)) hi
    · exact step_encImage_end hp hend ▸ Progress.finish s _
  | encFrame e =>
    obtain hi | hend := Nat.lt_or_ge s.work.i s.work.npx
    · exact step_encoding_advances (.inr ⟨e, hp⟩) (hwork.encodeGood (.inr ⟨e, hp⟩)) hi
    · simp only [Work.Good, hp] at hwork
      obtain ⟨-, enc, henc, -⟩ := hwork
      exact step_encFrame_end hp hend ▸ finishFrame_advances henc

theorem exists_step_progress : ∃ t, step s = .next t ∧ Progress s t := by
  have hstep := step_advances h hphase
  cases ho : step s with
  | next t => exact ⟨t, rfl, by rwa [ho] at hstep⟩
  | fault r => rw [ho] at hstep; exact hstep.elim
  | refused r => rw [ho] at hstep; exact hstep.elim

/-- A command in progress ends with one result within the steps it has left. -/
theorem command_ends_within_stepsLeft : ∃ (k : Nat) (t : State) (r : Result), k ≤ s.stepsLeft ∧
    Host.Core.run core k s = .next t ∧ t.work = Work.idle ∧ t.io.results = s.io.results ++ [r] := by
  induction hn : s.stepsLeft using Nat.strong_induction_on generalizing s with
  | _ n ih =>
    obtain ⟨t, hstep, hprogress⟩ := exists_step_progress h hphase
    have hrun (k : Nat) := run_succ_of_next k hstep
    cases hprogress with
    | ends r hwork hresults =>
      exact ⟨1, t, r, hn ▸ State.stepsLeft_pos hphase, hrun 0, hwork, hresults⟩
    | goesOn hunit hless hresults =>
      have hbusy : t.work.phase ≠ .idle := fun hidle => by simp [hidle, Phase.inUnit] at hunit
      obtain ⟨k, u, r, hk, hend, hwork, hlast⟩ :=
        ih t.stepsLeft (hn ▸ hless) ((everyStepKeepsTheInvariant s t hstep).1 h) hbusy rfl
      exact ⟨k + 1, u, r, by omega, (hrun k).trans hend, hwork, by rw [hlast, hresults]⟩

end

/-- Settles O57: every step of a command in progress is progress, so the command ends within the steps it has left, and
those are within the bound stated. -/
theorem everyCommandCompletes : Obligations.EveryCommandCompletes := by
  intro s h hphase
  obtain ⟨k, t, r, hk, hend⟩ := command_ends_within_stepsLeft h hphase
  exact ⟨k, t, r, hk.trans s.stepsLeft_le, hend⟩

end Sys2Proof.Machine
end

section
/-! PROOF. The results are never read back (R45, R347): one more result put before those the host holds changes a step
in nothing but that it still stands there, and so, one at a time, do any number of them. -/

namespace Sys2Proof.Machine

open Sys2Proof.Claims

/-- The state with one more result, older than all the host holds.  What a step appends it appends behind that one, by
the definition of `++`. -/
def State.withOlder (r : Result) (s : State) : State := { s with io := { s.io with results := r :: s.io.results } }

theorem withEarlierResults_cons (s : State) (r : Result) (rs : List Result) :
    withEarlierResults s (r :: rs) = (withEarlierResults s rs).withOlder r := rfl

section
variable {r : Result} {s : State}

@[simp] theorem State.withOlder_work : (s.withOlder r).work = s.work := rfl
@[simp] theorem State.withOlder_pending : (s.withOlder r).io.pending = s.io.pending := rfl
@[simp] theorem State.withOlder_replies : (s.withOlder r).io.replies = s.io.replies := rfl
@[simp] theorem State.encAt_withOlder (e : Nat) : (s.withOlder r).encAt e = s.encAt e := rfl
@[simp] theorem State.decAt_withOlder (d : Nat) : (s.withOlder r).decAt d = s.decAt d := rfl

theorem State.readPrefix_withOlder (src : Source) (n : Nat) : (s.withOlder r).readPrefix src n =
    ((s.readPrefix src n).1, (s.readPrefix src n).2.withOlder r) := by
  simp only [State.readPrefix, State.withOlder_replies]
  cases s.io.replies <;> rfl

theorem State.readRange_withOlder (src : Source) (a b : Nat) : (s.withOlder r).readRange src a b =
    ((s.readRange src a b).1, (s.readRange src a b).2.withOlder r) := by
  simp only [State.readRange, State.withOlder_replies]
  cases s.io.replies <;> rfl

theorem onEnc_withOlder {e : Nat} {a b : Enc → Host.Outcome State Fault Refusal}
    (h : ∀ enc, b enc = mapNext (.withOlder r) (a enc)) :
    (s.withOlder r).onEnc e b = mapNext (.withOlder r) (s.onEnc e a) := by
  rw [State.onEnc, State.onEnc, State.encAt_withOlder]
  cases s.encAt e with
  | none => rfl
  | some enc => exact h enc

theorem onDec_withOlder {d : Nat} {a b : Dec → Host.Outcome State Fault Refusal}
    (h : ∀ dec, b dec = mapNext (.withOlder r) (a dec)) :
    (s.withOlder r).onDec d b = mapNext (.withOlder r) (s.onDec d a) := by
  rw [State.onDec, State.onDec, State.decAt_withOlder]
  cases s.decAt d with
  | none => rfl
  | some dec => exact h dec

end

/-- The operation `op` does the same in `s` with an older result, which stays the oldest. -/
abbrev Overlooks (r : Result) (op : State → Host.Outcome State Fault Refusal) (s : State) : Prop :=
  op (s.withOlder r) = mapNext (.withOlder r) (op s)

section
variable {r : Result} {s : State}

/-! ### The tokens -/

theorem onePixel_overlooks (n : Nat) (writes : Bool) (px : Option Px) :
    Overlooks r (fun u => u.onePixel n writes px) s :=
  mapNext_ite (fun _ => mapNext_ite (fun _ => by cases px <;> rfl) fun _ => rfl) fun _ => rfl

theorem execRun_overlooks (n : Nat) : Overlooks r (execRun n) s := by
  unfold Overlooks execRun
  rw [State.withOlder_work]
  exact mapNext_ite (fun _ => mapNext_ite (fun _ => by cases s.work.emitRun _ <;> rfl) fun _ => rfl) fun _ => rfl

theorem execQoif_overlooks (w h : Word) (ch cs : Byte) : Overlooks r (execQoif w h ch cs) s := by
  unfold Overlooks execQoif
  rw [State.withOlder_work]
  cases s.work.phase with
  | imageHeader =>
    exact mapNext_ite (fun _ => rfl) fun _ => mapNext_ite (fun _ => rfl) fun _ =>
      mapNext_ite (fun _ => rfl) fun _ => mapNext_ite (fun _ => rfl) fun _ => rfl
  | _ => rfl

theorem execTerminator_overlooks : Overlooks r execTerminator s := by
  unfold Overlooks execTerminator
  rw [State.withOlder_work]
  cases s.work.phase with
  | imageUnit => exact mapNext_ite (fun _ => rfl) fun _ => mapNext_ite (fun _ => rfl) fun _ => rfl
  | _ => rfl

theorem execFrameIntra_overlooks : Overlooks r execFrameIntra s := by
  unfold Overlooks execFrameIntra
  rw [State.withOlder_work]
  cases s.work.phase <;> rfl

theorem execFramePred_overlooks : Overlooks r execFramePred s := by
  unfold Overlooks execFramePred
  rw [State.withOlder_work]
  cases s.work.phase with
  | frameTag caller => exact mapNext_ite (fun _ => rfl) fun _ => by cases caller <;> rfl
  | _ => rfl

theorem execQov1_overlooks (hs w h fr : Word) (ch : Byte) (n : Word) (offs : List Word) :
    Overlooks r (execQov1 hs w h fr ch n offs) s := by
  unfold Overlooks execQov1
  rw [State.withOlder_work]
  cases s.work.phase with
  | containerHeader d src =>
    refine mapNext_ite (fun _ => rfl) fun _ => mapNext_ite (fun _ => rfl) fun _ =>
      mapNext_ite (fun _ => rfl) fun _ => ?_
    cases firstBadOffset src.len 0 hs.toNat offs with
    | some k => rfl
    | none =>
      refine mapNext_ite (fun _ => rfl) fun _ => ?_
      rw [State.decAt_withOlder]
      cases s.decAt d <;> rfl
  | _ => rfl

theorem exec_overlooks (i : Instr) : Overlooks r (exec i) s := by
  cases i with
  | index k => exact onePixel_overlooks 1 false (some (cacheRead s.work.wcache k))
  | diff dr dg db => exact onePixel_overlooks 1 true _
  | luma dg drg dbg => exact onePixel_overlooks 2 true _
  | run n => exact execRun_overlooks n
  | rgb red green blue => exact onePixel_overlooks 4 true _
  | rgba red green blue alpha => exact onePixel_overlooks 5 true (some ⟨red, green, blue, alpha⟩)
  | frameIntra => exact execFrameIntra_overlooks
  | framePred => exact execFramePred_overlooks
  | qoif w h ch cs => exact execQoif_overlooks w h ch cs
  | terminator => exact execTerminator_overlooks
  | qov1 hs w h fr ch n offs => exact execQov1_overlooks hs w h fr ch n offs

theorem tokenStep_overlooks : Overlooks r tokenStep s := by
  unfold Overlooks tokenStep
  rw [State.withOlder_work]
  cases s.work.fetch with
  | none => rfl
  | some token =>
    cases token with
    | error e => rfl
    | ok i => exact exec_overlooks i

/-! ### The encoder's walk and the ends of the units -/

theorem encodeStep_overlooks : Overlooks r encodeStep s := by
  unfold Overlooks encodeStep
  rw [State.withOlder_work]
  cases s.work.inp.readPixel s.work.ch s.work.i with
  | none => rfl
  | some cur => cases s.work.pred <;> rfl

theorem commitFrame_overlooks (caller : FrameCaller) : Overlooks r (commitFrame caller) s := by
  cases caller with
  | perFrame => rfl
  | session d =>
    simp only [Overlooks, commitFrame, State.decAt_withOlder]
    cases s.decAt d <;> rfl

theorem finishFrame_overlooks (e : Nat) : Overlooks r (finishFrame e) s := by
  unfold Overlooks finishFrame
  rw [State.encAt_withOlder]
  cases s.encAt e with
  | none => rfl
  | some enc => exact mapNext_ite (fun _ => rfl) fun _ => rfl

/-! ### The starts of the commands -/

theorem issueEncodeImage_overlooks (w h : Word) (ch cs : Byte) (pixels : List Byte) :
    Overlooks r (issueEncodeImage w h ch cs pixels) s :=
  mapNext_ite (fun _ => rfl) fun _ => mapNext_ite (fun _ => rfl) fun _ => mapNext_ite (fun _ => rfl) fun _ => rfl

theorem issueEncBegin_overlooks (e : Nat) (w h : Word) (ch : Byte) (fr : Word) :
    Overlooks r (issueEncBegin e w h ch fr) s :=
  onEnc_withOlder fun _ => mapNext_ite (fun _ => rfl) fun _ => mapNext_ite (fun _ => rfl) fun _ => rfl

theorem issueEncFrame_overlooks (e : Nat) (kind : FrameKind) (pixels : List Byte) :
    Overlooks r (issueEncFrame e kind pixels) s :=
  onEnc_withOlder fun _ => mapNext_ite (fun _ => rfl) fun _ => mapNext_ite (fun _ => rfl) fun _ =>
    mapNext_ite (fun _ => rfl) fun _ => by cases kind <;> rfl

theorem issueEncFlush_overlooks (e : Nat) : Overlooks r (issueEncFlush e) s :=
  onEnc_withOlder fun _ => mapNext_ite (fun _ => rfl) fun _ => rfl

theorem issueDecOpen_overlooks (d : Nat) (src : Source) : Overlooks r (issueDecOpen d src) s :=
  onDec_withOlder fun _ => by
    simp only [State.readPrefix_withOlder]
    cases phase2Size (s.readPrefix src 8).1 <;> rfl

theorem issueDecNext_overlooks (d : Nat) : Overlooks r (issueDecNext d) s :=
  onDec_withOlder fun dec => mapNext_ite (fun _ => rfl) fun _ => mapNext_ite (fun _ => rfl) fun _ => by
    cases dec.src with
    | none => rfl
    | some src =>
      cases dec.off[dec.next.toNat]? with
      | none => rfl
      | some a =>
        cases dec.spanEnd dec.next.toNat with
        | none => rfl
        | some b =>
          simp only [State.readRange_withOlder]
          exact mapNext_ite (fun _ => rfl) fun _ => rfl

theorem issueDecRestart_overlooks (d : Nat) : Overlooks r (issueDecRestart d) s :=
  onDec_withOlder fun _ => mapNext_ite (fun _ => rfl) fun _ => rfl

theorem issueDecFrame_overlooks (cache : Cache) (ref : Option (List Byte)) (w h : Word) (ch : Byte)
    (frame : List Byte) : Overlooks r (issueDecFrame cache ref w h ch frame) s :=
  mapNext_ite (fun _ => rfl) fun _ => rfl

/-! ### The step of the core -/

theorem issue_overlooks (c : Command) : Overlooks r (issue c) s := by
  cases c with
  | encodeImage w h ch cs pixels => exact issueEncodeImage_overlooks w h ch cs pixels
  | decodeImage bytes => rfl
  | encBegin e w h ch fr => exact issueEncBegin_overlooks e w h ch fr
  | encFrame e kind pixels => exact issueEncFrame_overlooks e kind pixels
  | encFlush e => exact issueEncFlush_overlooks e
  | decOpen d src => exact issueDecOpen_overlooks d src
  | decNext d => exact issueDecNext_overlooks d
  | decRestart d => exact issueDecRestart_overlooks d
  | decFrame cache ref w h ch frame => exact issueDecFrame_overlooks cache ref w h ch frame
  | other code => rfl

theorem hostStep_overlooks : Overlooks r hostStep s := by
  unfold Overlooks hostStep
  rw [State.withOlder_pending]
  cases s.io.pending with
  | nil => rfl
  | cons action rest =>
    cases action with
    | issue c => exact issue_overlooks (s := { s with io := { s.io with pending := rest } }) c
    | newEncoder => rfl
    | newDecoder => rfl
    | discardEncoder e =>
      exact onEnc_withOlder (s := { s with io := { s.io with pending := rest } }) fun _ => rfl
    | discardDecoder d =>
      exact onDec_withOlder (s := { s with io := { s.io with pending := rest } }) fun _ => rfl

theorem step_overlooks : Overlooks r step s := by
  unfold Overlooks step
  rw [State.withOlder_work]
  cases s.work.phase with
  | idle => exact hostStep_overlooks
  | imageHeader => exact tokenStep_overlooks
  | imageUnit => exact mapNext_ite (fun _ => tokenStep_overlooks) fun _ => exec_overlooks .terminator
  | containerHeader d src => exact tokenStep_overlooks
  | frameTag caller => exact tokenStep_overlooks
  | frameUnit caller => exact mapNext_ite (fun _ => tokenStep_overlooks) fun _ => commitFrame_overlooks caller
  | encImage => exact mapNext_ite (fun _ => encodeStep_overlooks) fun _ => rfl
  | encFrame e => exact mapNext_ite (fun _ => encodeStep_overlooks) fun _ => finishFrame_overlooks e

/-- One older result at a time, a step overlooks all of them. -/
theorem step_withEarlierResults (rs : List Result) :
    step (withEarlierResults s rs) = mapNext (fun t => withEarlierResults t rs) (step s) := by
  induction rs with
  | nil => cases h : step s <;> exact h
  | cons r rs ih =>
    rw [withEarlierResults_cons, step_overlooks, ih]
    cases step s <;> rfl

end

/-- Settles O49: a step of the state with earlier results is the step without them, with the same results put before
those of its next state. -/
theorem resultsAreNeverReadBack : Obligations.ResultsAreNeverReadBack := by
  intro s rs
  have hstep := step_withEarlierResults (s := s) rs
  exact ⟨fun t ht => by rw [hstep, ht, mapNext_next], fun r hr => by rw [hstep, hr, mapNext_fault],
    fun r hr => by rw [hstep, hr, mapNext_refused]⟩

end Sys2Proof.Machine
end

section
/-! PROOF. The reset values (R341, R342). -/

namespace Sys2Proof.Machine

/-- Settles O44: the reset state holds `Enc.reset` and `Dec.reset`, whose fields are the values stated. -/
theorem resetValuesOfBothInstances : Obligations.ResetValuesOfBothInstances := ⟨rfl, rfl⟩

end Sys2Proof.Machine
end

section
/-! PROOF. Instructions and their bytes (R90 to R113, R230): every well-formed token is read back from its encoding, and
an opcode read is the one whose encoding stands there. -/

namespace Sys2Proof.Machine

/-! ### Framing tokens read back -/

theorem decodeImageHeader_encode {w h : Word} {ch cs : Byte} (rest : List Byte) :
    decodeImageHeader (encode (.qoif w h ch cs) ++ rest) = .ok (.qoif w h ch cs) := by
  have hlen : 14 ≤ (encode (.qoif w h ch cs) ++ rest).length := by
    rw [List.length_append, length_encode]
    exact Nat.le_add_right ..
  have hw : u32At (encode (.qoif w h ch cs) ++ rest) 4 = w := ofBe32_be32 w
  have hh : u32At (encode (.qoif w h ch cs) ++ rest) 8 = h := ofBe32_be32 h
  rw [decodeImageHeader_fields hlen rfl, hw, hh]
  rfl

theorem decodeTerminator_encode (rest : List Byte) :
    decodeTerminator (encode .terminator ++ rest) = .ok .terminator := by
  rw [decodeTerminator]
  exact if_pos rfl

/-- The container header is read from its own bytes and a first read that begins as they do. -/
theorem decodeContainerHeader_encode {hs w h fr : Word} {ch : Byte} {n : Word} {offs : List Word} {b1 : List Byte}
    (hwf : (Instr.qov1 hs w h fr ch n offs).wellFormed = true) (hlen : 8 ≤ b1.length) (hmagic : b1.take 4 = magicQov1)
    (hread : u32At b1 4 = hs) (rest : List Byte) :
    decodeContainerHeader b1 (encode (.qov1 hs w h fr ch n offs) ++ rest) = .ok (.qov1 hs w h fr ch n offs) := by
  simp only [Instr.wellFormed, Bool.and_eq_true, decide_eq_true_eq] at hwf
  obtain ⟨⟨-, hsize⟩, hcount⟩ := hwf
  have hsize : hs.toNat = 25 + 4 * offs.length := by rw [hsize, hcount]; rfl
  have hwhole : hs.toNat ≤ (encode (.qov1 hs w h fr ch n offs) ++ rest).length := by
    rw [List.length_append, length_encode, hsize]
    exact Nat.le_add_right ..
  have htable : offsetTable (encode (.qov1 hs w h fr ch n offs) ++ rest) hs.toNat = offs := by
    rw [hsize]
    refine offsetTable_eq fun k hk => ?_
    rw [u32At_encode_qov1_offset _ _ _ _ _ _ _ _ (List.getElem?_eq_getElem hk), List.getElem?_eq_getElem hk]
  subst hread
  rw [decodeContainerHeader_fields hlen hmagic (by omega) hwhole, htable, u32At_encode_qov1_width,
    u32At_encode_qov1_height, u32At_encode_qov1_frameRate, u32At_encode_qov1_frameCount]
  rfl

/-- Settles O1: each token is read at its place by the decoder of that place, from the fields its encoding lays out. -/
theorem decodeOfEncodeIsTheInstruction : Obligations.DecodeOfEncodeIsTheInstruction := by
  intro i rest hwf
  cases i with
  | qoif w h ch cs => exact decodeImageHeader_encode rest
  | qov1 hs w h fr ch n offs =>
    refine decodeContainerHeader_encode hwf ?_ (take_encode_qov1 ..) (u32At_encode_qov1_headerSize ..) rest
    rw [List.length_append, length_encode, Instr.size, Config.containerFixedBytes]
    omega
  | frameIntra => exact decodeTag_intra rest
  | framePred => exact decodeTag_pred rest
  | terminator => exact decodeTerminator_encode rest
  | _ => exact decodeOpcode_encode rest rfl hwf

/-! ### What an opcode was read from -/

/-- The opcodes that can be read, each with the bytes it is read from: its tag and its fields (R92 to R98). -/
inductive OpcodeRead : List Byte → Instr → Prop
  | index (b0 : Byte) (rest : List Byte) (htag : b0.extractLsb' 6 2 = 0) :
      OpcodeRead (b0 :: rest) (.index (b0.extractLsb' 0 6))
  | diff (b0 : Byte) (rest : List Byte) (htag : b0.extractLsb' 6 2 = 1) :
      OpcodeRead (b0 :: rest) (.diff (unbias b0 4 2 2) (unbias b0 2 2 2) (unbias b0 0 2 2))
  | luma (b0 b1 : Byte) (rest : List Byte) (htag : b0.extractLsb' 6 2 = 2) :
      OpcodeRead (b0 :: b1 :: rest) (.luma (unbias b0 0 6 32) (unbias b1 4 4 8) (unbias b1 0 4 8))
  | run (b0 : Byte) (rest : List Byte) (htag : b0.extractLsb' 6 2 = 3) (hrgb : b0 ≠ 0xFE) (hrgba : b0 ≠ 0xFF) :
      OpcodeRead (b0 :: rest) (.run ((b0.extractLsb' 0 6).toNat + 1))
  | rgb (r g b : Byte) (rest : List Byte) : OpcodeRead (0xFE :: r :: g :: b :: rest) (.rgb r g b)
  | rgba (r g b a : Byte) (rest : List Byte) : OpcodeRead (0xFF :: r :: g :: b :: a :: rest) (.rgba r g b a)

theorem opcodeRead_of_decodeOpcode {bs : List Byte} {i : Instr} (h : decodeOpcode bs = .ok i) : OpcodeRead bs i := by
  cases bs with
  | nil => cases h
  | cons b0 rest =>
    simp only [decodeOpcode] at h
    split_ifs at h with hrgb hrgba h0 h1 h2
    · subst hrgb
      split at h <;> cases h
      exact .rgb _ _ _ _
    · subst hrgba
      split at h <;> cases h
      exact .rgba _ _ _ _ _
    · cases h
      exact .index b0 rest h0
    · cases h
      exact .diff b0 rest h1
    · split at h <;> cases h
      exact .luma b0 _ _ h2
    · cases h
      have htag : ∀ tag : BitVec 2, tag ≠ 0 → tag ≠ 1 → tag ≠ 2 → tag = 3 := by decide
      exact .run b0 rest (htag _ h0 h1 h2) hrgb hrgba

/-! ### The bytes of the opcode read -/

theorem rebias_unbias (b : Byte) (lo width : Nat) (bias : Int) :
    rebias (unbias b lo width bias) bias = (b.extractLsb' lo width).setWidth 8 := rebias_field _ bias

theorem unbias_range (b : Byte) (lo width : Nat) (bias : Int) :
    -bias ≤ unbias b lo width bias ∧ unbias b lo width bias < 2 ^ width - bias := by
  have hlt : ((b.extractLsb' lo width).toNat : Int) < 2 ^ width := by exact_mod_cast (b.extractLsb' lo width).isLt
  unfold unbias
  omega

theorem indexByte_of_fields : ∀ b : Byte, b.extractLsb' 6 2 = 0 → (b.extractLsb' 0 6).setWidth 8 = b := by decide

theorem diffByte_of_fields : ∀ b : Byte, b.extractLsb' 6 2 = 1 →
    0x40 ||| ((b.extractLsb' 4 2).setWidth 8 <<< 4) ||| ((b.extractLsb' 2 2).setWidth 8 <<< 2) |||
      (b.extractLsb' 0 2).setWidth 8 = b := by decide

theorem lumaByte_of_fields : ∀ b : Byte, b.extractLsb' 6 2 = 2 → 0x80 ||| (b.extractLsb' 0 6).setWidth 8 = b := by
  decide

theorem byte_of_nibbles : ∀ b : Byte,
    ((b.extractLsb' 4 4).setWidth 8 <<< 4) ||| (b.extractLsb' 0 4).setWidth 8 = b := by
  decide

theorem runByte_of_fields : ∀ b : Byte, b.extractLsb' 6 2 = 3 → 0xC0 ||| (b.extractLsb' 0 6).setWidth 8 = b := by
  decide

theorem runField_lt : ∀ b : Byte, b ≠ 0xFE → b ≠ 0xFF → b.extractLsb' 6 2 = 3 →
    (b.extractLsb' 0 6).toNat < 62 := by decide

section
variable {bs : List Byte} {i : Instr} (h : OpcodeRead bs i)
include h

/-- Every field stays within the range its width and bias give it, and 63 and 64 are no run lengths (R95, R99). -/
theorem OpcodeRead.wellFormed : i.wellFormed = true := by
  cases h with
  | index | rgb | rgba => rfl
  | diff b0 =>
    have hr := unbias_range b0 4 2 2
    have hg := unbias_range b0 2 2 2
    have hb := unbias_range b0 0 2 2
    exact wellFormed_diff_iff.2 (by omega)
  | luma b0 b1 =>
    have hg := unbias_range b0 0 6 32
    have hr := unbias_range b1 4 4 8
    have hb := unbias_range b1 0 4 8
    exact wellFormed_luma_iff.2 (by omega)
  | run b0 rest htag hrgb hrgba =>
    have hlt := runField_lt b0 hrgb hrgba htag
    exact wellFormed_run_iff.2 ⟨Nat.succ_pos _, hlt⟩

/-- The encoding puts every field back where it was read. -/
theorem OpcodeRead.take_size : bs.take i.size = encode i := by
  cases h with
  | index b0 rest htag => rw [encode, indexByte_of_fields b0 htag]; rfl
  | diff b0 rest htag => rw [encode, rebias_unbias, rebias_unbias, rebias_unbias, diffByte_of_fields b0 htag]; rfl
  | luma b0 b1 rest htag =>
    rw [encode, rebias_unbias, rebias_unbias, rebias_unbias, lumaByte_of_fields b0 htag, byte_of_nibbles]
    rfl
  | run b0 rest htag =>
    rw [encode, Nat.cast_succ, ← sub_neg_eq_add, rebias_field, runByte_of_fields b0 htag]
    rfl
  | rgb | rgba => rfl

end

/-- Settles O2: the bytes an opcode was read from are its tag and fields, which its encoding puts together again. -/
theorem encodeOfDecodedOpcodeIsTheBytesRead : Obligations.EncodeOfDecodedOpcodeIsTheBytesRead := fun _ _ hdecode =>
  have hread := opcodeRead_of_decodeOpcode hdecode
  ⟨hread.wellFormed, place_of_decodeOpcode hdecode, hread.take_size⟩

/-! ### The length the first byte decides -/

/-- The length of the opcode a first byte selects (R90, R98). -/
def opcodeLength (b0 : Byte) : Nat :=
  if b0.toNat < 128 then 1 else if b0.toNat < 192 then 2 else if b0.toNat ≤ 253 then 1
  else if b0.toNat = 254 then 4 else 5

theorem decodeOpcode_of_length {b0 : Byte} {rest : List Byte} (hlen : opcodeLength b0 ≤ rest.length + 1) :
    ∃ i, decodeOpcode (b0 :: rest) = .ok i ∧ i.size = opcodeLength b0 := by
  unfold opcodeLength at hlen ⊢
  split_ifs at hlen ⊢ with h128 h192 h253 h254
  · by_cases h64 : b0.toNat < 64
    · exact ⟨_, decodeOpcode_index (tag_of_quarter (Nat.zero_le _) h64) rest, rfl⟩
    · exact ⟨_, decodeOpcode_diff (tag_of_quarter (Nat.not_lt.1 h64) h128) rest, rfl⟩
  · obtain ⟨b1, rest, rfl⟩ := List.exists_cons_of_length_pos (Nat.le_of_succ_le_succ hlen)
    exact ⟨_, decodeOpcode_luma (tag_of_quarter (Nat.not_lt.1 h128) h192) b1 rest, rfl⟩
  · exact ⟨_, decodeOpcode_run_of_range (Nat.not_lt.1 h192) h253 rest, rfl⟩
  · obtain rfl : b0 = 0xFE := BitVec.eq_of_toNat_eq h254
    match rest, hlen with
    | r :: g :: b :: rest, _ => exact ⟨.rgb r g b, rfl, rfl⟩
  · obtain rfl : b0 = 0xFF := BitVec.eq_of_toNat_eq (by have := b0.isLt; simp; omega)
    match rest, hlen with
    | r :: g :: b :: a :: rest, _ => exact ⟨.rgba r g b a, rfl, rfl⟩

theorem opcodeLength_le (b0 : Byte) : opcodeLength b0 ≤ 5 := by
  unfold opcodeLength
  split_ifs <;> omega

/-- Settles O3: the length is a function of the first byte, and an opcode that is read with enough bytes is not read
with fewer. -/
theorem firstByteDecidesTheLength : Obligations.FirstByteDecidesTheLength := by
  refine fun b0 => ⟨opcodeLength b0, rfl, fun rest => ⟨decodeOpcode_of_length, fun hshort => ?_⟩⟩
  obtain ⟨i, hdecode, hsize⟩ := decodeOpcode_of_length (rest := List.replicate 4 0) (opcodeLength_le b0)
  exact decodeOpcode_short hdecode (hsize ▸ hshort)

/-- Settles O5: the decoder evaluated on each word. -/
theorem writtenOutWordsDecode : Obligations.WrittenOutWordsDecode := ⟨rfl, rfl, rfl, rfl, rfl, rfl, rfl, rfl, rfl⟩

end Sys2Proof.Machine
end

section
/-! PROOF. A single image coded and decoded again (R160 to R164): the whole of ENCODE_IMAGE, and the whole of
DECODE_IMAGE on what it returns. -/

namespace Sys2Proof.Machine

open Sys2Proof.Claims

/-- The working registers from which ENCODE_IMAGE codes an image (R160). -/
def imageUnit (w h : Word) (ch cs : Byte) (pixels : List Byte) : Work :=
  { Work.idle with phase := .encImage, w, h, ch, cs, inp := Memory.ofBytes pixels }

/-- The bytes of an image whose opcode stream is `body` (R160). -/
def imageFile (w h : Word) (ch cs : Byte) (body : List Byte) : List Byte :=
  encode (.qoif w h ch cs) ++ body ++ encode .terminator

section
variable {s : State} {w h : Word} {ch cs : Byte} {pixels : List Byte} (hidle : s.work = Work.idle)
  (hch : channelsLegal ch = true) (hcs : colorspaceLegal cs = true) (hmax : pixelCount w h ≤ s.maxPixels)

/-! ### ENCODE_IMAGE -/

section
variable (hlen : pixels.length = bufferLength w h ch)
include hidle hch hcs hlen hmax

/-- ENCODE_IMAGE codes the whole unit, one pixel a step. -/
theorem run_encodeImage_unit : ∃ wk body,
    Host.Core.run core (pixelCount w h + 1) (queue s (.encodeImage w h ch cs pixels)) =
      .next { s.drained with work := wk } ∧
    wk.i = wk.npx ∧ wk.Coded s.hash (imageUnit w h ch cs pixels) body := by
  have hissue : step (queue s (.encodeImage w h ch cs pixels)) =
      .next { s.drained with work := imageUnit w h ch cs pixels } := by
    rw [step_queue hidle, issue, issueEncodeImage_legal (channelsLegal_iff.1 hch) (colorspaceLegal_iff.1 hcs),
      if_neg (not_not.2 hlen)]
    exact if_neg (Nat.not_lt.2 hmax)
  obtain ⟨wk, body, hreach, hi, hcoded⟩ :=
    encode_pixels (s := { s.drained with work := imageUnit w h ch cs pixels }) (n := pixelCount w h) (.inl rfl)
      (.start hch hlen nofun rfl rfl rfl rfl) rfl rfl rfl le_rfl
  refine ⟨wk, body, (run_succ_of_next _ hissue).trans hreach, ?_, hcoded⟩
  rw [hi, hcoded.frame]
  rfl

end

section
variable {wk : Work} {body : List Byte} (hcoded : wk.Coded s.hash (imageUnit w h ch cs pixels) body)
  (hend : wk.i = wk.npx)
include hidle hcoded hend

/-- The last step of ENCODE_IMAGE lays the framing tokens around the opcode stream. -/
theorem step_encodeImage_result :
    step { s.drained with work := wk } = .next (answered s (.image (imageFile w h ch cs body))) := by
  have hphase : wk.phase = .encImage := by rw [hcoded.frame]; rfl
  have hw : wk.w = w := by rw [hcoded.frame]; rfl
  have hh : wk.h = h := by rw [hcoded.frame]; rfl
  have hch : wk.ch = ch := by rw [hcoded.frame]; rfl
  have hcs : wk.cs = cs := by rw [hcoded.frame]; rfl
  rw [step_encImage_end hphase hend.ge, finishImage, finish_drained hidle]
  dsimp only
  rw [hw, hh, hch, hcs, hcoded.output, Memory.toBytes_ofBytes]
  rfl

end

/-! ### DECODE_IMAGE -/

/-- The working registers from which DECODE_IMAGE reads the header (R161). -/
def headerWork (bytes : List Byte) : Work :=
  { Work.idle with phase := .imageHeader, inp := Memory.ofBytes bytes }

theorem size_headerWork (w h : Word) (ch cs : Byte) (body : List Byte) :
    (headerWork (imageFile w h ch cs body)).inp.size = 14 + body.length + 8 := by
  rw [headerWork, Memory.size_ofBytes, imageFile, List.length_append, List.length_append]
  rfl

/-- The unit that DECODE_IMAGE decodes, between the header and the terminator (R150, R161). -/
def decodeUnit (w h : Word) (ch cs : Byte) (body : List Byte) : Work :=
  { headerWork (imageFile w h ch cs body) with w, h, ch, cs }.startUnit .imageUnit .intra 14
    ((headerWork (imageFile w h ch cs body)).inp.size - 8) Cache.zero none

include hch hcs hmax in
theorem step_header_imageFile (body : List Byte) :
    step { s.drained with work := headerWork (imageFile w h ch cs body) } =
      .next { s.drained with work := decodeUnit w h ch cs body } := by
  have hsize := size_headerWork w h ch cs body
  have hdecode : decodeImageHeader (imageFile w h ch cs body) = .ok (.qoif w h ch cs) := by
    rw [imageFile, List.append_assoc, decodeImageHeader_encode]
  have hfetch := Work.fetch_image (s := { s.drained with work := headerWork (imageFile w h ch cs body) }) rfl rfl
  rw [step_imageHeader rfl, tokenStep_of_fetch_ok (hfetch.trans (congrArg some hdecode))]
  exact execQoif_starts (s := { s.drained with work := headerWork (imageFile w h ch cs body) }) rfl
    (channelsLegal_iff.1 hch) (colorspaceLegal_iff.1 hcs) (by dsimp only; omega) hmax

/-- The opcode stream stands at the start of the unit, and fills it. -/
theorem decodeUnit_holds (w h : Word) (ch cs : Byte) (body : List Byte) :
    (decodeUnit w h ch cs body).Holds (body ++ []) := by
  rw [List.append_nil]
  refine ⟨?_, ?_⟩
  · rw [decodeUnit, Work.startUnit_ptr, Work.startUnit_endp, size_headerWork, Nat.add_sub_cancel]
  · rw [decodeUnit, Work.startUnit_inp, headerWork, Work.startUnit_ptr, Memory.readBytes_ofBytes, imageFile,
      List.append_assoc]
    exact List.take_left

/-- The decoder starts where the encoder did (R131, R157). -/
theorem decodeUnit_mirrors (w h : Word) (ch cs : Byte) (pixels body : List Byte) :
    (decodeUnit w h ch cs body).Mirrors (imageUnit w h ch cs pixels) := by
  refine ⟨rfl, rfl, rfl, rfl, rfl, rfl, rfl, rfl, ?_⟩
  rw [show (imageUnit w h ch cs pixels).i = 0 from rfl, Nat.zero_mul, List.take_zero]
  rfl

include hidle hch hcs hmax in
/-- DECODE_IMAGE on the bytes of the coded image gives its pixels. -/
theorem run_decodeImage_coded {wk : Work} {body : List Byte}
    (hcoded : wk.Coded s.hash (imageUnit w h ch cs pixels) body) (hend : wk.i = wk.npx) : ∃ k,
    Host.Core.run core k (queue s (.decodeImage (imageFile w h ch cs body))) =
      .next (answered s (.decodedImage w h ch cs pixels)) := by
  have hissue : step (queue s (.decodeImage (imageFile w h ch cs body))) =
      .next { s.drained with work := headerWork (imageFile w h ch cs body) } := step_queue hidle _
  obtain ⟨k, dec, hreach, hcont, -, hdone, -, hout⟩ := hcoded.decode hend
    (s := { s.drained with work := decodeUnit w h ch cs body }) rfl (.inl rfl) (decodeUnit_mirrors ..)
    (decodeUnit_holds ..)
  have hinp : wk.inp = Memory.ofBytes pixels := by rw [hcoded.frame]; rfl
  have hphase : dec.phase = .imageUnit := by rw [hcont]; rfl
  have hw : dec.w = w := by rw [hcont]; rfl
  have hh : dec.h = h := by rw [hcont]; rfl
  have hch' : dec.ch = ch := by rw [hcont]; rfl
  have hcs' : dec.cs = cs := by rw [hcont]; rfl
  have hresult : step { s.drained with work := dec } = .next (answered s (.decodedImage w h ch cs pixels)) := by
    rw [step_image_complete hphase hdone.ge, finish_drained hidle]
    dsimp only
    rw [hw, hh, hch', hcs', hout, hinp, Memory.toBytes_ofBytes]
  refine ⟨k + 1 + 1 + 1, ?_⟩
  rw [run_succ_of_next _ hissue, run_succ_of_next _ (step_header_imageFile hch hcs hmax body), run_add k 1 hreach]
  exact run_succ_of_next 0 hresult

end

/-- Settles O58: the encoder's walk emits an opcode stream that a decoder in its place decodes, and the header of the
image puts DECODE_IMAGE in that place. -/
theorem imageRoundTrip : Obligations.ImageRoundTrip := by
  intro s w h ch cs pixels hidle hch hcs hlen hmax
  obtain ⟨wk, body, hrun, hend, hcoded⟩ := run_encodeImage_unit hidle hch hcs hmax hlen
  obtain ⟨k, hdecode⟩ := run_decodeImage_coded hidle hch hcs hmax hcoded hend
  refine ⟨pixelCount w h + 1 + 1, k, imageFile w h ch cs body, ?_, hdecode⟩
  rw [run_add _ 1 hrun]
  exact run_succ_of_next 0 (step_encodeImage_result hidle hcoded hend)

end Sys2Proof.Machine
end

section
/-! PROOF. The container ENC_FLUSH returns, opened again (R235, R262, R264): its offsets are valid, its header is read
back, and every frame stands at its span. -/

namespace Sys2Proof.Machine

open Sys2Proof.Claims

/-! ### The offsets written -/

/-- The offsets of frames that follow one another, none of them empty, are valid within any space that holds the frames
(R262). -/
theorem firstBadOffset_frameOffsets {frames : List (List Byte)} (hne : ∀ f ∈ frames, f ≠ []) {o low len : Nat}
    (k : Nat) (hlow : low ≤ o) (hlen : o + (frames.map List.length).sum ≤ len) (hmax : len < 2 ^ 32) :
    firstBadOffset len k low (frameOffsets o frames) = none := by
  induction frames generalizing o low k with
  | nil => rfl
  | cons f frames ih =>
    rw [List.map_cons, List.sum_cons] at hlen
    have hpos : 0 < f.length := List.length_pos_iff.2 (hne f List.mem_cons_self)
    have ho : (BitVec.ofNat 32 o).toNat = o := by rw [BitVec.toNat_ofNat]; exact Nat.mod_eq_of_lt (by omega)
    rw [frameOffsets, firstBadOffset, ho, if_neg (by omega)]
    exact ih (fun g hg => hne g (List.mem_cons_of_mem f hg)) (k + 1) (by omega) (by omega)

section
variable {enc : Enc} {m : Nat} (hgood : enc.Good m)
include hgood

theorem Enc.Good.blob_lt : enc.blob.length < 2 ^ 32 := by
  rw [Enc.length_blob]
  exact Nat.lt_succ_of_le hgood.blob

theorem Enc.Good.frames_lt : 25 + 4 * enc.frames.length + (enc.frames.map List.length).sum < 2 ^ 32 :=
  Nat.lt_succ_of_le hgood.blob

theorem Enc.Good.toNat_headerSize :
    (BitVec.ofNat 32 (headerSize enc.frames.length)).toNat = 25 + 4 * enc.frames.length := by
  have hlt := hgood.frames_lt
  rw [BitVec.toNat_ofNat, headerSize_eq]
  exact Nat.mod_eq_of_lt (by omega)

theorem Enc.Good.toNat_frameCount : (BitVec.ofNat 32 enc.frames.length).toNat = enc.frames.length := by
  have hlt := hgood.frames_lt
  rw [BitVec.toNat_ofNat]
  exact Nat.mod_eq_of_lt (by omega)

theorem Enc.Good.offsets_valid :
    firstBadOffset enc.blob.length 0 (BitVec.ofNat 32 (headerSize enc.frames.length)).toNat
      (frameOffsets (headerSize enc.frames.length) enc.frames) = none := by
  rw [hgood.toNat_headerSize]
  refine firstBadOffset_frameOffsets hgood.tagged 0 (headerSize_eq _).ge ?_ hgood.blob_lt
  rw [Enc.length_blob]
  exact le_rfl

theorem Enc.Good.header_wellFormed (hopen : enc.mode = .opened) : enc.header.wellFormed = true := by
  simp only [Enc.header, Instr.wellFormed, hgood.channels hopen, hgood.toNat_headerSize, hgood.toNat_frameCount,
    length_frameOffsets, Config.containerFixedBytes, decide_true, Bool.and_self]

end

/-! ### The decoder that reads the blob -/

/-- The decoder that a DEC_OPEN of the encoder's blob leaves (R263). -/
def Enc.reader (enc : Enc) : Dec :=
  { mode := .opened, w := enc.w, h := enc.h, ch := enc.ch, fr := enc.fr, n := BitVec.ofNat 32 enc.frames.length,
    hs := BitVec.ofNat 32 (headerSize enc.frames.length),
    off := frameOffsets (headerSize enc.frames.length) enc.frames, len := enc.blob.length,
    src := some ⟨enc.blob, enc.blob.length⟩, next := 0, cache := Cache.zero, ref := none }

/-- The position of frame k in the blob (R253). -/
def Enc.frameStart (enc : Enc) (k : Nat) : Nat :=
  25 + 4 * enc.frames.length + ((enc.frames.take k).map List.length).sum

section
variable {enc : Enc} {m : Nat} (hgood : enc.Good m) {k : Nat}
include hgood

theorem Enc.Good.reader_offset (hk : k < enc.frames.length) :
    ∃ a : Word, enc.reader.off[k]? = some a ∧ a.toNat = enc.frameStart k := by
  refine ⟨_, getElem?_frameOffsets _ hk, ?_⟩
  have hlt := hgood.frames_lt
  have hsum := sum_take_length_le enc.frames k
  rw [BitVec.toNat_ofNat, headerSize_eq]
  exact Nat.mod_eq_of_lt (by omega)

/-- The span of a frame ends where the next one starts, or with the blob (R235). -/
theorem Enc.Good.reader_spanEnd (hk : k < enc.frames.length) :
    enc.reader.spanEnd k = some (enc.frameStart (k + 1)) := by
  have hn : enc.reader.n.toNat = enc.frames.length := hgood.toNat_frameCount
  by_cases hlast : k + 1 < enc.frames.length
  · obtain ⟨a, ha, hstart⟩ := hgood.reader_offset hlast
    rw [Dec.spanEnd_of_offset (by rw [hn]; exact hlast) ha, hstart]
  · rw [Dec.spanEnd_of_last (by omega), Enc.frameStart, List.take_of_length_le (Nat.not_lt.1 hlast)]
    exact congrArg some enc.length_blob

theorem Enc.Good.reader_span (hopen : enc.mode = .opened) {f : List Byte} (hf : enc.frames[k]? = some f) :
    ∃ (a : Word) (b : Nat), enc.reader.off[k]? = some a ∧ enc.reader.spanEnd k = some b ∧
      (enc.blob.drop a.toNat).take (b - a.toNat) = f := by
  obtain ⟨hk, hget⟩ := List.getElem?_eq_some_iff.1 hf
  obtain ⟨a, ha, hstart⟩ := hgood.reader_offset hk
  refine ⟨a, _, ha, hgood.reader_spanEnd hk, ?_⟩
  obtain ⟨-, -, -, -, -, -, -, -, hframes⟩ := blobHoldsHeaderTableAndFrames enc m hgood hopen
  obtain ⟨o, ho, -, hspan⟩ := hframes k f hf
  have hnext : enc.frameStart (k + 1) = enc.frameStart k + f.length := by
    rw [Enc.frameStart, List.take_succ_eq_append_getElem hk, List.map_append, List.sum_append, hget,
      List.map_singleton, List.sum_singleton, Enc.frameStart, Nat.add_assoc (25 + 4 * enc.frames.length)]
  subst ho
  rw [hnext, hstart, Nat.add_sub_cancel_left]
  exact hspan

end

/-! ### ENC_FLUSH and DEC_OPEN -/

/-- The state after ENC_FLUSH of the encoder `enc`, number e (R252, R254). -/
def State.flushed (s : State) (e : Nat) (enc : Enc) : State :=
  answered (s.putEnc e (some Enc.reset)) (.blob enc.blob)

theorem step_encFlush {s : State} {e : Nat} {enc : Enc} (hidle : s.work = Work.idle) (hopen : enc.mode = .opened)
    (henc : s.encAt e = some enc) : step (queue s (.encFlush e)) = .next (s.flushed e enc) := by
  rw [step_queue hidle, issue, issueEncFlush, State.onEnc_some (s := s.drained) henc,
    if_neg (Enc.isOpen_of_mode hopen)]
  exact congrArg _ (finish_drained (s := s.putEnc e _) hidle s.work _)

/-- The working registers of DEC_OPEN after its two reads, of the first 8 bytes of the blob and of its header (R260). -/
def Enc.openWork (enc : Enc) (d : Nat) : Work :=
  { Work.idle with phase := .containerHeader d ⟨enc.blob, enc.blob.length⟩, pre := enc.blob.take 8,
                   inp := Memory.ofBytes (encode enc.header) }

theorem Enc.u32At_openWork_pre (enc : Enc) (d : Nat) :
    u32At (enc.openWork d).pre 4 = BitVec.ofNat 32 (headerSize enc.frames.length) := ofBe32_be32 _

section
variable {s : State} {enc : Enc} {d : Nat} {before : Dec} (hidle : s.work = Work.idle)
  (hgood : enc.Good s.maxPixels) (hopen : enc.mode = .opened) (hdec : s.decAt d = some before)

theorem Enc.length_openWork_pre (enc : Enc) (d : Nat) : (enc.openWork d).pre.length = 8 := by
  rw [Enc.openWork, List.length_take, Enc.length_blob, blobLength, Config.containerFixedBytes]
  omega

include hidle hgood hdec in
theorem step_decOpen_blob (hreplies : s.io.replies = []) :
    step (queue s (.decOpen d ⟨enc.blob, enc.blob.length⟩)) = .next { s.drained with work := enc.openWork d } := by
  have hread := State.readPrefix_stable (s := s.drained) hreplies ⟨enc.blob, enc.blob.length⟩
  have hsize : (u32At (enc.openWork d).pre 4).toNat = (encode enc.header).length := by
    rw [Enc.u32At_openWork_pre, hgood.toNat_headerSize, length_encode_header]
  have hle : 25 ≤ (u32At (enc.openWork d).pre 4).toNat := by
    rw [hsize, length_encode_header]
    omega
  have htake : enc.blob.take (u32At (enc.openWork d).pre 4).toNat = encode enc.header := by
    rw [hsize, Enc.blob, List.take_left]
  rw [step_queue hidle, Enc.openWork, ← htake]
  exact issueDecOpen_two_reads (s := s.drained) hdec (hread 8) (enc.length_openWork_pre d).ge rfl hle (hread _)

include hidle hgood hopen hdec in
/-- The header of the blob passes every check, and opens the decoder that reads the blob. -/
theorem step_openWork : step { s.drained with work := enc.openWork d } =
    .next (answered (s.putDec d (some enc.reader))
      (.opened enc.w enc.h enc.ch enc.fr (BitVec.ofNat 32 enc.frames.length))) := by
  have hdecode : decodeContainerHeader (enc.openWork d).pre (encode enc.header) = .ok enc.header := by
    have h := decodeContainerHeader_encode (hgood.header_wellFormed hopen) (enc.length_openWork_pre d).ge rfl
      (enc.u32At_openWork_pre d) []
    rwa [List.append_nil] at h
  have hsize : (BitVec.ofNat 32 (headerSize enc.frames.length)).toNat =
      25 + 4 * (BitVec.ofNat 32 enc.frames.length).toNat := by rw [hgood.toNat_headerSize, hgood.toNat_frameCount]
  rw [step_container_token (s := { s.drained with work := enc.openWork d }) rfl rfl hdecode]
  refine (execQov1_opens (s := { s.drained with work := enc.openWork d }) rfl
    (channelsLegal_iff.1 (hgood.channels hopen)) hsize hgood.offsets_valid hdec (hgood.pixels hopen)).trans ?_
  exact congrArg _ (finish_drained (s := s.putDec d _) hidle (enc.openWork d) _)

end

/-- Settles O60: the blob is the header and the frames, so DEC_OPEN reads the header back and its offsets, which are
valid, give each frame its span. -/
theorem flushedContainerOpensWithItsFrames : Obligations.FlushedContainerOpensWithItsFrames := by
  intro s e d enc before hinv hidle henc hopen hdec hreplies
  have hgood := hinv.enc e enc henc
  have hread := step_decOpen_blob (s := s.flushed e enc) hidle hgood hdec hreplies
  have hheader := step_openWork (s := s.flushed e enc) hidle hgood hopen hdec
  exact ⟨s.flushed e enc, _, enc.reader, run_succ_of_next 0 (step_encFlush hidle hopen henc), rfl,
    (run_succ_of_next 1 hread).trans (run_succ_of_next 0 hheader), rfl,
    State.decAt_putDec_self (s := s.flushed e enc) hdec _, rfl, hgood.toNat_frameCount, length_frameOffsets _ _,
    fun k f => hgood.reader_span hopen⟩

end Sys2Proof.Machine
end

section
/-! PROOF. Intra frames are context-free (R217): the tag starts a unit in which nothing of the carried state is left. -/

namespace Sys2Proof.Machine

open Sys2Proof.Claims

/-- The unit of an Intra frame that DEC_FRAME decodes, whatever state it is given (R202, R279). -/
def intraUnit (w h : Word) (ch : Byte) (body : List Byte) : Work :=
  (frameWork .perFrame (0x00 :: body) 0 w h ch Cache.zero none).startUnit (.frameUnit .perFrame) .intra 1
    (body.length + 1) Cache.zero none

theorem run_decFrame_intra {s : State} {w h : Word} {ch : Byte} {ref : Option (List Byte)} (hidle : s.work = Work.idle)
    (hlegal : frameArgumentsLegal ref w h ch = true) (cache : Cache) (body : List Byte) :
    Host.Core.run core 2 (queue s (.decFrame cache ref w h ch (0x00 :: body))) =
      .next { s.drained with work := intraUnit w h ch body } := by
  have hissue : step (queue s (.decFrame cache ref w h ch (0x00 :: body))) =
      .next { s.drained with work := frameWork .perFrame (0x00 :: body) 0 w h ch cache (ref.map Memory.ofBytes) } :=
    (step_queue hidle _).trans (if_pos hlegal)
  exact (run_succ_of_next 1 hissue).trans (run_succ_of_next 0 (step_tag (kind := .intra) rfl rfl nofun))

/-- Settles O20: after its tag the unit of an Intra frame is the same for every cache and reference. -/
theorem intraFramesAreContextFree : Obligations.IntraFramesAreContextFree :=
  fun _ _ _ _ body c1 c2 _ _ hidle h1 h2 =>
    ⟨_, run_decFrame_intra hidle h1 c1 body, run_decFrame_intra hidle h2 c2 body, rfl, rfl, rfl⟩

end Sys2Proof.Machine
end

section
/-! PROOF. The canonical form of every byte space (spec/20_memory.md sections 1 and 5): every step writes byte
spaces by the operations that keep it, and an encoder or decoder takes its reference from one of them. -/

namespace Sys2Proof.Machine

/-! ### What the canonical form asks of a new state -/

/-- The byte spaces of the working registers are in canonical form. -/
structure Work.SpacesWf (wk : Work) : Prop where
  input : wk.inp.wf
  output : wk.out.wf
  reference : ∀ r, wk.ref = some r → r.wf

/-- A command that starts from the idle registers brings an input and a reference. -/
theorem Work.spacesWf_idle : Work.idle.SpacesWf := ⟨.nil, .nil, nofun⟩

section
variable {s t : State} (h : s.MemoryWf)
include h

theorem State.MemoryWf.work : s.work.SpacesWf := by
  obtain ⟨hinp, hout, href, -⟩ := h
  exact ⟨hinp, hout, href⟩

theorem State.MemoryWf.encRefs : ∀ e enc r, s.encAt e = some enc → enc.ref = some r → r.wf := by
  obtain ⟨-, -, -, hencs, -⟩ := h
  exact hencs

theorem State.MemoryWf.decRefs : ∀ d dec r, s.decAt d = some dec → dec.ref = some r → r.wf := by
  obtain ⟨-, -, -, -, hdecs⟩ := h
  exact hdecs

theorem State.MemoryWf.with_io (io : HostSide) : ({ s with io := io } : State).MemoryWf := h

theorem State.MemoryWf.with_work {wk : Work} (hwk : wk.SpacesWf) : ({ s with work := wk } : State).MemoryWf :=
  ⟨hwk.input, hwk.output, hwk.reference, h.encRefs, h.decRefs⟩

theorem State.MemoryWf.finish (r : Result) : (s.finish r).MemoryWf := (h.with_io _).with_work Work.spacesWf_idle

theorem State.MemoryWf.abort (c : ErrorCode) (n : Option Nat) : (s.abort c n).MemoryWf := h.finish _

theorem State.MemoryWf.putEnc {e : Nat} {x : Option Enc} (hx : ∀ enc r, x = some enc → enc.ref = some r → r.wf) :
    (s.putEnc e x).MemoryWf := by
  refine ⟨h.work.input, h.work.output, h.work.reference, fun k enc r henc hr => ?_, h.decRefs⟩
  rw [State.encAt_putEnc] at henc
  split_ifs at henc
  · exact hx enc r henc hr
  · exact h.encRefs _ enc r henc hr

theorem State.MemoryWf.putDec {d : Nat} {x : Option Dec} (hx : ∀ dec r, x = some dec → dec.ref = some r → r.wf) :
    (s.putDec d x).MemoryWf := by
  refine ⟨h.work.input, h.work.output, h.work.reference, h.encRefs, fun k dec r hdec hr => ?_⟩
  rw [State.decAt_putDec] at hdec
  split_ifs at hdec
  · exact hx dec r hdec hr
  · exact h.decRefs _ dec r hdec hr

end

/-! ### The working registers -/

section
variable {wk : Work} (h : wk.SpacesWf)
include h

theorem Work.SpacesWf.emit1 (p : Px) : (wk.emit1 p).SpacesWf :=
  ⟨h.input, Memory.wf_writePixel h.output wk.ch wk.i p, h.reference⟩

theorem Work.SpacesWf.remember (hashOf : Px → Slot) (p : Px) : (wk.remember hashOf p).SpacesWf :=
  ⟨h.input, h.output, h.reference⟩

theorem Work.SpacesWf.with_ptr (ptr : Nat) : ({ wk with ptr } : Work).SpacesWf := ⟨h.input, h.output, h.reference⟩

theorem Work.SpacesWf.emitRun {n : Nat} {wk' : Work} (hrun : wk.emitRun n = some wk') : wk'.SpacesWf := by
  have hout := Work.emitRun_wf hrun h.output
  rw [Work.emitRun_frame hrun]
  exact ⟨h.input, hout, h.reference⟩

theorem Work.SpacesWf.encodePixel (hashOf : Px → Slot) (pred cur : Px) :
    (wk.encodePixel hashOf pred cur).SpacesWf := by
  have hout := Work.encodePixel_wf h.output hashOf pred cur
  rw [Work.encodePixel_frame]
  exact ⟨h.input, hout, h.reference⟩

/-- A unit starts with an empty output (R343). -/
theorem Work.SpacesWf.startUnit {ref : Option Memory} (href : ∀ r, ref = some r → r.wf) (phase : Phase)
    (kind : FrameKind) (ptr endp : Nat) (cache : Cache) :
    (wk.startUnit phase kind ptr endp cache ref).SpacesWf := ⟨h.input, .nil, href⟩

end

/-- A command starts on a byte sequence and, for a frame, a reference (R79). -/
theorem Work.spacesWf_start {wk : Work} {bs : List Byte} (hinp : wk.inp = Memory.ofBytes bs) (hout : wk.out = [])
    (href : ∀ r, wk.ref = some r → r.wf) : wk.SpacesWf := ⟨hinp ▸ Memory.wf_ofBytes bs, hout ▸ .nil, href⟩

/-! ### The tokens -/

/-- The next state of the outcome, where there is one, has every byte space in canonical form. -/
abbrev KeepsWf (o : Host.Outcome State Fault Refusal) : Prop := Ensures State.MemoryWf o

section
variable {s : State} (h : s.MemoryWf)
include h

theorem onePixel_keepsWf (n : Nat) (writes : Bool) (px : Option Px) : KeepsWf (s.onePixel n writes px) := by
  obtain ⟨-, ho⟩ | ⟨-, -, ho⟩ | ⟨-, -, -, ho⟩ | ⟨-, -, p, -, ho⟩ := s.onePixel_cases n writes px
  · exact ho ▸ trivial
  · exact ho ▸ h.abort ..
  · exact ho ▸ trivial
  · rw [ho]
    cases writes with
    | false => exact h.with_work ((h.work.emit1 p).with_ptr _)
    | true => exact h.with_work (((h.work.remember s.hash p).emit1 p).with_ptr _)

theorem execRun_keepsWf (n : Nat) : KeepsWf (execRun n s) := by
  refine ensures_ite (fun _ => ensures_ite (fun _ => ?_) fun _ => h.abort ..) fun _ => trivial
  split
  · trivial
  · next wk hrun => exact h.with_work ((h.work.emitRun hrun).with_ptr _)

theorem execQoif_keepsWf (w ht : Word) (ch cs : Byte) : KeepsWf (execQoif w ht ch cs s) := by
  unfold execQoif
  split
  · have hwork : ({ s.work with w, h := ht, ch, cs } : Work).SpacesWf :=
      ⟨h.work.input, h.work.output, h.work.reference⟩
    exact ensures_ite (fun _ => h.abort ..) fun _ => ensures_ite (fun _ => h.abort ..) fun _ =>
      ensures_ite (fun _ => h.abort ..) fun _ => ensures_ite (fun _ => h.abort ..) fun _ =>
      h.with_work (hwork.startUnit (ref := none) nofun ..)
  all_goals trivial

theorem execTerminator_keepsWf : KeepsWf (execTerminator s) := by
  unfold execTerminator
  split
  · exact ensures_ite (fun _ => h.finish _) fun _ => ensures_ite (fun _ => h.abort ..) fun _ => trivial
  all_goals trivial

theorem execFrameIntra_keepsWf : KeepsWf (execFrameIntra s) := by
  unfold execFrameIntra
  split
  · exact h.with_work (h.work.startUnit (ref := none) nofun ..)
  all_goals trivial

theorem execFramePred_keepsWf : KeepsWf (execFramePred s) := by
  unfold execFramePred
  split
  · exact ensures_ite (fun _ => h.with_work (h.work.startUnit h.work.reference ..)) fun _ => h.abort ..
  all_goals trivial

/-- The session a header opens holds no reference (R263). -/
theorem execQov1_keepsWf (hs w ht fr : Word) (ch : Byte) (n : Word) (offs : List Word) :
    KeepsWf (execQov1 hs w ht fr ch n offs s) := by
  unfold execQov1
  split
  · refine ensures_ite (fun _ => h.abort ..) fun _ => ensures_ite (fun _ => h.abort ..) fun _ =>
      ensures_ite (fun _ => h.abort ..) fun _ => ?_
    split
    · exact h.abort ..
    · refine ensures_ite (fun _ => h.abort ..) fun _ => ?_
      split
      · trivial
      · exact (h.putDec fun dec r hdec hr => by cases hdec; cases hr).finish _
  all_goals trivial

theorem exec_keepsWf (i : Instr) : KeepsWf (exec i s) := by
  cases i with
  | index k => exact onePixel_keepsWf h 1 false (some (cacheRead s.work.wcache k))
  | diff dr dg db => exact onePixel_keepsWf h _ _ _
  | luma dg drg dbg => exact onePixel_keepsWf h _ _ _
  | run n => exact execRun_keepsWf h n
  | rgb r g b => exact onePixel_keepsWf h _ _ _
  | rgba r g b a => exact onePixel_keepsWf h 5 true (some ⟨r, g, b, a⟩)
  | frameIntra => exact execFrameIntra_keepsWf h
  | framePred => exact execFramePred_keepsWf h
  | qoif w ht ch cs => exact execQoif_keepsWf h w ht ch cs
  | terminator => exact execTerminator_keepsWf h
  | qov1 hs w ht fr ch n offs => exact execQov1_keepsWf h hs w ht fr ch n offs

theorem tokenStep_keepsWf : KeepsWf (tokenStep s) := ensures_tokenStep h.finish (exec_keepsWf h)

/-! ### The encoder's walk and the ends of the units -/

theorem encodeStep_keepsWf : KeepsWf (encodeStep s) := by
  unfold encodeStep
  split
  · trivial
  · split
    · trivial
    · exact h.with_work (h.work.encodePixel ..)

/-- The new reference of a decoder is the output of the unit (R211). -/
theorem commitFrame_keepsWf (caller : FrameCaller) : KeepsWf (commitFrame caller s) := by
  unfold commitFrame
  split
  · split
    · trivial
    · refine (h.putDec fun dec r hdec hr => ?_).finish _
      cases hdec
      cases hr
      exact h.work.output
  · exact h.finish _

/-- The new reference of an encoder is the input of the unit (R211). -/
theorem finishFrame_keepsWf (e : Nat) : KeepsWf (finishFrame e s) := by
  unfold finishFrame
  split
  · trivial
  · refine ensures_ite (fun _ => h.abort ..) fun _ => (h.putEnc fun enc r henc hr => ?_).finish _
    cases henc
    cases hr
    exact h.work.input

/-! ### The starts of the commands -/

theorem issueEncodeImage_keepsWf (w ht : Word) (ch cs : Byte) (pixels : List Byte) :
    KeepsWf (issueEncodeImage w ht ch cs pixels s) :=
  ensures_ite (fun _ => h.abort ..) fun _ => ensures_ite (fun _ => h.abort ..) fun _ =>
    ensures_ite (fun _ => h.abort ..) fun _ => h.with_work (Work.spacesWf_start rfl rfl nofun)

theorem issueEncBegin_keepsWf (e : Nat) (w ht : Word) (ch : Byte) (fr : Word) :
    KeepsWf (issueEncBegin e w ht ch fr s) :=
  ensures_onEnc fun _ _ => ensures_ite (fun _ => h.abort ..) fun _ => ensures_ite (fun _ => h.abort ..) fun _ =>
    (h.putEnc fun enc r henc hr => by cases henc; cases hr).finish _

theorem issueEncFrame_keepsWf (e : Nat) (kind : FrameKind) (pixels : List Byte) :
    KeepsWf (issueEncFrame e kind pixels s) :=
  ensures_onEnc fun enc henc => ensures_ite (fun _ => h.abort ..) fun _ => ensures_ite (fun _ => h.abort ..) fun _ =>
    ensures_ite (fun _ => h.abort ..) fun _ => by
      cases kind with
      | intra => exact h.with_work (Work.spacesWf_start rfl rfl nofun)
      | predictive => exact h.with_work (Work.spacesWf_start rfl rfl fun r => h.encRefs e enc r henc)

theorem issueEncFlush_keepsWf (e : Nat) : KeepsWf (issueEncFlush e s) :=
  ensures_onEnc fun _ _ => ensures_ite (fun _ => h.abort ..) fun _ =>
    (h.putEnc fun enc r henc hr => by cases henc; cases hr).finish _

theorem issueDecOpen_keepsWf (d : Nat) (src : Source) : KeepsWf (issueDecOpen d src s) :=
  ensures_onDec fun _ _ => by
    dsimp only
    split
    · rw [State.readPrefix_frame]
      exact (h.with_io _).with_work (Work.spacesWf_start (bs := []) rfl rfl nofun)
    · rw [State.readPrefix_frame, State.readPrefix_frame]
      exact (h.with_io _).with_work (Work.spacesWf_start rfl rfl nofun)

theorem issueDecNext_keepsWf (d : Nat) : KeepsWf (issueDecNext d s) :=
  ensures_onDec fun dec hdec => ensures_ite (fun _ => h.abort ..) fun _ => ensures_ite (fun _ => h.finish _) fun _ => by
    split
    · trivial
    · split
      · dsimp only
        rw [State.readRange_frame]
        exact ensures_ite (fun _ => (h.with_io _).abort ..) fun _ =>
          (h.with_io _).with_work (Work.spacesWf_start rfl rfl fun r => h.decRefs d dec r hdec)
      · trivial

theorem issueDecRestart_keepsWf (d : Nat) : KeepsWf (issueDecRestart d s) :=
  ensures_onDec fun _ _ => ensures_ite (fun _ => h.abort ..) fun _ =>
    (h.putDec fun dec r hdec hr => by cases hdec; cases hr).finish _

theorem issueDecFrame_keepsWf (cache : Cache) (ref : Option (List Byte)) (w ht : Word) (ch : Byte)
    (frame : List Byte) : KeepsWf (issueDecFrame cache ref w ht ch frame s) :=
  ensures_ite (fun _ => h.with_work (Work.spacesWf_start rfl rfl fun r hr => by
    obtain ⟨bs, -, rfl⟩ := Option.map_eq_some_iff.1 hr
    exact Memory.wf_ofBytes bs)) fun _ => trivial

theorem issue_keepsWf (c : Command) : KeepsWf (issue c s) := by
  cases c with
  | encodeImage w ht ch cs pixels => exact issueEncodeImage_keepsWf h w ht ch cs pixels
  | decodeImage bytes => exact h.with_work (Work.spacesWf_start rfl rfl nofun)
  | encBegin e w ht ch fr => exact issueEncBegin_keepsWf h e w ht ch fr
  | encFrame e kind pixels => exact issueEncFrame_keepsWf h e kind pixels
  | encFlush e => exact issueEncFlush_keepsWf h e
  | decOpen d src => exact issueDecOpen_keepsWf h d src
  | decNext d => exact issueDecNext_keepsWf h d
  | decRestart d => exact issueDecRestart_keepsWf h d
  | decFrame cache ref w ht ch frame => exact issueDecFrame_keepsWf h cache ref w ht ch frame
  | other code => trivial

/-! ### The step of the core -/

/-- An encoder or decoder just created holds no reference (R340). -/
theorem hostStep_keepsWf : KeepsWf (hostStep s) := by
  unfold hostStep
  split
  · exact h
  · next action rest _ =>
    have hs := h.with_io { s.io with pending := rest }
    cases action with
    | issue c => exact issue_keepsWf hs c
    | newEncoder =>
      refine ⟨h.work.input, h.work.output, h.work.reference, fun e enc r henc hr => ?_, h.decRefs⟩
      obtain henc | henc := getD_append_singleton henc
      · exact h.encRefs _ enc r henc hr
      · cases henc
        cases hr
    | newDecoder =>
      refine ⟨h.work.input, h.work.output, h.work.reference, h.encRefs, fun d dec r hdec hr => ?_⟩
      obtain hdec | hdec := getD_append_singleton hdec
      · exact h.decRefs _ dec r hdec hr
      · cases hdec
        cases hr
    | discardEncoder e => exact ensures_onEnc fun _ _ => hs.putEnc nofun
    | discardDecoder d => exact ensures_onDec fun _ _ => hs.putDec nofun

theorem step_keepsWf : KeepsWf (step s) := by
  have htoken := tokenStep_keepsWf h
  have hencode := encodeStep_keepsWf h
  unfold step
  cases s.work.phase with
  | idle => exact hostStep_keepsWf h
  | imageHeader => exact htoken
  | imageUnit => exact ensures_ite (fun _ => htoken) fun _ => execTerminator_keepsWf h
  | containerHeader d src => exact htoken
  | frameTag caller => exact htoken
  | frameUnit caller => exact ensures_ite (fun _ => htoken) fun _ => commitFrame_keepsWf h caller
  | encImage => exact ensures_ite (fun _ => hencode) fun _ => h.finish _
  | encFrame e => exact ensures_ite (fun _ => hencode) fun _ => finishFrame_keepsWf h e

end

/-- Settles O54: every outcome of a step is made of the operations that keep the canonical form. -/
theorem everyStepKeepsMemoryCanonical : Obligations.EveryStepKeepsMemoryCanonical := by
  intro s t h hstep
  have hkeeps := step_keepsWf h
  rwa [hstep] at hkeeps

end Sys2Proof.Machine
end

section
/-! PROOF. The state after reset (R340 to R343) meets the invariant, and its byte spaces are empty. -/

namespace Sys2Proof.Machine

theorem State.encAt_reset {e : Nat} {enc : Enc} (h : State.reset.encAt e = some enc) : enc = Enc.reset := by
  obtain h | h := getD_append_singleton (l := []) h
  · simp at h
  · exact (Option.some.inj h).symm

theorem State.decAt_reset {d : Nat} {dec : Dec} (h : State.reset.decAt d = some dec) : dec = Dec.reset := by
  obtain h | h := getD_append_singleton (l := []) h
  · simp at h
  · exact (Option.some.inj h).symm

/-- Settles O53: the one encoder and the one decoder stand at their reset values, which hold no reference, and no
command is in progress. -/
theorem invariantHoldsAtReset : Obligations.InvariantHoldsAtReset := by
  refine ⟨⟨fun e enc henc => ?_, fun d dec hdec => ?_, Work.good_of_idle rfl⟩,
    .nil, .nil, nofun, fun e enc r henc hr => ?_, fun d dec r hdec hr => ?_⟩
  · exact State.encAt_reset henc ▸ Enc.reset_good _
  · exact State.decAt_reset hdec ▸ Dec.reset_good _
  · cases State.encAt_reset henc
    cases hr
  · cases State.decAt_reset hdec
    cases hr

end Sys2Proof.Machine
end

section
/-! PROOF. Tokens out of their place (log entry 9): each meaning is given at one place of the command in progress. -/

namespace Sys2Proof.Machine

section
variable {s : State}

theorem exec_opcode_out_of_place {i : Instr} (hplace : i.place = .opcode) (hwalk : s.work.walking = false) :
    exec i s = .refused .tokenOutOfPlace := by
  have hone (n : Nat) (writes : Bool) (px : Option Px) : s.onePixel n writes px = .refused .tokenOutOfPlace :=
    if_neg (by rw [hwalk]; decide)
  cases i with
  | index k => exact hone 1 false (some (cacheRead s.work.wcache k))
  | diff dr dg db => exact hone _ _ _
  | luma dg drg dbg => exact hone _ _ _
  | run n => exact if_neg (by rw [hwalk]; decide)
  | rgb r g b => exact hone _ _ _
  | rgba r g b a => exact hone 5 true (some ⟨r, g, b, a⟩)
  | frameIntra => cases hplace
  | framePred => cases hplace
  | qoif w h ch cs => cases hplace
  | terminator => cases hplace
  | qov1 hs w h fr ch n offs => cases hplace

theorem execFrameIntra_out_of_place (hphase : ∀ c, s.work.phase ≠ .frameTag c) :
    execFrameIntra s = .refused .tokenOutOfPlace := by
  unfold execFrameIntra
  split
  · next c hc => exact absurd hc (hphase c)
  all_goals rfl

theorem execFramePred_out_of_place (hphase : ∀ c, s.work.phase ≠ .frameTag c) :
    execFramePred s = .refused .tokenOutOfPlace := by
  unfold execFramePred
  split
  · next c hc => exact absurd hc (hphase c)
  all_goals rfl

theorem execQoif_out_of_place (hphase : s.work.phase ≠ .imageHeader) (w h : Word) (ch cs : Byte) :
    execQoif w h ch cs s = .refused .tokenOutOfPlace := by
  unfold execQoif
  split
  · next hp => exact absurd hp hphase
  all_goals rfl

theorem execQov1_out_of_place (hphase : ∀ d src, s.work.phase ≠ .containerHeader d src) (hs w h fr : Word)
    (ch : Byte) (n : Word) (offs : List Word) : execQov1 hs w h fr ch n offs s = .refused .tokenOutOfPlace := by
  unfold execQov1
  split
  · next d src hp => exact absurd hp (hphase d src)
  all_goals rfl

theorem execTerminator_out_of_place (hphase : s.work.phase ≠ .imageUnit) :
    execTerminator s = .refused .tokenOutOfPlace := by
  unfold execTerminator
  split
  · next hp => exact absurd hp hphase
  all_goals rfl

end

/-- Settles O16: each place has its tokens, and the meaning of each asks for that place first. -/
theorem tokenOutOfPlaceIsRefused : Obligations.TokenOutOfPlaceIsRefused := by
  refine fun s i => ⟨exec_opcode_out_of_place, fun hplace hphase => ?_, fun hplace hphase => ?_,
    fun hplace hphase => ?_, fun hplace hphase => ?_⟩
  · cases i with
    | frameIntra => exact execFrameIntra_out_of_place hphase
    | framePred => exact execFramePred_out_of_place hphase
    | _ => cases hplace
  · cases i with
    | qoif w h ch cs => exact execQoif_out_of_place hphase w h ch cs
    | _ => cases hplace
  · cases i with
    | qov1 hs w h fr ch n offs => exact execQov1_out_of_place hphase hs w h fr ch n offs
    | _ => cases hplace
  · cases i with
    | terminator => exact execTerminator_out_of_place hphase
    | _ => cases hplace

end Sys2Proof.Machine
end
